-- ==== Sys2Proof/Word.lean ====
section
/-!
DEFINITION. The word types of SBR24: an operand field (32 bits), a command word (72 bits), a byte and the 24-bit
sample word (spec 30_encoding.md R65, 10_state.md R20, R21).
-/

namespace Sys2Proof

/-- An operand field `A` or `B` of a command (R65). -/
abbrev Word := BitVec 32

/-- A command word `CMD72`: `op ‖ A ‖ B` (R65). -/
abbrev CmdWord := BitVec 72

/-- The byte assembled by one shift-in (R21). -/
abbrev Byte := BitVec 8

/-- The 24-bit word assembled by one read (R20). -/
abbrev SampleWord := BitVec 24

end Sys2Proof
end

