-- ==== Sys2Proof/Syntax.lean ====
section
/-!
DEFINITION. The commands of SBR24: one constructor per row of the opcode map (30_encoding.md R66). An operand field a
command does not use is no argument of its constructor (R65).
-/

namespace Sys2Proof

/-- A command with the operands its rule names (R65: a model may take a command as a constructor with typed operands). -/
inductive Instr where
  -- Microsecond Clock (40_clock.md)
  | clkInit (counter : Word)
  | delayUs (n : Word)
  | nowUs
  | nowMs
  -- Serial Bit Channel (41_shift.md)
  | shiftIn (bitOrder : Word)
  -- Reader (42_reader.md)
  | configure (gain : Word)
  | isReady
  | waitReady (pollDelay : Word)
  | waitReadyRetry (maxAttempts pollDelay : Word)
  | waitReadyTimeout (timeoutMs pollDelay : Word)
  | read
  | powerDown
  | powerUp
  -- Calibration (43_calibration.md)
  | readAverage (n : Word)
  | getValue (n : Word)
  | getUnits (n : Word)
  | tare (n : Word)
  | setScale (low high : Word)
  | getScale
  | setOffset (value : Word)
  | getOffset
deriving DecidableEq, Repr

end Sys2Proof
end

