-- ==== Sys2Proof/Decode.lean ====
section
/-!
DEFINITION. The command word `CMD72` (30_encoding.md R65) and the opcode map (R66): a total decoder that rejects an
unknown opcode by name (R76), and the encoder.
-/

namespace Sys2Proof

/-- Why a word is no command. -/
inductive DecodeError where
  /-- The opcode is not in the map of R66 (R76). -/
  | invalidCommand (op : Byte)
deriving DecidableEq, Repr

/-- `cmd[71:64]` (R65). -/
def CmdWord.op (w : CmdWord) : Byte := w.extractLsb' 64 8
/-- `cmd[63:32]` (R65). -/
def CmdWord.operandA (w : CmdWord) : Word := w.extractLsb' 32 32
/-- `cmd[31:0]` (R65). -/
def CmdWord.operandB (w : CmdWord) : Word := w.extractLsb' 0 32

/-- The command a word stands for (R66). -/
def decode (w : CmdWord) : Except DecodeError Instr :=
  let a := CmdWord.operandA w
  let b := CmdWord.operandB w
  match (CmdWord.op w).toNat with
  | 0x01 => .ok (.clkInit a)
  | 0x02 => .ok (.delayUs a)
  | 0x03 => .ok .nowUs
  | 0x04 => .ok .nowMs
  | 0x10 => .ok (.shiftIn a)
  | 0x20 => .ok (.configure a)
  | 0x21 => .ok .isReady
  | 0x22 => .ok (.waitReady a)
  | 0x23 => .ok (.waitReadyRetry a b)
  | 0x24 => .ok (.waitReadyTimeout a b)
  | 0x25 => .ok .read
  | 0x26 => .ok .powerDown
  | 0x27 => .ok .powerUp
  | 0x30 => .ok (.readAverage a)
  | 0x31 => .ok (.getValue a)
  | 0x32 => .ok (.getUnits a)
  | 0x33 => .ok (.tare a)
  | 0x34 => .ok (.setScale a b)
  | 0x35 => .ok .getScale
  | 0x36 => .ok (.setOffset a)
  | 0x37 => .ok .getOffset
  | _ => .error (.invalidCommand (CmdWord.op w))

/-- The command a word of `nbits` bits stands for, numbered as the opcode table numbers its bits. The command is one
word of 72 bits, so bit 0 of `w` is bit 0 of the command (log 19). -/
def decodeTableWord (nbits w : Nat) : Option Instr :=
  match decode (BitVec.ofNat 72 (w % 2 ^ nbits)) with
  | .ok i => some i
  | .error _ => none

/-- The word `op ‖ A ‖ B` (R65). -/
def cmdWord (op : Byte) (a b : Word) : CmdWord := op ++ a ++ b

/-- The word of a command; the fields it does not use are written as 0. -/
def encode : Instr → CmdWord
  | .clkInit counter => cmdWord 0x01 counter 0
  | .delayUs n => cmdWord 0x02 n 0
  | .nowUs => cmdWord 0x03 0 0
  | .nowMs => cmdWord 0x04 0 0
  | .shiftIn bitOrder => cmdWord 0x10 bitOrder 0
  | .configure gain => cmdWord 0x20 gain 0
  | .isReady => cmdWord 0x21 0 0
  | .waitReady pollDelay => cmdWord 0x22 pollDelay 0
  | .waitReadyRetry maxAttempts pollDelay => cmdWord 0x23 maxAttempts pollDelay
  | .waitReadyTimeout timeoutMs pollDelay => cmdWord 0x24 timeoutMs pollDelay
  | .read => cmdWord 0x25 0 0
  | .powerDown => cmdWord 0x26 0 0
  | .powerUp => cmdWord 0x27 0 0
  | .readAverage n => cmdWord 0x30 n 0
  | .getValue n => cmdWord 0x31 n 0
  | .getUnits n => cmdWord 0x32 n 0
  | .tare n => cmdWord 0x33 n 0
  | .setScale low high => cmdWord 0x34 low high
  | .getScale => cmdWord 0x35 0 0
  | .setOffset value => cmdWord 0x36 value 0
  | .getOffset => cmdWord 0x37 0 0

end Sys2Proof
end

