-- ==== Sys2Proof/Config.lean ====
section
/-!
DEFINITION. What an implementation of SBR24 fixes (the OPEN parameters of 00_scope.md R8) and the free values of the
model: constants with no body, of which no proof can know the value.
-/

namespace Sys2Proof

/-- The three channel and gain selections (R32, log 11). Each is known by the number of trailing pulses it takes (R72). -/
inductive Selector where
  | a128
  | b32
  | a64
deriving DecidableEq, Repr, Inhabited

/-- What `DELAY_US 0` waits for (R86, decision D15). -/
inductive Delay0Mode where
  /-- The threshold is 0: the delay ends at its first poll. -/
  | immediate
  /-- The threshold is `2^CW - 1`, which is what `0 ⊖ 1` gives. -/
  | wrap
deriving DecidableEq, Repr, Inhabited

/-- The floating-point format `F` of `SCALE` and of calibrated values (R116, decision D5). -/
inductive FloatFormat where
  /-- The spec's default: IEEE 754 binary32, round to nearest even. -/
  | binary32
  /-- Any other format of the given width; its operations are the free functions of `Config`. -/
  | other (width : Nat)
deriving DecidableEq, Repr, Inhabited

/-- The width `FW` of the format in bits (R8). -/
def FloatFormat.width : FloatFormat → Nat
  | .binary32 => 32
  | .other w => w

/-- The OPEN parameters of R8. -/
structure Params where
  /-- `CW`, the width of the counters. -/
  cw : Nat
  /-- `XW`, the width of a sample after sign extension. -/
  xw : Nat
  /-- `F`, with its width `FW`. -/
  fmt : FloatFormat
  /-- `NCTR`, the number of counters. -/
  nctr : Nat
  /-- `T_HIGH_MAX`, the most ticks in the high part of a pulse while interruption is masked. -/
  tHighMax : Nat
  /-- `READ_POLL_DELAY`, in milliseconds. -/
  readPollDelay : Word
  delay0 : Delay0Mode
  /-- `SEL_RESET`. -/
  selReset : Selector
  /-- `SCK_RESET`. -/
  sckReset : Bool
  /-- `OFFSET_RESET`. -/
  offsetReset : Word
  /-- `SCALE_RESET`, a pattern of `FW` bits. -/
  scaleReset : Nat
  /-- `BASE`, where the platform maps the command port and registers (R8, R58). No rule depends on it (decision D28), so
  nothing reads it; that it is a natural number is the model's choice (log 17). -/
  base : Nat
deriving DecidableEq, Repr

/-- `FW` (R8). -/
def Params.fw (p : Params) : Nat := p.fmt.width

/-- `RW`, the width of the result register: `max(32, XW, CW, FW)` (R8, decision D26). -/
def Params.rw (p : Params) : Nat := max (max 32 p.xw) (max p.cw p.fw)

/-- The constraints R8 puts on the parameters. -/
abbrev Params.Valid (p : Params) : Prop := 1 ≤ p.cw ∧ 24 ≤ p.xw ∧ 1 ≤ p.nctr ∧ p.scaleReset < 2 ^ p.fw

/-- `PD_TIMEOUT`: ticks of continuous clock-high after which the chip powers down (R8). -/
def pdTimeout : Nat := 60

/-- What the environment does before one step of `SEQ` (R14, R15): `ticks` steps of `TICK`, and the level `CHIP`
last drove on `DOUT`. Of several `chip_drive` steps between two steps of `SEQ` only the last can be seen (log 4). -/
structure Draw where
  ticks : Nat
  dout : Bool
deriving DecidableEq, Repr, Inhabited

namespace Config

/-- The counter width of the implementation, less one (R8: `CW ≥ 1`). -/
opaque counterWidthLessOne : Nat
/-- The sample width of the implementation, less 24 (R8: `XW ≥ 24`). -/
opaque sampleWidthLess24 : Nat
/-- The number of counters, less one (R8: `NCTR ≥ 1`). -/
opaque counterCountLessOne : Nat
opaque floatFormat : FloatFormat
opaque tHighMax : Nat
opaque readPollDelay : Word
opaque delay0Mode : Delay0Mode
opaque selReset : Selector
opaque sckReset : Bool
opaque offsetReset : Word
/-- `SCALE_RESET`; only its low `FW` bits are used. -/
opaque scaleReset : Nat
opaque base : Nat

/-- FREE VALUE. The environment's choices before the sequencer's steps, where no queue in the state fixes them: the
argument counts them (R13 to R15, U12, U19; log 4). -/
opaque freeDraw : Nat → Draw

/-- FREE VALUE. `F.of_int` of a format other than binary32, by its width (R116, U14). -/
opaque floatOfInt : Nat → Int → Nat
/-- FREE VALUE. `F.sub` of a format other than binary32, by its width (R116, U14). -/
opaque floatSub : Nat → Nat → Nat → Nat
/-- FREE VALUE. `F.div` of a format other than binary32, by its width (R116, U14). -/
opaque floatDiv : Nat → Nat → Nat → Nat
/-- FREE VALUE. `F.is_zero` of a format other than binary32, by its width (R116, U14). -/
opaque floatIsZero : Nat → Nat → Bool
/-- FREE VALUE. The sign and payload of a NaN that a binary32 operation of the two operands gives (log 10). -/
opaque nanBits : Nat → Nat → Nat

/-- The parameters of the machine the model stands for: every one of them open (R8). -/
def params : Params where
  cw := counterWidthLessOne + 1
  xw := sampleWidthLess24 + 24
  fmt := floatFormat
  nctr := counterCountLessOne + 1
  tHighMax := tHighMax
  readPollDelay := readPollDelay
  delay0 := delay0Mode
  selReset := selReset
  sckReset := sckReset
  offsetReset := offsetReset
  scaleReset := scaleReset % 2 ^ floatFormat.width
  base := base

/-- The defaults of R8 and of the programs of 95_test_vectors.md, for tests only; R8 gives no default for `BASE`. -/
def defaults : Params where
  cw := 32
  xw := 32
  fmt := .binary32
  nctr := 1
  tHighMax := 59
  readPollDelay := 0
  delay0 := .immediate
  selReset := .a64
  sckReset := false
  offsetReset := 0
  scaleReset := 0
  base := 0

end Config
end Sys2Proof
end

