-- ==== Sys2Proof/Machine/State.lean ====
section
/-!
DEFINITION. The state of SBR24 as plain data (10_state.md), the position of the sequencer, the reasons a step can stop,
and the state after reset (R44). Values whose width is a parameter (`CW`, `RW`, `FW` bits) are natural numbers below
`2^width` (log 2).
-/

namespace Sys2Proof.Machine

/-! ## The position of the sequencer (R27) -/

/-- The two steps of `Delay` (R86): the `T0` step, and the polls. -/
inductive DelayPos where
  | latch
  | poll
deriving DecidableEq, Repr

/-- The two steps of `Sleep` (R87): the loading step, and the polls. -/
inductive SleepPos where
  | load
  | poll
deriving DecidableEq, Repr

/-- A step of one bit of `ShiftIn` (R94): the five numbered steps of the source. -/
inductive BitPos where
  /-- 1. `PinWrite(SCK, 1)`. -/
  | high
  /-- 2. `Delay(1)`. -/
  | settle (d : DelayPos)
  /-- 3. `PinRead(DOUT)`. -/
  | sample
  /-- 4. `PinWrite(SCK, 0)`. -/
  | low
  /-- 5. `Delay(1)`. -/
  | hold (d : DelayPos)
deriving DecidableEq, Repr

/-- A step of `ShiftIn`: the bit index `i` in `0 .. 7` and the step within that bit (R27). -/
structure ShiftPos where
  bit : Fin 8
  at_ : BitPos
deriving DecidableEq, Repr

/-- A step of `Pulse` (R93). -/
inductive PulsePos where
  | high
  | highDelay (d : DelayPos)
  | low
  | lowDelay (d : DelayPos)
deriving DecidableEq, Repr

/-- A step of a wait loop: the readiness check, or the sleep after a check that failed (R99, R101, R102). -/
inductive WaitPos where
  | check
  | sleep (p : SleepPos)
deriving DecidableEq, Repr

/-- A step of `Read` (R103). -/
inductive ReadPos where
  /-- Inside `WaitReady(READ_POLL_DELAY)`. -/
  | wait (w : WaitPos)
  /-- `IE <- 0`. -/
  | mask
  /-- Inside the shift-in of byte `j` in `0 .. 2`. -/
  | byte (j : Fin 3) (p : ShiftPos)
  /-- Inside trailing pulse `k` of `count`; `count` was read from `SEL` at the head of the loop. -/
  | pulse (k count : Nat) (p : PulsePos)
  /-- `IE <- 1`. -/
  | unmask
deriving DecidableEq, Repr

/-- A point in the pseudocode of a command, with its loop variables (R27). -/
inductive Pos where
  /-- The one step a command makes outside every procedure (its first one, where it has several). -/
  | act
  | delay (d : DelayPos)
  | shift (p : ShiftPos)
  | wait (w : WaitPos)
  /-- The elapsed-time test of `WAIT_READY_TIMEOUT` (R102). -/
  | timeTest
  | read (r : ReadPos)
deriving DecidableEq, Repr

/-- `SEQ`, the program counter of this hardware (R27): `Idle`, or the latched command and the next step of it. -/
inductive Seq where
  | idle
  | run (cmd : Instr) (pos : Pos)
deriving DecidableEq, Repr

/-! ## The chip as seen from the pins, and the record of pin events -/

/-- `CHIP_SEL`: the chip's armed selection (R40). -/
inductive ChipSel where
  | unknown
  | armed (sel : Selector)
deriving DecidableEq, Repr

/-- Whether a `Read` frame is open (between its first rising edge and its end) and has been kept whole (R42). The
model's own field. -/
inductive Frame where
  | outside
  | whole
  | broken
deriving DecidableEq, Repr

/-- A pin event: an edge of `SCK` (R36), a sample of `DOUT` by `ShiftIn`, a readiness check of `DOUT` (R37). -/
inductive WireEvent where
  | rise
  | fall
  | sampled (level : Bool)
  | checked (level : Bool)
deriving DecidableEq, Repr

/-! ## The state -/

/-- The state of one SBR24 with its host's queue of commands and its environment's choices. -/
structure State where
  /-- The implementation parameters (R8); nothing changes them. -/
  cfg : Params
  /-- The commands `HOST` will still issue, in order (R16). The model's own field. -/
  program : List CmdWord
  /-- What the environment does before the next steps of `SEQ`, where a run fixes it. The model's own field. -/
  draws : List Draw
  /-- The index of the next free draw. The model's own field. -/
  drawCount : Nat
  /-- `SEQ` (R27). -/
  seq : Seq
  /-- `STATUS`: bit 0 is `BUSY`, bits 4:1 are `FAULT` (R29, R38). -/
  status : BitVec 5
  /-- `RES`, `RW` bits (R22). -/
  res : Nat
  /-- `SHR` (R20). -/
  shr : SampleWord
  /-- `BYT` (R21). -/
  byt : Byte
  /-- `ACC`, signed (R23). -/
  acc : BitVec 64
  /-- `T0`, `CW` bits (R24). -/
  t0 : Nat
  /-- `TS`, `CW` bits (R25). -/
  ts : Nat
  /-- `CTR` (R26). -/
  ctr : BitVec 32
  /-- `SLP` (R46). -/
  slp : BitVec 42
  /-- `CTRS`, the counters, `CW` bits each (R30). -/
  ctrs : List Nat
  /-- `BOUND` (R31). -/
  bound : Bool
  /-- `CSEL`, a counter index (R31). -/
  csel : Nat
  /-- `SEL` (R32). -/
  sel : Selector
  /-- `OFFSET`, signed (R33). -/
  offset : Word
  /-- `SCALE`, `FW` bits (R34). -/
  scale : Nat
  /-- `IE` (R35). -/
  ie : Bool
  /-- `SCK` (R36). -/
  sck : Bool
  /-- `DOUT` (R37). -/
  dout : Bool
  /-- `CHIP_SEL` (R40). -/
  chipSel : ChipSel
  /-- `HIGH_TICKS` (R41). -/
  highTicks : Nat
  /-- `CHIP_PD` (R41). -/
  chipPd : Bool
  /-- `GARBAGE_NEXT` (R42). -/
  garbageNext : Bool
  /-- Whether a frame is open and whole (R42). The model's own field. -/
  frame : Frame
  /-- Ticks since the last `PinWrite(SCK, 1)`, for the bound of R15. The model's own field. -/
  pulseTicks : Nat
  /-- The `CHIP_SEL` under which the last frame's sample was converted (R40). The model's own field. -/
  sampleSel : ChipSel
  /-- The pin events so far, newest first (R59, log 14). The model's own field. -/
  wire : List WireEvent
deriving DecidableEq, Repr

/-! ## Why a step can stop -/

/-- A stop of the MODEL, not of the hardware: every fault of the spec is a completion code in `STATUS` and a next
state (R130). -/
inductive Fault where
  /-- `BUSY = 1` and `SEQ` is at no point of its command. Raised by `runCommand` and `step`. No run reaches it
  (an invariant of the model rules it out). Safe. -/
  | sequencerLost
deriving DecidableEq, Repr

/-- A move the model has no meaning for. -/
inductive Refusal where
  /-- The instruction has no meaning in the model yet. Raised by no arm. Safe. -/
  | notModelled (mnemonic : String)
  /-- A command was given to a block that runs another one: the second caller of R158, to whom the spec refuses a
  move (U4, log 15). Raised by `runCommand`; `step` never asks it to. Safe. -/
  | secondCaller
deriving DecidableEq, Repr

/-! ## Reset -/

/-- The state after reset (R44) for given parameters. Where the spec leaves a value unspecified it is 0 (log 8). -/
def State.resetWith (p : Params) : State where
  cfg := p
  program := []
  draws := []
  drawCount := 0
  seq := .idle
  status := 0
  res := 0
  shr := 0
  byt := 0
  acc := 0
  t0 := 0
  ts := 0
  ctr := 0
  slp := 0
  ctrs := List.replicate p.nctr 0
  bound := false
  csel := 0
  sel := p.selReset
  offset := p.offsetReset
  scale := p.scaleReset
  ie := true
  sck := p.sckReset
  dout := false
  chipSel := .unknown
  highTicks := 0
  chipPd := false
  garbageNext := true
  frame := .outside
  pulseTicks := 0
  sampleSel := .unknown
  wire := []

/-- The machine right after reset (R44, R146, R147), its parameters open. -/
def State.reset : State := State.resetWith Config.params

end Sys2Proof.Machine
end

