-- ==== Sys2Proof/Machine/Float.lean ====
section
/-!
DEFINITION. The format `F` of `SCALE` and of calibrated values (43_calibration.md R116): `F.of_int`, `F.sub`, `F.div`,
`F.is_zero`. For the default format, IEEE 754 binary32 with round to nearest even, they are computed (PRESUMED: general
knowledge, K3, log 10); for any other format they are the free functions of `Config`, cut to the format's width.
-/

namespace Sys2Proof.Machine

/-! ## Binary32 -/

/-- A binary32 pattern read: a NaN, an infinity, or the number `± m · 2^e`. -/
inductive F32 where
  | nan
  | inf (neg : Bool)
  | num (neg : Bool) (m : Nat) (e : Int)
deriving DecidableEq, Repr

/-- The number a pattern stands for. -/
def f32Unpack (v : Nat) : F32 :=
  let neg := v.testBit 31
  let ex : Nat := v / 2 ^ 23 % 2 ^ 8
  let fr : Nat := v % 2 ^ 23
  if ex = 255 then (if fr = 0 then .inf neg else .nan)
  else if ex = 0 then .num neg fr (-149)
  else .num neg (fr + 2 ^ 23) ((ex : Int) - 150)

/-- The sign bit in its place. -/
def f32Sign (neg : Bool) : Nat := if neg then 2 ^ 31 else 0

/-- An infinity. -/
def f32Inf (neg : Bool) : Nat := f32Sign neg + 0x7F800000

/-- A NaN: its sign and payload are free (log 10). -/
def f32Nan (a b : Nat) : Nat :=
  f32Sign ((Config.nanBits a b).testBit 31) + 0x7F800000 + 1 + Config.nanBits a b % (2 ^ 23 - 1)

/-- The pattern nearest to `± m · 2^e`, ties to the even one. -/
def f32Round (neg : Bool) (m : Nat) (e : Int) : Nat :=
  if m = 0 then f32Sign neg
  else
    let unit : Int := max (e + (m.log2 : Int) - 23) (-149)
    let q : Nat :=
      if unit ≤ e then m * 2 ^ (e - unit).toNat
      else
        let k := (unit - e).toNat
        let q := m / 2 ^ k
        let r := 2 * (m % 2 ^ k)
        if 2 ^ k < r ∨ (r = 2 ^ k ∧ q % 2 = 1) then q + 1 else q
    let bits := (unit + 149).toNat * 2 ^ 23 + q
    if 0x7F800000 ≤ bits then f32Inf neg else f32Sign neg + bits

/-- `F.of_int` in binary32. -/
def f32OfInt (i : Int) : Nat := f32Round (decide (i < 0)) i.natAbs 0

/-- `F.sub` in binary32. -/
def f32Sub (a b : Nat) : Nat :=
  match f32Unpack a, f32Unpack b with
  | .nan, _ => f32Nan a b
  | _, .nan => f32Nan a b
  | .inf na, .inf nb => if na = nb then f32Nan a b else f32Inf na
  | .inf na, .num _ _ _ => f32Inf na
  | .num _ _ _, .inf nb => f32Inf (!nb)
  | .num na ma ea, .num nb mb eb =>
    let e := min ea eb
    let x : Int := (if na then -1 else 1) * ((ma * 2 ^ (ea - e).toNat : Nat) : Int)
    let y : Int := (if nb then -1 else 1) * ((mb * 2 ^ (eb - e).toNat : Nat) : Int)
    if x = y then f32Sign (decide (ma = 0) && na && !nb)
    else f32Round (decide (x < y)) (x - y).natAbs e

/-- `F.div` in binary32. A divisor of zero is refused before by `GET_UNITS` (R118) and is here for totality. -/
def f32Div (a b : Nat) : Nat :=
  match f32Unpack a, f32Unpack b with
  | .nan, _ => f32Nan a b
  | _, .nan => f32Nan a b
  | .inf _, .inf _ => f32Nan a b
  | .inf na, .num nb _ _ => f32Inf (na != nb)
  | .num na _ _, .inf nb => f32Sign (na != nb)
  | .num na ma ea, .num nb mb eb =>
    if mb = 0 then (if ma = 0 then f32Nan a b else f32Inf (na != nb))
    else
      let q := ma * 2 ^ 60 / mb
      let sticky := if ma * 2 ^ 60 % mb = 0 then 0 else 1
      f32Round (na != nb) (2 * q + sticky) (ea - eb - 61)

/-! ## The record `F` -/

/-- `F.of_int` (R116). -/
def floatOfInt (f : FloatFormat) (i : Int) : Nat :=
  match f with
  | .binary32 => f32OfInt i
  | .other w => Config.floatOfInt w i % 2 ^ w

/-- `F.sub` (R116). -/
def floatSub (f : FloatFormat) (a b : Nat) : Nat :=
  match f with
  | .binary32 => f32Sub a b
  | .other w => Config.floatSub w a b % 2 ^ w

/-- `F.div` (R116). -/
def floatDiv (f : FloatFormat) (a b : Nat) : Nat :=
  match f with
  | .binary32 => f32Div a b
  | .other w => Config.floatDiv w a b % 2 ^ w

/-- `F.is_zero`: true of every zero of the format (R116). -/
def floatIsZero (f : FloatFormat) (a : Nat) : Bool :=
  match f with
  | .binary32 => a % 2 ^ 31 == 0
  | .other w => Config.floatIsZero w a

end Sys2Proof.Machine
end

