-- ==== Sys2Proof/Machine/Flags.lean ====
section
/-!
DEFINITION. The flags of SBR24: the two fields of `STATUS` (10_state.md R29), the completion codes (60_exceptions.md
R128) and the unstored predicate `Ready` (R28). There is no other flag: no command sets one as a side effect (R29).
-/

namespace Sys2Proof.Machine

/-- The faults of SBR24 (R128): ways a command ends when it is refused. -/
inductive FaultCode where
  | invalidArgument
  | invalidState
  | clockUnbound
  | invalidCommand
deriving DecidableEq, Repr

/-- The code left in `STATUS.FAULT` (R128); 0 is success. -/
def FaultCode.code : FaultCode → BitVec 4
  | .invalidArgument => 1
  | .invalidState => 2
  | .clockUnbound => 3
  | .invalidCommand => 4

/-- `STATUS` as a word: `[0]` is `BUSY`, `[4:1]` is `FAULT` (R38). -/
def statusWord (fault : BitVec 4) (busy : Bool) : BitVec 5 := fault ++ BitVec.ofBool busy

/-- `STATUS.BUSY` (R29). -/
def State.busy (s : State) : Bool := s.status.getLsbD 0

/-- `STATUS.FAULT` (R29). -/
def State.faultField (s : State) : BitVec 4 := s.status.extractLsb' 1 4

/-- `Ready`: the data line reads low. The polarity is inverted from the level (R28). -/
def State.ready (s : State) : Bool := !s.dout

end Sys2Proof.Machine
end

