-- ==== Sys2Proof/Machine/Operands.lean ====
section
/-!
DEFINITION. Values: extension and signedness (00_scope.md R10), arithmetic of `CW`-bit counters (R11), operand values
(30_encoding.md R70 to R74), results as `RES` holds them (R75), the mean (43_calibration.md R113, R114).
-/

namespace Sys2Proof.Machine

/-! ## Patterns of a width that is a parameter -/

/-- The integer an `n`-bit pattern spells in two's complement (`signed_N` of R10). -/
def signedValue (n v : Nat) : Int := if v.testBit (n - 1) then (v : Int) - (2 ^ n : Nat) else (v : Int)

/-- The `n`-bit two's-complement pattern of an integer. -/
def signedPattern (n : Nat) (i : Int) : Nat := (i % (2 ^ n : Nat)).toNat

/-- `sext_N` of a `w`-bit pattern (R10). -/
def sext (w n v : Nat) : Nat := signedPattern n (signedValue w v)

/-- `a ⊖ b` on `w`-bit values (R11). -/
def subMod (w a b : Nat) : Nat := (a + (2 ^ w - b % 2 ^ w)) % 2 ^ w

/-- `a ⊕ b` on `w`-bit values (R11). -/
def addMod (w a b : Nat) : Nat := (a + b) % 2 ^ w

/-- `tw(v)`: a 32-bit operand as a `CW`-bit value (R11, R74). -/
def counterOperand (p : Params) (v : Word) : Nat := v.toNat % 2 ^ p.cw

/-! ## Operands -/

/-- The code of `SEL` (R72): the number of trailing pulses. -/
def selectorCode : Selector → BitVec 2
  | .a128 => 1
  | .b32 => 2
  | .a64 => 3

/-- `pulses(SEL)` (R71, R72). -/
def pulses (sel : Selector) : Nat := (selectorCode sel).toNat

/-- `sel_of` (R70): the selector of a gain code, all 32 bits of which are compared. -/
def selectorOfGain (gain : Word) : Option Selector :=
  if gain = 128 then some .a128
  else if gain = 64 then some .a64
  else if gain = 32 then some .b32
  else none

/-- The order of the bits of a shift-in (R52). -/
inductive BitOrder where
  | lsbFirst
  | msbFirst
deriving DecidableEq, Repr

/-- The `bit_order` operand (R73). -/
def bitOrderOf (a : Word) : Option BitOrder :=
  if a = 0 then some .lsbFirst else if a = 1 then some .msbFirst else none

/-- The bit of `BYT` the `i`-th sample goes to (R52, R94). -/
def bitIndex (order : BitOrder) (i : Fin 8) : Nat :=
  match order with
  | .lsbFirst => i.val
  | .msbFirst => 7 - i.val

/-- `BYT[i] <- BYT[i] | b` for the `i`-th sample (R94). -/
def assembleBit (order : BitOrder) (i : Fin 8) (b : Bool) (byt : Byte) : Byte :=
  byt ||| (BitVec.ofBool b).setWidth 8 <<< bitIndex order i

/-- `SHR[23:16] <- b`, `SHR[15:8] <- b` or `SHR[7:0] <- b`, for byte `j` of a read in the order shifted in (R51). -/
def storeByte (j : Fin 3) (b : Byte) (shr : SampleWord) : SampleWord :=
  match j with
  | 0 => b ++ shr.extractLsb' 0 16
  | 1 => shr.extractLsb' 16 8 ++ b ++ shr.extractLsb' 0 8
  | 2 => shr.extractLsb' 8 16 ++ b

/-- The `SCALE` operand `(B ‖ A)[FW-1:0]` (R75, R122). A format of more than 64 bits takes zeros above (log 18). -/
def scaleOperand (p : Params) (low high : Word) : Nat := (high ++ low : BitVec 64).toNat % 2 ^ p.fw

/-! ## Results, as `RES` holds them (R75) -/

/-- A boolean result. -/
def boolResult (b : Bool) : Nat := if b then 1 else 0

/-- A signed `XW`-bit result: `sext_RW` (R75). -/
def sampleResult (p : Params) (v : Nat) : Nat := sext p.xw p.rw v

/-- `sext_XW(SHR)`: the sample of a read (R69). -/
def sampleOf (p : Params) (shr : SampleWord) : Nat := sext 24 p.xw shr.toNat

/-- The result of `GET_OFFSET`: `sext_RW` of the 32-bit `OFFSET` (R75). -/
def offsetResult (p : Params) (offset : Word) : Nat := sext 32 p.rw offset.toNat

/-! ## Clock values -/

/-- The threshold of `Delay(n)`: `n ⊖ 1`, and for `n = 0` what `DELAY0_MODE` says (R86). -/
def delayThreshold (p : Params) (n : Nat) : Nat :=
  if n = 0 then
    match p.delay0 with
    | .immediate => 0
    | .wrap => 2 ^ p.cw - 1
  else subMod p.cw n 1

/-- The millisecond view of a counter value: the quotient, truncated (R92). -/
def millis (c : Nat) : Nat := c / 1000

/-! ## The mean -/

/-- `ACC + sext_AW(sample)` (R113): the sample is an `XW`-bit value. -/
def accumulate (p : Params) (acc : BitVec 64) (sample : Nat) : BitVec 64 :=
  acc + BitVec.ofInt 64 (signedValue p.xw sample)

/-- `signed_AW(ACC) div n` as an `XW`-bit signed value; the quotient truncates toward zero (R113, R114). -/
def mean (p : Params) (acc : BitVec 64) (n : Word) : Nat := signedPattern p.xw (Int.tdiv acc.toInt n.toNat)

/-- `sext_32(a[23:0])`: the average as `TARE` stores it in `OFFSET` (R121). -/
def offsetOfMean (a : Nat) : Word := (BitVec.ofNat 24 a).signExtend 32

end Sys2Proof.Machine
end

