-- ==== Sys2Proof/Machine/Ops.lean ====
section
/-!
DEFINITION. The shared operations on the state: the passing of time and the line the chip drives (00_scope.md R13 to
R15), the two pins and the counter (R12), the hidden state of the chip (10_state.md R40 to R42), the issue of a command
and its end by a return or by a fault (R14, R12, 60_exceptions.md R130), and the registers by number (R38).
-/

namespace Sys2Proof.Machine

/-! ## Time and the environment -/

/-- `SCK` is high between `PinWrite(SCK, 1)` and `PinWrite(SCK, 0)` of a pulse of `Read`, with interruption masked:
the interval R15 bounds. -/
def State.inMaskedPulse (s : State) : Bool := !s.ie && s.sck && s.frame != .outside

/-- Of `m` ticks, those that R15 lets pass before the next step of `SEQ`: inside a masked pulse at most `T_HIGH_MAX`
in all (log 5); elsewhere all of them. -/
def State.allowedTicks (s : State) (m : Nat) : Nat :=
  if s.inMaskedPulse then min m (s.cfg.tHighMax - s.pulseTicks) else m

/-- Whether the chip is past its power-down limit after `m` ticks (R41, log 13). -/
def State.trips (s : State) (m : Nat) : Bool := s.sck && decide (0 < m) && decide (pdTimeout ≤ s.highTicks + m)

/-- Whether those ticks break an open frame (R42). -/
def State.breaksFrame (s : State) (m : Nat) : Bool := s.trips m && s.frame != .outside

/-- `m` steps of `TICK` (R13, R15): every counter advances (R30), `SLP` counts down to 0 (R46), and the chip counts
the ticks of clock-high (R41, R42). -/
def elapse (m : Nat) (s : State) : State :=
  { s with
    ctrs := s.ctrs.map fun c => addMod s.cfg.cw c m
    slp := BitVec.ofNat 42 (s.slp.toNat - m)
    highTicks := if s.sck then s.highTicks + m else s.highTicks
    chipPd := s.chipPd || s.trips m
    garbageNext := s.garbageNext || s.breaksFrame m
    chipSel := if s.breaksFrame m then .unknown else s.chipSel
    frame := if s.breaksFrame m then .broken else s.frame
    pulseTicks := if s.inMaskedPulse then s.pulseTicks + m else s.pulseTicks }

/-- One step of `TICK`, as the rules state it: R30 for the counters, R46 for `SLP`, R41 and R42 for the chip. `elapse`
is this step repeated. -/
def tick (s : State) : State :=
  let high := if s.sck then s.highTicks + 1 else s.highTicks
  let limit := s.sck && decide (pdTimeout ≤ high)
  let breaks := limit && s.frame != .outside
  { s with
    ctrs := s.ctrs.map fun c => addMod s.cfg.cw c 1
    slp := if s.slp = 0 then 0 else s.slp - 1
    highTicks := high
    chipPd := s.chipPd || limit
    garbageNext := s.garbageNext || breaks
    chipSel := if breaks then .unknown else s.chipSel
    frame := if breaks then .broken else s.frame
    pulseTicks := if s.inMaskedPulse then s.pulseTicks + 1 else s.pulseTicks }

/-- `chip_drive(v)` (R14, R37). -/
def chipDrive (v : Bool) (s : State) : State := { s with dout := v }

/-- The environment's `k`-th choice from here on: from the queue of the state, then free (log 4). -/
def State.drawAt (s : State) (k : Nat) : Draw :=
  match s.draws[k]? with
  | some d => d
  | none => Config.freeDraw (s.drawCount + (k - s.draws.length))

/-- The choice taken. -/
def dropDraw (s : State) : State :=
  { s with
    draws := s.draws.tail
    drawCount := match s.draws with
      | [] => s.drawCount + 1
      | _ :: _ => s.drawCount }

/-- What happens before a step of `SEQ`: the ticks the environment chooses pass, and `CHIP` drives `DOUT` (R14). -/
def passTime (s : State) : State :=
  chipDrive (s.drawAt 0).dout (elapse (s.allowedTicks (s.drawAt 0).ticks) (dropDraw s))

/-! ## The pins and the counter (R12) -/

/-- Whether `PinWrite(SCK, v)` makes a rising edge outside every frame (R40, R42). -/
def State.strayRise (s : State) (v : Bool) : Bool := v && !s.sck && s.frame == .outside

/-- `PinWrite(SCK, v)`: the latch (R36), the chip's clock-high count and its power-down (R41), and the distrust a rising
edge outside a frame brings (R40, R42). -/
def pinWrite (v : Bool) (s : State) : State :=
  { s with
    sck := v
    highTicks := if v && !s.sck then 0 else s.highTicks
    chipPd := v && s.chipPd
    garbageNext := s.garbageNext || s.strayRise v
    chipSel := if s.strayRise v then .unknown else s.chipSel
    pulseTicks := if v then 0 else s.pulseTicks
    wire := if v && !s.sck then .rise :: s.wire else if !v && s.sck then .fall :: s.wire else s.wire }

/-- The record of a `PinRead(DOUT)` by a shift-in; the read itself has no effect (R57). -/
def noteSample (s : State) : State := { s with wire := .sampled s.dout :: s.wire }

/-- The record of a `PinRead(DOUT)` by a readiness check; the read itself has no effect (R57). -/
def noteCheck (s : State) : State := { s with wire := .checked s.dout :: s.wire }

/-- `CntRead()`: the bound counter (R12, R30). -/
def State.cntRead (s : State) : Nat := s.ctrs.getD s.csel 0

/-- `NowMs()` (R92). -/
def State.nowMs (s : State) : Nat := millis s.cntRead

/-! ## Frames, as the chip sees them (R40, R42, log 12) -/

/-- The first rising edge of a `Read` frame is about to be made. -/
def openFrame (s : State) : State := { s with frame := .whole }

/-- A `ShiftIn` begins: with `SCK` high its first rising edge is lost and nothing the chip sends can be trusted (R42). -/
def beginShift (s : State) : State :=
  { s with
    garbageNext := s.garbageNext || s.sck
    chipSel := if s.sck then .unknown else s.chipSel
    frame := if s.sck && s.frame == .whole then .broken else s.frame }

/-- A `Read` ends: a frame kept whole arms the chip's next selection and clears the distrust (R40, R42). -/
def closeFrame (s : State) : State :=
  { s with
    chipSel := if s.frame = .whole then .armed s.sel else s.chipSel
    garbageNext := s.garbageNext && s.frame != .whole
    frame := .outside }

/-! ## The course of a command -/

/-- `SEQ <- Run(cmd, pos)`. -/
def goto (cmd : Instr) (pos : Pos) (s : State) : State := { s with seq := .run cmd pos }

/-- `host_issue(cmd)` (R14): the command is latched, `BUSY <- 1`, `FAULT <- 0` (R29), `SEQ` at its first step. -/
def hostIssue (cmd : Instr) (s : State) : State :=
  { s with status := statusWord 0 true, seq := .run cmd .act }

/-- `return`: the command ends, `RES` unchanged (R12). -/
def finish (s : State) : State := { s with status := statusWord 0 false, seq := .idle }

/-- `return v` (R12, R22). -/
def returnValue (v : Nat) (s : State) : State := { s with status := statusWord 0 false, seq := .idle, res := v }

/-- `raise f`: the command ends with the fault's code in `STATUS.FAULT`, and nothing else changes (R12, R130). There is
no vector, no saved state and no mode change (R135), and nothing to return from (R136). -/
def raise (f : FaultCode) (s : State) : State := { s with status := statusWord f.code false, seq := .idle }

/-- `ClockCheck`, then the rest of the command's entry (R85). -/
def clockCheck (rest : State → State) (s : State) : State := if s.bound then rest s else raise .clockUnbound s

/-- The test of an operand value (R77), then the rest of the command's entry. -/
def argumentCheck (legal : Bool) (rest : State → State) (s : State) : State :=
  if legal then rest s else raise .invalidArgument s

/-! ## Registers by number, and what `HOST` reads -/

/-- `x[n]` as a value (R38): the registers by number, signed ones as their patterns. -/
def State.register (s : State) (n : Nat) : Option Nat :=
  match n with
  | 0 => some s.status.toNat
  | 1 => some s.res
  | 2 => some s.cntRead
  | 3 => some (2 * s.csel + s.bound.toNat)
  | 4 => some (selectorCode s.sel).toNat
  | 5 => some s.offset.toNat
  | 6 => some s.scale
  | 7 => some (s.sck.toNat + 2 * s.dout.toNat + 4 * s.ie.toNat)
  | 8 => some s.shr.toNat
  | 9 => some s.byt.toNat
  | 10 => some s.acc.toNat
  | 11 => some s.t0
  | 12 => some s.ts
  | 13 => some s.ctr.toNat
  | 14 => some s.slp.toNat
  | _ => none

/-- What `HOST` reads directly: `STATUS` and `RES` (R38, R143, log 17). -/
def State.hostView (s : State) : BitVec 5 × Nat := (s.status, s.res)

end Sys2Proof.Machine
end

