-- ==== Sys2Proof/Machine/Sequencer.lean ====
section
/-!
DEFINITION. The sequencer: the shared procedures as step functions over their positions (40_clock.md R86, R87,
41_shift.md R93, R94, 42_reader.md R99, R103, 43_calibration.md R113), and the run of one command over them (00_scope.md
R14). A function `…Step` performs ONE atomic step of `SEQ` and the computing lines that follow it (R12), and says where
the procedure stands then.
-/

namespace Sys2Proof.Machine

/-- Where a procedure stands after one of its steps. -/
inductive ProcOut (π : Type) where
  /-- Its next step. -/
  | at_ (p : π)
  /-- Its next step; the test it waits on has just failed. -/
  | waiting (p : π)
  /-- It has ended. -/
  | done
deriving DecidableEq, Repr

/-- A procedure called inside another: its positions are positions of the caller, and after it the caller stands at
`after`. -/
def ProcOut.within {π ρ : Type} (r : ProcOut π) (inside : π → ρ) (after : ProcOut ρ) : ProcOut ρ :=
  match r with
  | .at_ p => .at_ (inside p)
  | .waiting p => .waiting (inside p)
  | .done => after

/-! ## The procedures -/

/-- `Delay(n)`, the busy-wait (R86). -/
def delayStep (n : Nat) (d : DelayPos) (s : State) : State × ProcOut DelayPos :=
  match d with
  | .latch => ({ s with t0 := s.cntRead }, .at_ .poll)
  | .poll =>
    if delayThreshold s.cfg n ≤ subMod s.cfg.cw s.cntRead s.t0 then (s, .done) else (s, .waiting .poll)

/-- `Sleep(d)`, `d` in milliseconds (R87). -/
def sleepStep (d : Word) (p : SleepPos) (s : State) : State × ProcOut SleepPos :=
  match p with
  | .load => ({ s with slp := BitVec.ofNat 42 (1000 * d.toNat) }, .at_ .poll)
  | .poll => if s.slp = 0 then (s, .done) else (s, .waiting .poll)

/-- `WaitReady(d)` (R99): the check comes before the sleep. -/
def waitReadyStep (d : Word) (w : WaitPos) (s : State) : State × ProcOut WaitPos :=
  match w with
  | .check => (noteCheck s, if s.ready then .done else .waiting (.sleep .load))
  | .sleep p =>
    let (s', r) := sleepStep d p s
    (s', r.within .sleep (.at_ .check))

/-- `ShiftIn(order)` (R94). Its result is `BYT` when it has ended; the caller clears `BYT` before its first step. -/
def shiftInStep (order : BitOrder) (p : ShiftPos) (s : State) : State × ProcOut ShiftPos :=
  match p.at_ with
  | .high => (pinWrite true (if p.bit = 0 then beginShift s else s), .at_ ⟨p.bit, .settle .latch⟩)
  | .settle d =>
    let (s', r) := delayStep 1 d s
    (s', r.within (fun d => ⟨p.bit, .settle d⟩) (.at_ ⟨p.bit, .sample⟩))
  | .sample => ({ noteSample s with byt := assembleBit order p.bit s.dout s.byt }, .at_ ⟨p.bit, .low⟩)
  | .low => (pinWrite false s, .at_ ⟨p.bit, .hold .latch⟩)
  | .hold d =>
    let (s', r) := delayStep 1 d s
    (s', r.within (fun d => ⟨p.bit, .hold d⟩) (if p.bit = 7 then .done else .at_ ⟨p.bit + 1, .high⟩))

/-- `Pulse()` (R93). -/
def pulseStep (p : PulsePos) (s : State) : State × ProcOut PulsePos :=
  match p with
  | .high => (pinWrite true s, .at_ (.highDelay .latch))
  | .highDelay d =>
    let (s', r) := delayStep 1 d s
    (s', r.within .highDelay (.at_ .low))
  | .low => (pinWrite false s, .at_ (.lowDelay .latch))
  | .lowDelay d =>
    let (s', r) := delayStep 1 d s
    (s', r.within .lowDelay .done)

/-- The first step of a shift-in. -/
def shiftStart : ShiftPos := ⟨0, .high⟩

/-- The first step of `Read`: the first check of its wait. -/
def readStart : ReadPos := .wait .check

/-- `Read()` (R103). Its sample is `sext_XW(SHR)` when it has ended. -/
def readStep (r : ReadPos) (s : State) : State × ProcOut ReadPos :=
  match r with
  | .wait w =>
    let (s', o) := waitReadyStep s.cfg.readPollDelay w s
    (s', o.within .wait (.at_ .mask))
  | .mask => ({ s with ie := false, byt := 0, sampleSel := s.chipSel }, .at_ (.byte 0 shiftStart))
  | .byte j p =>
    match shiftInStep .msbFirst p (if j = 0 ∧ p = shiftStart then openFrame s else s) with
    | (s', .done) =>
      if j = 2 then ({ s' with shr := storeByte j s'.byt s'.shr }, .at_ (.pulse 1 (pulses s'.sel) .high))
      else ({ s' with shr := storeByte j s'.byt s'.shr, byt := 0 }, .at_ (.byte (j + 1) shiftStart))
    | (s', o) => (s', o.within (.byte j) .done)
  | .pulse k count p =>
    let (s', o) := pulseStep p s
    (s', o.within (.pulse k count) (if k < count then .at_ (.pulse (k + 1) count .high) else .at_ .unmask))
  | .unmask => (closeFrame { s with ie := true }, .done)

/-! ## The steps of a command -/

/-- Whether the sequencer goes on, or has just failed the test it waits on. -/
inductive Progress where
  | moves
  | waits
deriving DecidableEq, Repr

/-- The steps of one command: what `seq_step` does at each position of it (R14). -/
abbrev CommandSteps := Pos → State → State × Progress

/-- A position that is no point of the command has no step. -/
def noStep (s : State) : State × Progress := (s, .waits)

/-- A procedure called by the command `cmd`: `SEQ` follows it, and at its end `after` is performed with its last step. -/
def calling {π : Type} (cmd : Instr) (inside : π → Pos) (after : State → State) (r : State × ProcOut π) :
    State × Progress :=
  match r.2 with
  | .at_ p => (goto cmd (inside p) r.1, .moves)
  | .waiting p => (goto cmd (inside p) r.1, .waits)
  | .done => (after r.1, .moves)

/-- A command of one atomic step `f`. -/
def oneStep (f : State → State) : CommandSteps
  | .act, s => (f s, .moves)
  | _, s => noStep s

/-- The start of `Average(n)`: `ACC <- 0 ; CTR <- n`, and the first read (R113). -/
def averageStart (cmd : Instr) (n : Word) (s : State) : State :=
  goto cmd (.read readStart) { s with acc := 0, ctr := n }

/-- `Average(n)` (R113), `n ≥ 1`: after each read the sum, the count and the loop test; `after` is performed with the last
step of the last read. -/
def averageSteps (cmd : Instr) (after : State → State) : CommandSteps
  | .read r, s =>
    calling cmd .read
      (fun s' =>
        let s'' := { s' with acc := accumulate s'.cfg s'.acc (sampleOf s'.cfg s'.shr), ctr := s'.ctr - 1 }
        if s''.ctr = 0 then after s'' else goto cmd (.read readStart) s'')
      (readStep r s)
  | _, s => noStep s

/-! ## The run of a command -/

/-- Whether a position is a point of the pseudocode of a command (R27). -/
def posOf : Instr → Pos → Bool
  | .clkInit _, .act => true
  | .delayUs _, .delay _ => true
  | .nowUs, .act => true
  | .nowMs, .act => true
  | .shiftIn _, .shift _ => true
  | .configure _, .act => true
  | .configure _, .read _ => true
  | .isReady, .act => true
  | .waitReady _, .wait _ => true
  | .waitReadyRetry _ _, .wait _ => true
  | .waitReadyTimeout _ _, .act => true
  | .waitReadyTimeout _ _, .timeTest => true
  | .waitReadyTimeout _ _, .wait _ => true
  | .read, .read _ => true
  | .powerDown, .act => true
  | .powerUp, .act => true
  | .readAverage _, .read _ => true
  | .getValue _, .read _ => true
  | .getUnits _, .read _ => true
  | .tare _, .read _ => true
  | .setScale _ _, .act => true
  | .setOffset _, .act => true
  | _, _ => false

/-- How many steps of `SEQ` one step of the model performs at most: 200, which is more than a whole frame takes, for
each read the command makes. A command that needs more goes on in the next step of the model (log 3). -/
def stepBudget : Instr → Nat
  | .readAverage n => 200 * n.toNat
  | .getValue n => 200 * n.toNat
  | .getUnits n => 200 * n.toNat
  | .tare n => 200 * n.toNat
  | _ => 200

/-- Steps of `SEQ` (R14), each after the time the environment lets pass, until the command ends, the test it waits on
fails, or `fuel` steps are done. -/
def runSteps (steps : CommandSteps) : Nat → State → State
  | 0, s => s
  | fuel + 1, s =>
    match s.seq with
    | .idle => s
    | .run _ pos =>
      match steps pos (passTime s) with
      | (s', .moves) => runSteps steps fuel s'
      | (s', .waits) => s'

/-- One step of the model for the command `cmd`. On an idle block the command is issued (R14): `entry` performs its tests
and the computing lines before its first atomic step (R12, log 6), and the steps follow. On a block that runs this
command already, its steps go on. On one that runs another command `host_issue` is not enabled (R14, R158). -/
def runCommand (cmd : Instr) (entry : State → State) (steps : CommandSteps) (s : State) :
    Host.Outcome State Fault Refusal :=
  if s.busy then
    match s.seq with
    | .run latched pos =>
      if latched = cmd then
        if posOf cmd pos then .next (runSteps steps (stepBudget cmd) s) else .fault .sequencerLost
      else .refused .secondCaller
    | .idle => .fault .sequencerLost
  else .next (runSteps steps (stepBudget cmd) (entry (hostIssue cmd s)))

end Sys2Proof.Machine
end

