-- ==== Sys2Proof/Machine/Calibration.lean ====
section
/-!
DEFINITION. The calibration commands (43_calibration.md R115 to R125). Of each command: its entry (tests, in the order
of R131, and the computing lines before its first atomic step), its steps, and its meaning.
-/

namespace Sys2Proof.Machine

/-! ## `READ_AVERAGE` (R115) -/

/-- The result of `Average(n)` from the sum in `ACC` (R113). -/
def State.average (s : State) (n : Word) : Nat := mean s.cfg s.acc n

def readAverageEntry (n : Word) (s : State) : State :=
  argumentCheck (n != 0) (clockCheck (averageStart (.readAverage n) n)) s

def readAverageSteps (n : Word) : CommandSteps :=
  averageSteps (.readAverage n) fun s => returnValue (sampleResult s.cfg (s.average n)) s

/-- `READ_AVERAGE` (R115). -/
def execReadAverage (n : Word) (s : State) : Host.Outcome State Fault Refusal :=
  runCommand (.readAverage n) (readAverageEntry n) (readAverageSteps n) s

/-! ## `GET_VALUE` (R117) -/

/-- The result of `GetValue(n)` (R117): the average and `OFFSET`, each converted to `F`, and their difference in `F`. `OFFSET`
is read with the last step of the last read (log 20). -/
def State.value (s : State) (n : Word) : Nat :=
  floatSub s.cfg.fmt (floatOfInt s.cfg.fmt (signedValue s.cfg.xw (s.average n))) (floatOfInt s.cfg.fmt s.offset.toInt)

def getValueEntry (n : Word) (s : State) : State :=
  argumentCheck (n != 0) (clockCheck (averageStart (.getValue n) n)) s

def getValueSteps (n : Word) : CommandSteps := averageSteps (.getValue n) fun s => returnValue (s.value n) s

/-- `GET_VALUE` (R117). -/
def execGetValue (n : Word) (s : State) : Host.Outcome State Fault Refusal :=
  runCommand (.getValue n) (getValueEntry n) (getValueSteps n) s

/-! ## `GET_UNITS` (R118) -/

/-- The test of `SCALE` on entry (R118), then the rest of the entry. -/
def scaleCheck (rest : State → State) (s : State) : State :=
  if floatIsZero s.cfg.fmt s.scale then raise .invalidState s else rest s

def getUnitsEntry (n : Word) (s : State) : State :=
  argumentCheck (n != 0) (clockCheck (scaleCheck (averageStart (.getUnits n) n))) s

def getUnitsSteps (n : Word) : CommandSteps :=
  averageSteps (.getUnits n) fun s => returnValue (floatDiv s.cfg.fmt (s.value n) s.scale) s

/-- `GET_UNITS` (R118). -/
def execGetUnits (n : Word) (s : State) : Host.Outcome State Fault Refusal :=
  runCommand (.getUnits n) (getUnitsEntry n) (getUnitsSteps n) s

/-! ## `TARE` (R121): `OFFSET` is written once -/

def tareEntry (n : Word) (s : State) : State :=
  argumentCheck (n != 0) (clockCheck (averageStart (.tare n) n)) s

/-- `OFFSET` is written with the last step of the last read, `IE <- 1`: that its line takes no step of its own is the
model's choice (log 20). -/
def tareSteps (n : Word) : CommandSteps :=
  averageSteps (.tare n) fun s => finish { s with offset := offsetOfMean (s.average n) }

/-- `TARE` (R121). -/
def execTare (n : Word) (s : State) : Host.Outcome State Fault Refusal :=
  runCommand (.tare n) (tareEntry n) (tareSteps n) s

/-! ## The accessors (R122 to R125): no test, no clock, no pin -/

def setScaleEntry (s : State) : State := s

/-- Any bit pattern is stored (R122). -/
def setScaleSteps (low high : Word) : CommandSteps :=
  oneStep fun s => finish { s with scale := scaleOperand s.cfg low high }

/-- `SET_SCALE` (R122). -/
def execSetScale (low high : Word) (s : State) : Host.Outcome State Fault Refusal :=
  runCommand (.setScale low high) setScaleEntry (setScaleSteps low high) s

/-- `GET_SCALE` has no atomic step of its own: it ends with its issue (R12, log 6). -/
def getScaleEntry (s : State) : State := returnValue s.scale s

def getScaleSteps : CommandSteps := fun _ s => noStep s

/-- `GET_SCALE` (R123). -/
def execGetScale (s : State) : Host.Outcome State Fault Refusal := runCommand .getScale getScaleEntry getScaleSteps s

def setOffsetEntry (s : State) : State := s

/-- Any value is stored (R124). -/
def setOffsetSteps (value : Word) : CommandSteps := oneStep fun s => finish { s with offset := value }

/-- `SET_OFFSET` (R124). -/
def execSetOffset (value : Word) (s : State) : Host.Outcome State Fault Refusal :=
  runCommand (.setOffset value) setOffsetEntry (setOffsetSteps value) s

/-- `GET_OFFSET` has no atomic step of its own: it ends with its issue (R12, log 6). -/
def getOffsetEntry (s : State) : State := returnValue (offsetResult s.cfg s.offset) s

def getOffsetSteps : CommandSteps := fun _ s => noStep s

/-- `GET_OFFSET` (R125). -/
def execGetOffset (s : State) : Host.Outcome State Fault Refusal :=
  runCommand .getOffset getOffsetEntry getOffsetSteps s

end Sys2Proof.Machine
end

