-- ==== Sys2Proof/Machine/Channel.lean ====
section
/-!
DEFINITION. The command of the Serial Bit Channel (41_shift.md R94): its entry, its steps and its meaning.
-/

namespace Sys2Proof.Machine

def shiftInEntry (bitOrder : Word) (s : State) : State :=
  argumentCheck (bitOrderOf bitOrder).isSome
    (clockCheck fun s => goto (.shiftIn bitOrder) (.shift shiftStart) { s with byt := 0 }) s

/-- `ShiftIn(A)`, its byte returned (R94). An illegal order has no steps: the entry has refused it. -/
def shiftInSteps (bitOrder : Word) : CommandSteps
  | .shift p, s =>
    match bitOrderOf bitOrder with
    | some order =>
      calling (.shiftIn bitOrder) .shift (fun s' => returnValue s'.byt.toNat s') (shiftInStep order p s)
    | none => noStep s
  | _, s => noStep s

/-- `SHIFT_IN` (R94). Interruption is not masked (R96). -/
def execShiftIn (bitOrder : Word) (s : State) : Host.Outcome State Fault Refusal :=
  runCommand (.shiftIn bitOrder) (shiftInEntry bitOrder) (shiftInSteps bitOrder) s

end Sys2Proof.Machine
end

