-- ==== Sys2Proof/Machine/Clock.lean ====
section
/-!
DEFINITION. The commands of the Microsecond Clock (40_clock.md R88 to R91). Of each command: its entry (tests, in the
order of R131, and the computing lines before its first atomic step), its steps, and its meaning.
-/

namespace Sys2Proof.Machine

/-! ## `CLK_INIT` (R88): binds a counter; writes no counter -/

def clkInitEntry (counter : Word) (s : State) : State :=
  argumentCheck (decide (counter.toNat < s.cfg.nctr)) id s

def clkInitSteps (counter : Word) : CommandSteps :=
  oneStep fun s => finish { s with csel := counter.toNat, bound := true }

/-- `CLK_INIT` (R88). -/
def execClkInit (counter : Word) (s : State) : Host.Outcome State Fault Refusal :=
  runCommand (.clkInit counter) (clkInitEntry counter) (clkInitSteps counter) s

/-! ## `DELAY_US` (R89): `Delay(tw(A))` -/

def delayUsEntry (n : Word) (s : State) : State := clockCheck (goto (.delayUs n) (.delay .latch)) s

def delayUsSteps (n : Word) : CommandSteps
  | .delay d, s => calling (.delayUs n) .delay finish (delayStep (counterOperand s.cfg n) d s)
  | _, s => noStep s

/-- `DELAY_US` (R89). -/
def execDelayUs (n : Word) (s : State) : Host.Outcome State Fault Refusal :=
  runCommand (.delayUs n) (delayUsEntry n) (delayUsSteps n) s

/-! ## `NOW_US` (R90): the raw value of the bound counter -/

def nowUsEntry (s : State) : State := clockCheck id s

def nowUsSteps : CommandSteps := oneStep fun s => returnValue s.cntRead s

/-- `NOW_US` (R90). -/
def execNowUs (s : State) : Host.Outcome State Fault Refusal := runCommand .nowUs nowUsEntry nowUsSteps s

/-! ## `NOW_MS` (R91): its millisecond view -/

def nowMsEntry (s : State) : State := clockCheck id s

def nowMsSteps : CommandSteps := oneStep fun s => returnValue s.nowMs s

/-- `NOW_MS` (R91). -/
def execNowMs (s : State) : Host.Outcome State Fault Refusal := runCommand .nowMs nowMsEntry nowMsSteps s

end Sys2Proof.Machine
end

