-- ==== Sys2Proof/Machine/Reader.lean ====
section
/-!
DEFINITION. The commands of the reader (42_reader.md R98 to R108). Of each command: its entry (tests, in the order of
R131, and the computing lines before its first atomic step), its steps, and its meaning.
-/

namespace Sys2Proof.Machine

/-! ## `CONFIGURE`, also spelt `SET_GAIN` (R106, R80) -/

/-- `SEL <- sel_of(A)` (R70, R106), performed with the issue of `CONFIGURE`: that this line takes no step of its own is the
model's choice (log 20). -/
def selectGain (gain : Word) (s : State) : State := { s with sel := (selectorOfGain gain).getD s.sel }

def configureEntry (gain : Word) (s : State) : State :=
  argumentCheck (selectorOfGain gain).isSome (clockCheck (selectGain gain)) s

/-- `PinWrite(SCK, 0)`, then a `Read` whose result is dropped (R106). -/
def configureSteps (gain : Word) : CommandSteps
  | .act, s => (goto (.configure gain) (.read readStart) (pinWrite false s), .moves)
  | .read r, s => calling (.configure gain) .read finish (readStep r s)
  | _, s => noStep s

/-- `CONFIGURE` (R106). -/
def execConfigure (gain : Word) (s : State) : Host.Outcome State Fault Refusal :=
  runCommand (.configure gain) (configureEntry gain) (configureSteps gain) s

/-! ## `IS_READY` (R98): 1 iff the data line reads low -/

def isReadyEntry (s : State) : State := s

def isReadySteps : CommandSteps := oneStep fun s => returnValue (boolResult s.ready) (noteCheck s)

/-- `IS_READY` (R98). -/
def execIsReady (s : State) : Host.Outcome State Fault Refusal := runCommand .isReady isReadyEntry isReadySteps s

/-! ## `WAIT_READY` (R100): `WaitReady(A)`; it needs no clock (R85) -/

def waitReadyEntry (pollDelay : Word) (s : State) : State := goto (.waitReady pollDelay) (.wait .check) s

def waitReadySteps (pollDelay : Word) : CommandSteps
  | .wait w, s => calling (.waitReady pollDelay) .wait finish (waitReadyStep pollDelay w s)
  | _, s => noStep s

/-- `WAIT_READY` (R100). -/
def execWaitReady (pollDelay : Word) (s : State) : Host.Outcome State Fault Refusal :=
  runCommand (.waitReady pollDelay) (waitReadyEntry pollDelay) (waitReadySteps pollDelay) s

/-! ## `WAIT_READY_RETRY` (R101); it needs no clock (R85) -/

/-- The loop test: a check while `CTR < A`, else the result 0 (R101). -/
def retryTest (maxAttempts pollDelay : Word) (s : State) : State :=
  if s.ctr.toNat < maxAttempts.toNat then goto (.waitReadyRetry maxAttempts pollDelay) (.wait .check) s
  else returnValue (boolResult false) s

def waitReadyRetryEntry (maxAttempts pollDelay : Word) (s : State) : State :=
  retryTest maxAttempts pollDelay { s with ctr := 0 }

/-- A sleep follows every check that fails, the last included (R101). -/
def waitReadyRetrySteps (maxAttempts pollDelay : Word) : CommandSteps
  | .wait .check, s =>
    if s.ready then (returnValue (boolResult true) (noteCheck s), .moves)
    else (goto (.waitReadyRetry maxAttempts pollDelay) (.wait (.sleep .load)) (noteCheck s), .waits)
  | .wait (.sleep p), s =>
    calling (.waitReadyRetry maxAttempts pollDelay) (fun p => .wait (.sleep p))
      (fun s' => retryTest maxAttempts pollDelay { s' with ctr := s'.ctr + 1 }) (sleepStep pollDelay p s)
  | _, s => noStep s

/-- `WAIT_READY_RETRY` (R101). -/
def execWaitReadyRetry (maxAttempts pollDelay : Word) (s : State) : Host.Outcome State Fault Refusal :=
  runCommand (.waitReadyRetry maxAttempts pollDelay) (waitReadyRetryEntry maxAttempts pollDelay)
    (waitReadyRetrySteps maxAttempts pollDelay) s

/-! ## `WAIT_READY_TIMEOUT` (R102) -/

/-- The elapsed-time test: `(NowMs() ⊖ TS) < tw(A)` (R102). -/
def State.beforeTimeout (s : State) (timeoutMs : Word) : Bool :=
  decide (subMod s.cfg.cw s.nowMs s.ts < counterOperand s.cfg timeoutMs)

def waitReadyTimeoutEntry (s : State) : State := clockCheck id s

/-- The time test precedes each check (R102). -/
def waitReadyTimeoutSteps (timeoutMs pollDelay : Word) : CommandSteps
  | .act, s => (goto (.waitReadyTimeout timeoutMs pollDelay) .timeTest { s with ts := s.nowMs }, .moves)
  | .timeTest, s =>
    if s.beforeTimeout timeoutMs then (goto (.waitReadyTimeout timeoutMs pollDelay) (.wait .check) s, .moves)
    else (returnValue (boolResult false) s, .moves)
  | .wait .check, s =>
    if s.ready then (returnValue (boolResult true) (noteCheck s), .moves)
    else (goto (.waitReadyTimeout timeoutMs pollDelay) (.wait (.sleep .load)) (noteCheck s), .waits)
  | .wait (.sleep p), s =>
    calling (.waitReadyTimeout timeoutMs pollDelay) (fun p => .wait (.sleep p))
      (goto (.waitReadyTimeout timeoutMs pollDelay) .timeTest) (sleepStep pollDelay p s)
  | _, s => noStep s

/-- `WAIT_READY_TIMEOUT` (R102). -/
def execWaitReadyTimeout (timeoutMs pollDelay : Word) (s : State) : Host.Outcome State Fault Refusal :=
  runCommand (.waitReadyTimeout timeoutMs pollDelay) waitReadyTimeoutEntry
    (waitReadyTimeoutSteps timeoutMs pollDelay) s

/-! ## `READ` (R104): `Read()`, and its sample returned -/

def readEntry (s : State) : State := clockCheck (goto .read (.read readStart)) s

def readSteps : CommandSteps
  | .read r, s =>
    calling .read .read (fun s' => returnValue (sampleResult s'.cfg (sampleOf s'.cfg s'.shr)) s') (readStep r s)
  | _, s => noStep s

/-- `READ` (R104). -/
def execRead (s : State) : Host.Outcome State Fault Refusal := runCommand .read readEntry readSteps s

/-! ## `POWER_DOWN` (R107) and `POWER_UP` (R108): one pin write each, no wait -/

def powerDownEntry (s : State) : State := s

def powerDownSteps : CommandSteps := oneStep fun s => finish (pinWrite true s)

/-- `POWER_DOWN` (R107). -/
def execPowerDown (s : State) : Host.Outcome State Fault Refusal :=
  runCommand .powerDown powerDownEntry powerDownSteps s

def powerUpEntry (s : State) : State := s

def powerUpSteps : CommandSteps := oneStep fun s => finish (pinWrite false s)

/-- `POWER_UP` (R108). -/
def execPowerUp (s : State) : Host.Outcome State Fault Refusal := runCommand .powerUp powerUpEntry powerUpSteps s

end Sys2Proof.Machine
end

