-- ==== Sys2Proof/Machine/Dispatch.lean ====
section
/-!
DEFINITION. The meaning of each command, one arm per constructor of `Instr`.
-/

namespace Sys2Proof.Machine

def exec (i : Instr) (s : State) : Host.Outcome State Fault Refusal :=
  match i with
  | .clkInit counter => Sys2Proof.Machine.execClkInit counter s
  | .delayUs n => Sys2Proof.Machine.execDelayUs n s
  | .nowUs => Sys2Proof.Machine.execNowUs s
  | .nowMs => Sys2Proof.Machine.execNowMs s
  | .shiftIn bitOrder => Sys2Proof.Machine.execShiftIn bitOrder s
  | .configure gain => Sys2Proof.Machine.execConfigure gain s
  | .isReady => Sys2Proof.Machine.execIsReady s
  | .waitReady pollDelay => Sys2Proof.Machine.execWaitReady pollDelay s
  | .waitReadyRetry maxAttempts pollDelay => Sys2Proof.Machine.execWaitReadyRetry maxAttempts pollDelay s
  | .waitReadyTimeout timeoutMs pollDelay => Sys2Proof.Machine.execWaitReadyTimeout timeoutMs pollDelay s
  | .read => Sys2Proof.Machine.execRead s
  | .powerDown => Sys2Proof.Machine.execPowerDown s
  | .powerUp => Sys2Proof.Machine.execPowerUp s
  | .readAverage n => Sys2Proof.Machine.execReadAverage n s
  | .getValue n => Sys2Proof.Machine.execGetValue n s
  | .getUnits n => Sys2Proof.Machine.execGetUnits n s
  | .tare n => Sys2Proof.Machine.execTare n s
  | .setScale low high => Sys2Proof.Machine.execSetScale low high s
  | .getScale => Sys2Proof.Machine.execGetScale s
  | .setOffset value => Sys2Proof.Machine.execSetOffset value s
  | .getOffset => Sys2Proof.Machine.execGetOffset s

end Sys2Proof.Machine
end

