-- ==== Sys2Proof/Machine/Port.lean ====
section
/-!
DEFINITION. What `step` does around a command: the queue of commands `HOST` issues (00_scope.md R14, R16; 60_exceptions.md
R143), and a word that is no command (30_encoding.md R76).
-/

namespace Sys2Proof.Machine

/-- `HOST` has taken a command from its queue, of which `rest` remains. -/
def takeCommand (rest : List CmdWord) (s : State) : State := { s with program := rest }

/-- A word whose opcode is not in the map: the command ends at once with `raise InvalidCommand` (R76). -/
def invalidCommand (s : State) : State := raise .invalidCommand s

/-- The command word of `nbits` bits `w`; the bits above are 0. -/
def commandOfTable (nbits w : Nat) : CmdWord := BitVec.ofNat 72 (w % 2 ^ nbits)

/-- `STATUS` with `BUSY` clear, `FAULT` as it was. -/
def idleStatus (status : BitVec 5) : BitVec 5 := status &&& 0b11110

end Sys2Proof.Machine
end

