-- ==== Sys2Proof/Machine/Step.lean ====
section
/-!
DEFINITION. One step of the machine, and where it takes its next command from.
-/

namespace Sys2Proof.Machine

/-- One step: a command in progress goes on; else `HOST` issues its next command, a word that is no command ending at
once with `InvalidCommand` (R76); else, with no command left, time passes (R14, R147, log 7). -/
def step (s : State) : Host.Outcome State Fault Refusal :=
  if s.busy then
    match s.seq with
    | .run cmd _ => exec cmd s
    | .idle => .fault .sequencerLost
  else
    match s.program with
    | [] => .next (passTime s)
    | w :: rest =>
      match decode w with
      | .ok i => exec i (takeCommand rest s)
      | .error _ => .next (invalidCommand (takeCommand rest s))

/-- `s` with the table's word as `HOST`'s next command, and the block idle so that the next step issues it. The rest of
the queue stands. -/
def State.withFetchWord (s : State) (nbits w : Nat) : State :=
  { s with
    program := commandOfTable nbits w :: s.program
    seq := .idle
    status := idleStatus s.status }

end Sys2Proof.Machine
end

