-- ==== Sys2Proof/Machine/Atomic.lean ====
section
/-!
DEFINITION. The step relation of 00_scope.md R14 as the spec gives it, one atomic step of one agent at a time. `step`
performs many of them at once: each of its steps is a finite run of these (a statement of the package).
-/

namespace Sys2Proof.Machine

/-- The entry of each command: its tests, and the computing lines before its first atomic step. -/
def entryOf : Instr → State → State
  | .clkInit counter => clkInitEntry counter
  | .delayUs n => delayUsEntry n
  | .nowUs => nowUsEntry
  | .nowMs => nowMsEntry
  | .shiftIn bitOrder => shiftInEntry bitOrder
  | .configure gain => configureEntry gain
  | .isReady => isReadyEntry
  | .waitReady pollDelay => waitReadyEntry pollDelay
  | .waitReadyRetry maxAttempts pollDelay => waitReadyRetryEntry maxAttempts pollDelay
  | .waitReadyTimeout _ _ => waitReadyTimeoutEntry
  | .read => readEntry
  | .powerDown => powerDownEntry
  | .powerUp => powerUpEntry
  | .readAverage n => readAverageEntry n
  | .getValue n => getValueEntry n
  | .getUnits n => getUnitsEntry n
  | .tare n => tareEntry n
  | .setScale _ _ => setScaleEntry
  | .getScale => getScaleEntry
  | .setOffset _ => setOffsetEntry
  | .getOffset => getOffsetEntry

/-- The atomic steps of each command. -/
def stepsOf : Instr → CommandSteps
  | .clkInit counter => clkInitSteps counter
  | .delayUs n => delayUsSteps n
  | .nowUs => nowUsSteps
  | .nowMs => nowMsSteps
  | .shiftIn bitOrder => shiftInSteps bitOrder
  | .configure gain => configureSteps gain
  | .isReady => isReadySteps
  | .waitReady pollDelay => waitReadySteps pollDelay
  | .waitReadyRetry maxAttempts pollDelay => waitReadyRetrySteps maxAttempts pollDelay
  | .waitReadyTimeout timeoutMs pollDelay => waitReadyTimeoutSteps timeoutMs pollDelay
  | .read => readSteps
  | .powerDown => powerDownSteps
  | .powerUp => powerUpSteps
  | .readAverage n => readAverageSteps n
  | .getValue n => getValueSteps n
  | .getUnits n => getUnitsSteps n
  | .tare n => tareSteps n
  | .setScale low high => setScaleSteps low high
  | .getScale => getScaleSteps
  | .setOffset value => setOffsetSteps value
  | .getOffset => getOffsetSteps

/-- The steps of the agents (R14). -/
inductive Move where
  | hostIssue (w : CmdWord)
  | seqStep
  | tick
  | chipDrive (v : Bool)
deriving DecidableEq, Repr

/-- One atomic step, where it is enabled (R14). A tick is not enabled when the bound of R15 is used up. -/
def perform (m : Move) (s : State) : Option State :=
  match m with
  | .hostIssue w =>
    if s.busy then none
    else
      match decode w with
      | .ok i => some (entryOf i (hostIssue i s))
      | .error _ => some (invalidCommand s)
  | .seqStep =>
    match s.busy, s.seq with
    | true, .run i pos => some (stepsOf i pos s).1
    | _, _ => none
  | .tick => if s.inMaskedPulse && decide (s.cfg.tHighMax ≤ s.pulseTicks) then none else some (tick s)
  | .chipDrive v => some (chipDrive v s)

/-- Atomic steps in order, each enabled where it is made. -/
def performAll : List Move → State → Option State
  | [], s => some s
  | m :: ms, s => (perform m s).bind (performAll ms)

/-- The block itself: the state without the host's queue and the environment's choices. -/
def State.block (s : State) : State := { s with program := [], draws := [], drawCount := 0 }

end Sys2Proof.Machine
end

