-- ==== Sys2Proof/WellFormed.lean ====
section
/-!
DEFINITION. Which commands have legal operand values (30_encoding.md R77). An ill-formed command still decodes and
still runs: it ends with the fault `InvalidArgument`.
-/

namespace Sys2Proof

/-- The gain codes `CONFIGURE` accepts; all 32 bits are compared (R70). -/
def legalGain (gain : Word) : Bool := gain == 128 || gain == 64 || gain == 32

/-- The operand values R77 calls legal, on a machine of `nctr` counters. -/
def Instr.wellFormed (nctr : Nat) : Instr → Bool
  | .clkInit counter => decide (counter.toNat < nctr)
  | .shiftIn bitOrder => decide (bitOrder.toNat ≤ 1)
  | .configure gain => legalGain gain
  | .readAverage n => n != 0
  | .getValue n => n != 0
  | .getUnits n => n != 0
  | .tare n => n != 0
  | .delayUs _ => true
  | .nowUs => true
  | .nowMs => true
  | .isReady => true
  | .waitReady _ => true
  | .waitReadyRetry _ _ => true
  | .waitReadyTimeout _ _ => true
  | .read => true
  | .powerDown => true
  | .powerUp => true
  | .setScale _ _ => true
  | .getScale => true
  | .setOffset _ => true
  | .getOffset => true

end Sys2Proof
end

