-- ==== Sys2Proof/Safety.lean ====
section
/-!
DEFINITION. What holds of a state in every run: the invariant of the machine, in the terms the statements use.
-/

namespace Sys2Proof.Machine

/-- The commands that test the binding of the clock (40_clock.md R85). -/
def usesClock : Instr → Bool
  | .delayUs _ => true
  | .nowUs => true
  | .nowMs => true
  | .shiftIn _ => true
  | .configure _ => true
  | .waitReadyTimeout _ _ => true
  | .read => true
  | .readAverage _ => true
  | .getValue _ => true
  | .getUnits _ => true
  | .tare _ => true
  | .clkInit _ => false
  | .isReady => false
  | .waitReady _ => false
  | .waitReadyRetry _ _ => false
  | .powerDown => false
  | .powerUp => false
  | .setScale _ _ => false
  | .getScale => false
  | .setOffset _ => false
  | .getOffset => false

/-- The commands that make a `Read` (42_reader.md R103, 43_calibration.md R113). -/
def readsFrames : Instr → Bool
  | .configure _ => true
  | .read => true
  | .readAverage _ => true
  | .getValue _ => true
  | .getUnits _ => true
  | .tare _ => true
  | _ => false

/-- The reads of an averaging command (R113). -/
def averagingCount : Instr → Option Word
  | .readAverage n => some n
  | .getValue n => some n
  | .getUnits n => some n
  | .tare n => some n
  | _ => none

/-- The commands that write `SCK` (R36). -/
def drivesClock : Instr → Bool
  | .shiftIn _ => true
  | .powerDown => true
  | .powerUp => true
  | i => readsFrames i

/-- The commands that end with `return v` (30_encoding.md R66). -/
def returnsValue : Instr → Bool
  | .nowUs => true
  | .nowMs => true
  | .shiftIn _ => true
  | .isReady => true
  | .waitReadyRetry _ _ => true
  | .waitReadyTimeout _ _ => true
  | .read => true
  | .readAverage _ => true
  | .getValue _ => true
  | .getUnits _ => true
  | .getScale => true
  | .getOffset => true
  | _ => false

/-- The commands that call `Delay`, and so write `T0` (R86). -/
def delays : Instr → Bool
  | .delayUs _ => true
  | .shiftIn _ => true
  | i => readsFrames i

/-- The commands that call `Sleep`, and so write `SLP` (R87). -/
def sleeps : Instr → Bool
  | .waitReady _ => true
  | .waitReadyRetry _ _ => true
  | .waitReadyTimeout _ _ => true
  | i => readsFrames i

/-- `SCALE` is no zero, where the command is `GET_UNITS` (R118). -/
def scaleOk (i : Instr) (s : State) : Bool :=
  match i with
  | .getUnits _ => !floatIsZero s.cfg.fmt s.scale
  | _ => true

/-- No test of the command's entry fails in `s` (R77, R85, R118): it is accepted. -/
def accepted (i : Instr) (s : State) : Bool :=
  i.wellFormed s.cfg.nctr && (!usesClock i || s.bound) && scaleOk i s

/-- `SEQ` is between `IE <- 0` and `IE <- 1` of a `Read` (R61, R103). -/
def inCriticalSection : Seq → Bool
  | .run _ (.read (.byte _ _)) => true
  | .run _ (.read (.pulse _ _ _)) => true
  | .run _ (.read .unmask) => true
  | _ => false

/-- The level of `SCK` at a step of a shift-in: high from its rising edge to its falling edge, low elsewhere (R94). At the
first rising edge of a command or of a frame it may be either (R36). -/
def bitLine (first : Bool) : BitPos → Option Bool
  | .high => if first then none else some false
  | .settle _ => some true
  | .sample => some true
  | .low => some true
  | .hold _ => some false

/-- The level of `SCK` at a step of a pulse (R93). -/
def pulseLine : PulsePos → Bool
  | .high => false
  | .highDelay _ => true
  | .low => true
  | .lowDelay _ => false

/-- The level `SCK` has at a position of `SEQ`, where the pseudocode fixes it (R93, R94, R103). -/
def lineAt : Seq → Option Bool
  | .run _ (.shift p) => bitLine (p.bit == 0) p.at_
  | .run _ (.read (.byte j p)) => bitLine (j == 0 && p.bit == 0) p.at_
  | .run _ (.read (.pulse _ _ p)) => some (pulseLine p)
  | .run _ (.read .unmask) => some false
  | _ => none

/-- Every value whose width is a parameter fits it (R8, R22, R24, R25, R30, R34). -/
structure State.WidthsOk (s : State) : Prop where
  counters : s.ctrs.length = s.cfg.nctr
  counterWidth : ∀ c ∈ s.ctrs, c < 2 ^ s.cfg.cw
  t0 : s.t0 < 2 ^ s.cfg.cw
  ts : s.ts < 2 ^ s.cfg.cw
  res : s.res < 2 ^ s.cfg.rw
  scale : s.scale < 2 ^ s.cfg.fw

/-- `STATUS` and `SEQ` tell the same (R27, R29), and a command in progress is one that was accepted. -/
def State.ControlOk (s : State) : Prop :=
  match s.seq with
  | .idle => s.busy = false
  | .run i pos => s.busy = true ∧ s.faultField = 0 ∧ posOf i pos = true ∧ accepted i s = true

/-- The invariant of the machine. -/
structure State.Inv (s : State) : Prop where
  parameters : s.cfg.Valid
  widths : s.WidthsOk
  control : s.ControlOk
  /-- `STATUS.FAULT` is a code of R128. -/
  fault : s.faultField.toNat ≤ 4
  /-- `CSEL` names a counter once it is bound (R31). -/
  bound : s.bound = true → s.csel < s.cfg.nctr
  /-- `IE` is 0 exactly in the critical section (R35, R43). -/
  masked : s.ie = !inCriticalSection s.seq
  /-- A frame is open only there (R42). -/
  frame : s.frame ≠ .outside → inCriticalSection s.seq = true
  /-- `SCK` has the level its position in the pseudocode gives it (R93, R94). -/
  line : ∀ v, lineAt s.seq = some v → s.sck = v
  /-- The bound of R15 on the high part of a masked pulse. -/
  pulse : s.inMaskedPulse = true → s.pulseTicks ≤ s.cfg.tHighMax

/-- The bound that keeps `ACC` from overflowing (R23): the reads done so far, each at most `2^23` in magnitude. -/
def State.AccOk (s : State) : Prop :=
  match s.seq with
  | .run i (.read _) =>
    ∀ n, averagingCount i = some n →
      0 < s.ctr.toNat ∧ s.ctr.toNat ≤ n.toNat ∧
        s.acc.toInt.natAbs ≤ (n.toNat - s.ctr.toNat) * 2 ^ 23
  | _ => True

/-- How many steps of `SEQ` one `Read` takes on a chip that is ready at its first check: the check, `IE <- 0`, seven
steps for each of the 24 bits, six for each trailing pulse, `IE <- 1` (R103). -/
def frameSteps (sel : Selector) : Nat := 171 + 6 * pulses sel

/-- The pin events of one frame, oldest first (R67): a rising edge, a sample and a falling edge for each of the 24 bits,
then the trailing pulses. -/
def frameEvents (bits : Nat → Bool) (trailing : Nat) : List WireEvent :=
  (List.range 24).flatMap (fun p => [.rise, .sampled (bits p), .fall])
    ++ (List.replicate trailing [WireEvent.rise, .fall]).flatten

/-- The pin events of one shift-in, oldest first (R94). -/
def shiftEvents (bits : Nat → Bool) : List WireEvent :=
  (List.range 8).flatMap fun k => [.rise, .sampled (bits k), .fall]

/-! ## What the statements say of two states, and of the environment's choices -/

/-- The block is idle (R27, R29). -/
abbrev State.AtRest (s : State) : Prop := s.busy = false ∧ s.seq = .idle

/-- The command `i` is in progress, at `pos`. -/
abbrev State.Running (s : State) (i : Instr) (pos : Pos) : Prop := s.busy = true ∧ s.seq = .run i pos

/-- Two states agree on the parameters, the host's queue, the result, the registers that outlive a command and the loop
registers. A command that writes one of them is said to lead from `s` to `t` by `Agree { s with … } t`. -/
structure Agree (s t : State) : Prop where
  cfg : t.cfg = s.cfg
  program : t.program = s.program
  res : t.res = s.res
  acc : t.acc = s.acc
  ctr : t.ctr = s.ctr
  ts : t.ts = s.ts
  bound : t.bound = s.bound
  csel : t.csel = s.csel
  sel : t.sel = s.sel
  offset : t.offset = s.offset
  scale : t.scale = s.scale

/-- The chip delivers the word `w` to the frame whose readiness check is at draw `start`: it is ready there, and the
samples of the 24 pulses, which are 7 draws apart, spell `w` from bit 23 down (R28, R51, R67). -/
abbrev State.Delivers (s : State) (start : Nat) (w : SampleWord) : Prop :=
  (s.drawAt start).dout = false ∧ ∀ p < 24, w.getLsbD (23 - p) = (s.drawAt (start + 5 + 7 * p)).dout

/-- The ticks the environment asks for before `n` steps of `SEQ`, from draw `start` on. -/
def State.ticksFrom (s : State) (start n : Nat) : Nat := ((List.range n).map fun j => (s.drawAt (start + j)).ticks).sum

/-- The sum of the first `n` samples. -/
def sampleSum (words : Nat → SampleWord) (n : Nat) : Int := ((List.range n).map fun f => (words f).toInt).sum

/-- What an averaging command makes of the mean of its samples (R115, R117, R118, R121). -/
def averageResult (i : Instr) (mean : Int) (s : State) : State :=
  let value := floatSub s.cfg.fmt (floatOfInt s.cfg.fmt mean) (floatOfInt s.cfg.fmt s.offset.toInt)
  match i with
  | .readAverage _ => { s with res := signedPattern s.cfg.rw mean }
  | .getValue _ => { s with res := value }
  | .getUnits _ => { s with res := floatDiv s.cfg.fmt value s.scale }
  | .tare _ => { s with offset := BitVec.ofInt 32 mean }
  | _ => s

end Sys2Proof.Machine
end

