-- ==== Sys2Proof/Certificates/Slice0/Obligations.lean ====
section
/-!
DEFINITION. The statements about SBR24 for the provers, each with the rules of spec/ it rests on. Draw `k` of a state is
what the environment does before the `k`-th step of `SEQ` from there on (log 4); `passTime` is that, for one step.
-/

section
open Sys2Proof Sys2Proof.Machine

/-! ## Encoding -/

/-- R65, R66: the word of every command, with every operand, decodes to that command; the table's numbering gives the
same. -/
def Obligations.DecodeInvertsEncode : Prop :=
  ∀ i : Instr, decode (encode i) = .ok i ∧ decodeTableWord 72 (encode i).toNat = some i

/-- R65: an operand field a command does not use is ignored. Commands 03, 04, 21, 25 to 27, 35 and 37 use neither; of the
others, all but 23, 24 and 34 use `A` alone. -/
def Obligations.UnusedOperandsIgnored : Prop :=
  (∀ op : Byte, op.toNat ∈ [0x03, 0x04, 0x21, 0x25, 0x26, 0x27, 0x35, 0x37] →
    ∀ a a' b b' : Word, decode (cmdWord op a b) = decode (cmdWord op a' b')) ∧
  (∀ op : Byte, op.toNat ∉ [0x23, 0x24, 0x34] →
    ∀ a b b' : Word, decode (cmdWord op a b) = decode (cmdWord op a b'))

/-- R76: which opcodes are illegal, that there are 235 of them, and what the block does with one. -/
def Obligations.IllegalOpcodes : Prop :=
  let illegal (n : Nat) : Bool := n == 0 || (0x05 ≤ n && n ≤ 0x0F) || (0x11 ≤ n && n ≤ 0x1F) ||
    (0x28 ≤ n && n ≤ 0x2F) || (0x38 ≤ n && n ≤ 0xFF)
  ((List.range 256).filter illegal).length = 235 ∧
  (∀ w : CmdWord, illegal (CmdWord.op w).toNat = false ↔ ∃ i, decode w = .ok i) ∧
  (∀ (s : State) (w : CmdWord) (rest : List CmdWord), s.AtRest → s.program = w :: rest →
    illegal (CmdWord.op w).toNat = true →
      decode w = .error (.invalidCommand (CmdWord.op w)) ∧
      step s = .next { s with program := rest, status := 0b01000 })

/-- R65, R66: words written out from the encoding decode to the commands they stand for. -/
def Obligations.SampleWordsDecode : Prop :=
  decode 0x010000000200000000#72 = .ok (.clkInit 2) ∧
  decode 0x100000000100000000#72 = .ok (.shiftIn 1) ∧
  decode 0x200000004000000000#72 = .ok (.configure 64) ∧
  decode 0x24000000640000000A#72 = .ok (.waitReadyTimeout 100 10) ∧
  decode 0x25DEADBEEF12345678#72 = .ok .read ∧
  decode 0x344000000000000000#72 = .ok (.setScale 0x40000000 0)

/-! ## The step -/

/-- R14, R27: an idle block with a command waiting issues it, and `step` is that command's meaning; a block with a command
in progress goes on with it. -/
def Obligations.StepRunsTheDecodedCommand : Prop :=
  (∀ (s : State) (w : CmdWord) (rest : List CmdWord) (i : Instr), s.busy = false → s.program = w :: rest →
    decode w = .ok i → step s = exec i { s with program := rest }) ∧
  (∀ (s : State) (i : Instr) (pos : Pos), s.Running i pos → step s = exec i s)

/-- R147: an idle block with no command does nothing, however long: its counters and the chip alone go on. -/
def Obligations.IdleBlockDoesNothing : Prop :=
  ∀ (k : Nat) (s : State), s.AtRest → s.program = [] →
    ∃ t, Sys2Proof.core.run k s = .next t ∧ Agree s t ∧ t.AtRest ∧ t.status = s.status ∧ t.shr = s.shr ∧
      t.byt = s.byt ∧ t.t0 = s.t0 ∧ t.ie = s.ie ∧ t.sck = s.sck ∧ t.wire = s.wire

/-- R44: what reset leaves, in every register whose reset value the spec gives. That the host's queue is empty then is the
model's own choice (log 7): the queue is no register of the spec. -/
def Obligations.ResetValues : Prop :=
  ∀ p : Params,
    let s := State.resetWith p
    s.seq = .idle ∧ s.status = 0 ∧ s.bound = false ∧ s.sel = p.selReset ∧ s.offset = p.offsetReset ∧
      s.scale = p.scaleReset ∧ s.ie = true ∧ s.sck = p.sckReset ∧ s.slp = 0 ∧ s.chipSel = .unknown ∧
      s.highTicks = 0 ∧ s.garbageNext = true ∧ s.ctrs.length = p.nctr ∧ s.program = []

/-- The machine's invariant holds after reset, for all parameters R8 allows, the model's own among them. That the values
left unspecified are 0 is the model's choice (log 8). -/
def Obligations.ResetMeetsInvariant : Prop :=
  Config.params.Valid ∧ State.reset.Inv ∧ State.reset.AccOk ∧
    ∀ p : Params, p.Valid → (State.resetWith p).Inv ∧ (State.resetWith p).AccOk

/-- The invariant (`State.Inv`) is kept by every step: widths (R8), `STATUS` and `SEQ` in agreement (R27, R29), a legal
fault code (R128), `CSEL` a counter (R31), `IE` 0 exactly in the critical section (R43), `SCK` as the position says
(R93, R94), the high part of a masked pulse bounded (R15). -/
def Obligations.StepKeepsInvariant : Prop := ∀ s t : State, s.Inv → step s = .next t → t.Inv

/-- R23: the accumulator's bound is kept by every step, so its 64 bits never overflow. -/
def Obligations.StepKeepsAccumulatorBound : Prop :=
  ∀ s t : State, s.Inv → s.AccOk → step s = .next t → t.AccOk

/-- From a state that meets the invariant a step is never a stop: every fault of the spec is a next state (R130, R135). -/
def Obligations.StepAlwaysGoesOn : Prop := ∀ s : State, s.Inv → ∃ t, step s = .next t

/-- R14: every step of the model is a finite run of the spec's atomic steps, each enabled where it is made. -/
def Obligations.StepIsARunOfAtomicSteps : Prop :=
  ∀ s t : State, s.Inv → step s = .next t → ∃ moves, performAll moves s.block = some t.block

/-- R14, R158: a command given to a block that runs another one is no move. -/
def Obligations.SecondCallerRefused : Prop :=
  ∀ (i j : Instr) (pos : Pos) (s : State), s.Running j pos → j ≠ i → exec i s = .refused .secondCaller

/-! ## Time -/

/-- R15: `m` ticks at once are `m` steps of `TICK`. -/
def Obligations.ElapseIsRepeatedTick : Prop :=
  ∀ (m : Nat) (s : State), (∀ c ∈ s.ctrs, c < 2 ^ s.cfg.cw) → tick^[m] s = elapse m s

/-- R14, R30, R37: the time before a step of `SEQ` takes the next draw: its ticks pass, all of them outside a masked pulse
and inside one as many as keep to `T_HIGH_MAX`, and `DOUT` is the level it gives. -/
def Obligations.TimeBeforeAStep : Prop :=
  ∀ s : State, Agree s (passTime s) ∧ (passTime s).status = s.status ∧ (passTime s).seq = s.seq ∧
    (passTime s).sck = s.sck ∧ (passTime s).ie = s.ie ∧ (passTime s).wire = s.wire ∧
    (passTime s).shr = s.shr ∧ (passTime s).byt = s.byt ∧ (passTime s).t0 = s.t0 ∧
    (passTime s).dout = (s.drawAt 0).dout ∧ (∀ k, (passTime s).drawAt k = s.drawAt (k + 1)) ∧
    ∃ m, (passTime s).ctrs = s.ctrs.map (fun c => addMod s.cfg.cw c m) ∧
      (passTime s).slp.toNat = s.slp.toNat - m ∧
      (s.inMaskedPulse = false → m = (s.drawAt 0).ticks) ∧
      (s.inMaskedPulse = true → s.pulseTicks ≤ s.cfg.tHighMax →
        m ≤ (s.drawAt 0).ticks ∧ s.pulseTicks + m ≤ s.cfg.tHighMax)

/-- R30, R46: nothing but time moves a counter: a command is its entry and its steps, with time before each, and neither the
entry nor a step writes one; `SLP` too is left alone by the entry, and by the steps of a command that does not sleep. So all
counters have moved together when a command answers. -/
def Obligations.OnlyTimeMovesCounters : Prop :=
  (∀ (i : Instr) (s : State), exec i s = runCommand i (entryOf i) (stepsOf i) s) ∧
  (∀ (i : Instr) (s : State), (entryOf i (hostIssue i s)).ctrs = s.ctrs ∧ (entryOf i (hostIssue i s)).slp = s.slp) ∧
  (∀ (i : Instr) (p : Pos) (s : State), (stepsOf i p s).1.ctrs = s.ctrs ∧
    (sleeps i = false → (stepsOf i p s).1.slp = s.slp)) ∧
  (∀ (i : Instr) (s t : State), (∀ c ∈ s.ctrs, c < 2 ^ s.cfg.cw) → exec i s = .next t →
    ∃ m, t.ctrs = s.ctrs.map (fun c => addMod s.cfg.cw c m) ∧
      (sleeps i = false → t.slp.toNat = s.slp.toNat - m))

/-- R86: the threshold of `Delay`, and when a poll `m` ticks after the `T0` step ends it: never before `n - 1` ticks, for a
count `n` that fits the counter, wrap or no wrap. -/
def Obligations.DelayIsNeverShort : Prop :=
  (∀ (p : Params) (n : Nat), 1 ≤ n → n < 2 ^ p.cw → delayThreshold p n = n - 1) ∧
  (∀ p : Params, delayThreshold p 0 = match p.delay0 with
    | .immediate => 0
    | .wrap => 2 ^ p.cw - 1) ∧
  (∀ (n m : Nat) (s : State), s.csel < s.ctrs.length → s.t0 = s.cntRead →
    ((delayStep n .poll (elapse m s)).2 = .done ↔ delayThreshold s.cfg n ≤ m % 2 ^ s.cfg.cw) ∧
    (1 ≤ n → n < 2 ^ s.cfg.cw → (delayStep n .poll (elapse m s)).2 = .done → n - 1 ≤ m))

/-- R87, R46: a sleep of `d` milliseconds ends at a poll `m` ticks after its loading step exactly when `1000 d ≤ m`. -/
def Obligations.SleepIsNeverShort : Prop :=
  ∀ (d : Word) (m : Nat) (s : State),
    (sleepStep d .poll (elapse m (sleepStep d .load s).1)).2 = .done ↔ 1000 * d.toNat ≤ m

/-- R92, R157: the millisecond view falls when the counter wraps, and the elapsed time of `WAIT_READY_TIMEOUT` is then
`2^CW - TS + NowMs`: every timeout up to that is taken to be over, too early. -/
def Obligations.TimeoutAcrossCounterWrap : Prop :=
  ∀ (timeout : Word) (s : State), s.ts < 2 ^ s.cfg.cw → s.nowMs < s.ts →
    (s.beforeTimeout timeout = true ↔ 2 ^ s.cfg.cw - s.ts + s.nowMs < timeout.toNat % 2 ^ s.cfg.cw)

/-! ## Faults -/

/-- R77, R85, R118, R131: the fault of a refused command, the first cause in the order of R131, and that nothing but
`STATUS` is changed (R130). -/
def Obligations.FaultsInOrderOfPriority : Prop :=
  ∀ (i : Instr) (s : State), s.AtRest → accepted i s = false →
    exec i s = .next { s with
      status :=
        if i.wellFormed s.cfg.nctr = false then 0b00010
        else if usesClock i = true ∧ s.bound = false then 0b00110
        else 0b00100 }

/-- R130, R136: an accepted command reports no fault, from its issue on: `FAULT` is 0 while it runs and when it ends, in the
step of the model that issues it and in every later one. -/
def Obligations.AcceptedCommandsReportNoFault : Prop :=
  (∀ (i : Instr) (s : State), s.AtRest → accepted i s = true →
    ∃ t, exec i s = .next t ∧ t.faultField = 0 ∧ (t.AtRest ∨ ∃ pos, t.Running i pos)) ∧
  (∀ (i : Instr) (pos : Pos) (s : State), s.Inv → s.Running i pos →
    ∃ t, exec i s = .next t ∧ t.faultField = 0 ∧ (t.AtRest ∨ ∃ pos', t.Running i pos'))

/-- R130: no command depends on an earlier fault. -/
def Obligations.EarlierFaultLeavesNoTrace : Prop :=
  ∀ (i : Instr) (s : State) (f g : BitVec 4), s.seq = .idle →
    exec i { s with status := statusWord f false } = exec i { s with status := statusWord g false }

/-! ## The Microsecond Clock -/

/-- R88: `CLK_INIT` binds counter `A`, refuses an index that is none, and alone writes `BOUND` and `CSEL`. -/
def Obligations.ClkInitBindsTheCounter : Prop :=
  (∀ a b : Word, decode (cmdWord 0x01 a b) = .ok (.clkInit a)) ∧
  (∀ (a : Word) (s : State), s.AtRest → s.cfg.nctr ≤ a.toNat →
    exec (.clkInit a) s = .next { s with status := statusWord 1 false }) ∧
  (∀ (a : Word) (s : State), s.AtRest → a.toNat < s.cfg.nctr →
    exec (.clkInit a) s = .next { passTime s with csel := a.toNat, bound := true, status := 0, seq := .idle }) ∧
  (∀ (i : Instr) (s t : State), (∀ a, i ≠ .clkInit a) → exec i s = .next t → t.bound = s.bound ∧ t.csel = s.csel)

/-- R89, R86: `DELAY_US` issued: the `T0` step, then a poll, which ends the command or leaves it polling; each further step
is a poll. -/
def Obligations.DelayUsLatchesAndPolls : Prop :=
  (∀ (n : Word) (s : State), s.AtRest → s.bound = true →
    let a := { passTime s with t0 := (passTime s).cntRead }
    let b := passTime a
    exec (.delayUs n) s = .next
      (if delayThreshold s.cfg (counterOperand s.cfg n) ≤ subMod s.cfg.cw b.cntRead a.t0 then
        { b with status := 0, seq := .idle }
      else { b with status := 1, seq := .run (.delayUs n) (.delay .poll) })) ∧
  (∀ (n : Word) (s : State), s.Running (.delayUs n) (.delay .poll) →
    exec (.delayUs n) s = .next
      (if delayThreshold s.cfg (counterOperand s.cfg n) ≤ subMod s.cfg.cw (passTime s).cntRead s.t0 then
        { passTime s with status := 0, seq := .idle }
      else passTime s))

/-- R90: `NOW_US` returns the bound counter as it stands, and writes `RES` alone. -/
def Obligations.NowUsReturnsTheCounter : Prop :=
  (∀ a b : Word, decode (cmdWord 0x03 a b) = .ok .nowUs) ∧
  (∀ s : State, s.AtRest → s.bound = false → exec .nowUs s = .next { s with status := statusWord 3 false }) ∧
  (∀ s : State, s.AtRest → s.bound = true →
    exec .nowUs s = .next { passTime s with res := (passTime s).cntRead, status := 0, seq := .idle }) ∧
  (∀ (m : Nat) (s : State), s.csel < s.ctrs.length → (elapse m s).cntRead = addMod s.cfg.cw s.cntRead m)

/-- R91: `NOW_MS` returns the bound counter divided by 1000, truncated. It wraps with the counter: its top is that of the
counter's range, and one tick later it is 0. -/
def Obligations.NowMsReturnsMilliseconds : Prop :=
  (∀ a b : Word, decode (cmdWord 0x04 a b) = .ok .nowMs) ∧
  (∀ s : State, s.AtRest → s.bound = false → exec .nowMs s = .next { s with status := statusWord 3 false }) ∧
  (∀ s : State, s.AtRest → s.bound = true →
    exec .nowMs s = .next { passTime s with res := (passTime s).cntRead / 1000, status := 0, seq := .idle }) ∧
  (∀ s : State, (∀ c ∈ s.ctrs, c < 2 ^ s.cfg.cw) → s.nowMs ≤ (2 ^ s.cfg.cw - 1) / 1000) ∧
  (∀ s : State, s.csel < s.ctrs.length → s.cntRead = 2 ^ s.cfg.cw - 1 →
    s.nowMs = (2 ^ s.cfg.cw - 1) / 1000 ∧ (elapse 1 s).nowMs = 0)

/-! ## The Serial Bit Channel -/

/-- R94, R67, R42: `SHIFT_IN` takes eight samples, one in each high phase, returns the byte, leaves `SCK` low and masks
nothing; entered with `SCK` high it loses its first rising edge. The chip is no longer to be trusted after it. -/
def Obligations.ShiftInTakesEightSamples : Prop :=
  ∀ (order : Word) (s : State), s.AtRest → s.bound = true → order = 0 ∨ order = 1 →
    ∃ t, exec (.shiftIn order) s = .next t ∧ Agree { s with res := t.byt.toNat } t ∧ t.AtRest ∧ t.status = 0 ∧
      (∀ k < 8, t.byt.getLsbD (if order = 0 then k else 7 - k) = (s.drawAt (3 + 7 * k)).dout) ∧
      t.sck = false ∧ t.ie = s.ie ∧ t.shr = s.shr ∧
      (let bits := fun k => (s.drawAt (3 + 7 * k)).dout
       t.wire = (if s.sck then (shiftEvents bits).tail else shiftEvents bits).reverse ++ s.wire) ∧
      (s.frame = .outside → t.frame = .outside ∧ t.chipSel = .unknown ∧ t.garbageNext = true)

/-- R95: the round trip. With the same eight samples the two orders give the two sums, each the other's reversal. -/
def Obligations.ShiftInRoundTrip : Prop :=
  ∀ s : State, s.AtRest → s.bound = true →
    let bit := fun k => if (s.drawAt (3 + 7 * k)).dout then 1 else 0
    ∃ l m, exec (.shiftIn 0) s = .next l ∧ exec (.shiftIn 1) s = .next m ∧
      l.res = ((List.range 8).map fun k => bit k * 2 ^ k).sum ∧
      m.res = ((List.range 8).map fun k => bit k * 2 ^ (7 - k)).sum ∧
      ∀ q < 8, l.byt.getLsbD q = m.byt.getLsbD (7 - q)

/-! ## The reader -/

/-- R98: `IS_READY` returns 1 iff `DOUT` reads low, whatever else holds; it needs no clock. -/
def Obligations.IsReadyReadsTheLine : Prop :=
  (∀ a b : Word, decode (cmdWord 0x21 a b) = .ok .isReady) ∧
  (∀ s : State, s.AtRest →
    exec .isReady s = .next { passTime s with
      res := if (s.drawAt 0).dout then 0 else 1
      wire := .checked (s.drawAt 0).dout :: s.wire
      status := 0
      seq := .idle })

/-- R87: after a failed check the sleep is loaded with `1000 d` ticks and polled at once, in every wait: those of the three
waiting commands, and the wait inside every command that makes a `Read`, where `d` is `READ_POLL_DELAY`. In an averaging
command the reads still to make are at most those it was asked for (`StepKeepsAccumulatorBound`). -/
def Obligations.SleepIsLoadedFirst : Prop :=
  ∀ (i : Instr) (d : Word) (inside : WaitPos → Pos) (s : State), s.frame = .outside →
    (inside = .wait ∧ (i = .waitReady d ∨ (∃ a, i = .waitReadyRetry a d) ∨ ∃ a, i = .waitReadyTimeout a d)) ∨
      (inside = (fun w => .read (.wait w)) ∧ d = s.cfg.readPollDelay ∧ readsFrames i = true) →
    (∀ n, averagingCount i = some n → 0 < s.ctr.toNat ∧ s.ctr.toNat ≤ n.toNat) →
    s.Running i (inside (.sleep .load)) →
    exec i s = exec i { passTime s with
      slp := BitVec.ofNat 42 (1000 * d.toNat), seq := .run i (inside (.sleep .poll)) }

/-- R87, R99, R100: `WAIT_READY`: a check at once, which ends the command or is followed by a sleep; once the sleep is over,
the next check. -/
def Obligations.WaitReadyChecksAndSleeps : Prop :=
  (∀ (d : Word) (s : State), s.AtRest →
    exec (.waitReady d) s = .next
      (if (s.drawAt 0).dout then
        { passTime s with wire := .checked true :: s.wire, status := 1,
                          seq := .run (.waitReady d) (.wait (.sleep .load)) }
      else { passTime s with wire := .checked false :: s.wire, status := 0, seq := .idle })) ∧
  (∀ (d : Word) (s : State), s.Running (.waitReady d) (.wait (.sleep .poll)) →
    let b := passTime s
    let c := passTime b
    exec (.waitReady d) s = .next
      (if b.slp ≠ 0 then b
      else if (s.drawAt 1).dout then
        { c with wire := .checked true :: s.wire, seq := .run (.waitReady d) (.wait (.sleep .load)) }
      else { c with wire := .checked false :: s.wire, status := 0, seq := .idle }))

/-- R101: `WAIT_READY_RETRY` issued: 0 attempts return 0 with no check; else the first check comes before any sleep. That
0 attempts take no time (no draw is taken, the counters and `SLP` stand) is the model's choice (log 6). -/
def Obligations.WaitReadyRetryStarts : Prop :=
  (∀ (d : Word) (s : State), s.AtRest →
    exec (.waitReadyRetry 0 d) s = .next { s with ctr := 0, res := 0, status := 0 }) ∧
  (∀ (a d : Word) (s : State), s.AtRest → 0 < a.toNat →
    exec (.waitReadyRetry a d) s = .next
      (if (s.drawAt 0).dout then
        { passTime s with ctr := 0, wire := .checked true :: s.wire, status := 1,
                          seq := .run (.waitReadyRetry a d) (.wait (.sleep .load)) }
      else { passTime s with ctr := 0, res := 1, wire := .checked false :: s.wire, status := 0, seq := .idle }))

/-- R101: `WAIT_READY_RETRY` after a failed check: when its sleep is over the attempt is counted; the last one counted
returns 0, else the next check follows. -/
def Obligations.WaitReadyRetryCounts : Prop :=
  ∀ (a d : Word) (s : State), s.Running (.waitReadyRetry a d) (.wait (.sleep .poll)) →
    let b := passTime s
    let c := passTime b
    exec (.waitReadyRetry a d) s = .next
      (if b.slp ≠ 0 then b
      else if a.toNat ≤ (s.ctr + 1).toNat then { b with ctr := s.ctr + 1, res := 0, status := 0, seq := .idle }
      else if (s.drawAt 1).dout then
        { c with ctr := s.ctr + 1, wire := .checked true :: s.wire,
                 seq := .run (.waitReadyRetry a d) (.wait (.sleep .load)) }
      else { c with ctr := s.ctr + 1, res := 1, wire := .checked false :: s.wire, status := 0, seq := .idle })

/-- R102: `WAIT_READY_TIMEOUT` issued: `TS` is the millisecond view; the time test comes before the first check, so a
timeout of 0 returns 0 with no check. -/
def Obligations.WaitReadyTimeoutStarts : Prop :=
  ∀ (timeout d : Word) (s : State), s.AtRest → s.bound = true →
    let a := { passTime s with ts := (passTime s).cntRead / 1000 }
    let b := passTime a
    let c := passTime b
    exec (.waitReadyTimeout timeout d) s = .next
      (if counterOperand s.cfg timeout ≤ subMod s.cfg.cw (b.cntRead / 1000) a.ts then
        { b with res := 0, status := 0, seq := .idle }
      else if (s.drawAt 2).dout then
        { c with wire := .checked true :: s.wire, status := 1,
                 seq := .run (.waitReadyTimeout timeout d) (.wait (.sleep .load)) }
      else { c with res := 1, wire := .checked false :: s.wire, status := 0, seq := .idle })

/-- R102: `WAIT_READY_TIMEOUT` after a failed check: when its sleep is over, the time test again, then the next check. -/
def Obligations.WaitReadyTimeoutGoesOn : Prop :=
  ∀ (timeout d : Word) (s : State), s.Running (.waitReadyTimeout timeout d) (.wait (.sleep .poll)) →
    let b := passTime s
    let c := passTime b
    let e := passTime c
    exec (.waitReadyTimeout timeout d) s = .next
      (if b.slp ≠ 0 then b
      else if counterOperand s.cfg timeout ≤ subMod s.cfg.cw (c.cntRead / 1000) s.ts then
        { c with res := 0, status := 0, seq := .idle }
      else if (s.drawAt 2).dout then
        { e with wire := .checked true :: s.wire, seq := .run (.waitReadyTimeout timeout d) (.wait (.sleep .load)) }
      else { e with res := 1, wire := .checked false :: s.wire, status := 0, seq := .idle })

/-- R99, R110, R156: on a chip that never turns ready `WAIT_READY` and every command that makes a `Read` wait on for ever:
nothing ends them, no pin is driven, no result and no part of one is given. -/
def Obligations.UnboundedWaitsNeverEnd : Prop :=
  ∀ (k : Nat) (i : Instr) (s : State),
    (∃ d w, i = .waitReady d ∧ s.Running i (.wait w)) ∨
      (∃ w, readsFrames i = true ∧ s.Running i (.read (.wait w))) →
    (∀ j < 3 * k, (s.drawAt j).dout = true) →
      ∃ t, Sys2Proof.core.run k s = .next t ∧ t.busy = true ∧ t.res = s.res ∧ t.offset = s.offset ∧ t.sck = s.sck ∧
        t.ie = s.ie ∧ t.acc = s.acc ∧ t.ctr = s.ctr ∧ t.wire.count .rise = s.wire.count .rise ∧
        ((∃ w, t.seq = .run i (.wait w)) ∨ (∃ w, t.seq = .run i (.read (.wait w))))

/-- R69: the three bytes in the order shifted in are the sample word, and the sample is its sign extension. -/
def Obligations.SampleAssembly : Prop :=
  (∀ (b2 b1 b0 : Byte) (x : SampleWord), storeByte 2 b0 (storeByte 1 b1 (storeByte 0 b2 x)) = b2 ++ b1 ++ b0 ∧
    (storeByte 2 b0 (storeByte 1 b1 (storeByte 0 b2 x))).toNat =
      b2.toNat <<< 16 ||| b1.toNat <<< 8 ||| b0.toNat) ∧
  (∀ (p : Params) (shr : SampleWord), 24 ≤ p.xw →
    signedValue p.xw (sampleOf p shr) = (if shr.getLsbD 23 then (shr.toNat : Int) - 2 ^ 24 else (shr.toNat : Int)) ∧
    (∀ k, (sampleOf p shr).testBit k = (if k < p.xw then shr.getLsbD (min k 23) else false)) ∧
    -8388608 ≤ signedValue p.xw (sampleOf p shr) ∧ signedValue p.xw (sampleOf p shr) ≤ 8388607)

/-- R104, R103, R67: `READ` on a chip that is ready at the first check returns the sign-extended word of the 24 samples,
leaves `SCK` low and `IE` set, and changes no register that is not its own. -/
def Obligations.ReadReturnsTheSample : Prop :=
  ∀ (s : State) (w : SampleWord), s.cfg.Valid → s.AtRest → s.bound = true → s.frame = .outside → s.Delivers 0 w →
    ∃ t, exec .read s = .next t ∧ Agree { s with res := signedPattern s.cfg.rw w.toInt } t ∧ t.AtRest ∧ t.status = 0 ∧
      t.shr = w ∧ t.sck = false ∧ t.ie = true

/-- R67, R103, R109: the pin events of a `READ`: the check; then a rising edge, one sample and a falling edge for each of
24 bits; then `pulses(SEL)` pulses with no sample. Entered with `SCK` high the first rising edge is lost (R94). -/
def Obligations.ReadDrivesTheFrame : Prop :=
  ∀ (s : State) (w : SampleWord), s.AtRest → s.bound = true → s.frame = .outside → s.Delivers 0 w →
    ∃ t, exec .read s = .next t ∧ t.AtRest ∧
      (let events := frameEvents (fun p => w.getLsbD (23 - p)) (pulses s.sel)
       t.wire = (if s.sck then events.tail else events).reverse ++ .checked false :: s.wire) ∧
      (s.sck = false → s.wire = [] → t.wire.count .rise = 24 + pulses s.sel)

/-- R40, R41, R42: the sample of a `READ` was converted under the selection armed before. A frame kept whole (clock low on
entry, `T_HIGH_MAX` below the chip's limit) arms `SEL` and clears the distrust. A frame is broken, the selection is unknown
and the next sample distrusted, when it was entered with `SCK` high, and when the clock was high for `PD_TIMEOUT` ticks in
one of its pulses: the tick that reaches the limit breaks it, and it ends so. That the limit is reached with exactly the
60th tick is the model's reading (log 13): R41 leaves the boundary open. -/
def Obligations.ReadArmsTheNextSelection : Prop :=
  (∀ (s : State) (w : SampleWord), s.AtRest → s.bound = true → s.frame = .outside → s.Delivers 0 w →
    ∃ t, exec .read s = .next t ∧ t.AtRest ∧ t.sampleSel = s.chipSel ∧ t.frame = .outside ∧
      (s.sck = false → s.cfg.tHighMax < pdTimeout → t.chipSel = .armed s.sel ∧ t.garbageNext = false) ∧
      (s.sck = true → t.chipSel = .unknown ∧ t.garbageNext = true) ∧
      (pdTimeout ≤ s.cfg.tHighMax →
        (∃ p < 24, pdTimeout ≤ s.ticksFrom (3 + 7 * p) 4) ∨
          (∃ k < pulses s.sel, pdTimeout ≤ s.ticksFrom (171 + 6 * k) 3) →
        t.chipSel = .unknown ∧ t.garbageNext = true)) ∧
  (∀ (m : Nat) (s : State), s.frame ≠ .outside → s.sck = true → 0 < m →
    (pdTimeout ≤ s.highTicks + m → (elapse m s).chipPd = true ∧ (elapse m s).frame = .broken ∧
      (elapse m s).garbageNext = true ∧ (elapse m s).chipSel = .unknown) ∧
    (s.highTicks + m < pdTimeout → (elapse m s).chipPd = s.chipPd ∧ (elapse m s).frame = s.frame ∧
      (elapse m s).garbageNext = s.garbageNext ∧ (elapse m s).chipSel = s.chipSel))

/-- R99, R103, R104, R106, R159: a chip that is not ready at a check: `READ` and `CONFIGURE` issued stand before a sleep, no
frame begun; in every command that makes a `Read` a poll waits while `SLP` is not 0, and after a check that fails it sleeps
again; a frame starts only after a check that saw `DOUT` low, and then `READ` and `CONFIGURE` end as they do on a chip that
was ready at once. (The averaging commands go on as `AveragingWaitsForReady` says.) That the check of `CONFIGURE` is
its second step, `SEL` written with the issue, is the model's choice (log 20). -/
def Obligations.ReadWaitsForReady : Prop :=
  (∀ s : State, s.AtRest → s.bound = true → (s.drawAt 0).dout = true →
    exec .read s = .next { passTime s with
      wire := .checked true :: s.wire, status := 1, seq := .run .read (.read (.wait (.sleep .load))) }) ∧
  (∀ (g : Word) (x : Selector) (s : State), selectorOfGain g = some x → s.AtRest → s.bound = true →
    (s.drawAt 1).dout = true →
    exec (.configure g) s = .next { passTime (pinWrite false { passTime s with sel := x }) with
      wire := .checked true :: (if s.sck then .fall :: s.wire else s.wire), status := 1,
      seq := .run (.configure g) (.read (.wait (.sleep .load))) }) ∧
  (∀ (i : Instr) (s : State), readsFrames i = true → averagingCount i ≠ some 0 →
    s.Running i (.read (.wait (.sleep .poll))) → (passTime s).slp ≠ 0 → exec i s = .next (passTime s)) ∧
  (∀ (i : Instr) (s : State), readsFrames i = true → averagingCount i ≠ some 0 →
    s.Running i (.read (.wait (.sleep .poll))) → (passTime s).slp = 0 → (s.drawAt 1).dout = true →
    exec i s = .next { passTime (passTime s) with
      wire := .checked true :: s.wire, seq := .run i (.read (.wait (.sleep .load))) }) ∧
  (∀ (s : State) (w : SampleWord), s.cfg.Valid → s.Running .read (.read (.wait (.sleep .poll))) → s.frame = .outside →
    (passTime s).slp = 0 → s.Delivers 1 w →
    ∃ t, exec .read s = .next t ∧ Agree { s with res := signedPattern s.cfg.rw w.toInt } t ∧ t.AtRest ∧ t.status = 0 ∧
      t.shr = w ∧ t.sck = false ∧ t.ie = true) ∧
  (∀ (g : Word) (s : State) (w : SampleWord), s.Running (.configure g) (.read (.wait (.sleep .poll))) →
    s.frame = .outside → (passTime s).slp = 0 → s.Delivers 1 w →
    ∃ t, exec (.configure g) s = .next t ∧ Agree s t ∧ t.AtRest ∧ t.status = 0 ∧ t.shr = w ∧ t.sck = false ∧
      t.ie = true)

/-- R70, R71, R72: the gain codes, all 32 bits compared, the trailing pulses, and the field that holds them. -/
def Obligations.GainCodesAndPulses : Prop :=
  (∀ (g : Word) (x : Selector), selectorOfGain g = some x ↔
    (g = 128 ∧ x = .a128) ∨ (g = 64 ∧ x = .a64) ∨ (g = 32 ∧ x = .b32)) ∧
  (∀ (g : Word) (nctr : Nat), (Instr.configure g).wellFormed nctr = (selectorOfGain g).isSome) ∧
  (pulses .a128 = 1 ∧ pulses .a64 = 3 ∧ pulses .b32 = 2) ∧
  (∀ x : Selector, pulses x = (selectorCode x).toNat ∧ selectorCode x ≠ 0)

/-- R106, R67: `CONFIGURE` sets the selector, brings `SCK` low, and reads one frame with the new selector's pulses, whose
sample it drops. That its check is the second step, `SEL` written with the issue, is the model's choice (log 20). -/
def Obligations.ConfigureReadsOneFrame : Prop :=
  ∀ (g : Word) (x : Selector) (s : State) (w : SampleWord), selectorOfGain g = some x → s.AtRest → s.bound = true →
    s.frame = .outside → s.Delivers 1 w →
    ∃ t, exec (.configure g) s = .next t ∧ Agree { s with sel := x } t ∧ t.AtRest ∧ t.status = 0 ∧ t.shr = w ∧
      t.sck = false ∧ t.ie = true ∧
      t.wire = (frameEvents (fun p => w.getLsbD (23 - p)) (pulses x)).reverse ++
        .checked false :: (if s.sck then .fall :: s.wire else s.wire) ∧
      (s.cfg.tHighMax < pdTimeout → t.chipSel = .armed x ∧ t.garbageNext = false)

/-- R105: the one-read latency. `CONFIGURE g` then `READ`: the dropped sample was converted under what was armed before,
the one returned under `sel_of(g)`, and both frames send the new selector's pulses. That `SEL` takes no step of its own, by
which the steps of the frames are counted, is the model's choice (log 20). -/
def Obligations.SelectionTakesEffectAfterOneRead : Prop :=
  ∀ (g : Word) (x : Selector) (s : State) (v w : SampleWord), selectorOfGain g = some x → s.cfg.Valid → s.AtRest →
    s.bound = true → s.frame = .outside → s.cfg.tHighMax < pdTimeout → s.Delivers 1 v →
    s.Delivers (1 + frameSteps x) w →
    ∃ t u, exec (.configure g) s = .next t ∧ exec .read t = .next u ∧ u.AtRest ∧
      u.res = signedPattern s.cfg.rw w.toInt ∧ t.sampleSel = s.chipSel ∧ u.sampleSel = .armed x ∧
      u.chipSel = .armed x ∧ u.garbageNext = false ∧
      u.wire.count .rise = s.wire.count .rise + (24 + pulses x) + (24 + pulses x)

/-- R107, R41, R40: `POWER_DOWN` holds `SCK` high and ends at once; from a low line the chip powers down after 60 ticks of
clock-high. That it does so with exactly the 60th tick and not before is the model's reading (log 13): R41 says that the
source does not settle the boundary. -/
def Obligations.PowerDownHoldsClockHigh : Prop :=
  ∀ s : State, s.AtRest →
    ∃ t, exec .powerDown s = .next t ∧ Agree s t ∧ t.AtRest ∧ t.status = 0 ∧ t.sck = true ∧ t.ie = s.ie ∧
      t.shr = s.shr ∧ t.byt = s.byt ∧ t.t0 = s.t0 ∧
      t.wire = (if s.sck then s.wire else .rise :: s.wire) ∧
      (s.sck = false → s.frame = .outside → t.chipSel = .unknown ∧ t.garbageNext = true) ∧
      (s.sck = false → t.highTicks = 0 ∧ t.chipPd = s.chipPd ∧
        ∀ m, (tick^[m] t).highTicks = m ∧ (tick^[m] t).chipPd = (s.chipPd || decide (60 ≤ m)))

/-- R108, R41: `POWER_UP` holds `SCK` low, clears the chip's power-down, and ends at once; it arms and reads nothing. -/
def Obligations.PowerUpHoldsClockLow : Prop :=
  ∀ s : State, s.AtRest →
    ∃ t, exec .powerUp s = .next t ∧ Agree s t ∧ t.AtRest ∧ t.status = 0 ∧ t.sck = false ∧ t.ie = s.ie ∧
      t.shr = s.shr ∧ t.byt = s.byt ∧ t.t0 = s.t0 ∧ t.chipPd = false ∧
      t.wire = (if s.sck then .fall :: s.wire else s.wire) ∧
      (s.frame = .outside → t.chipSel = s.chipSel ∧ t.garbageNext = s.garbageNext)

/-! ## Calibration -/

/-- R113, R115: `READ_AVERAGE n` on a chip that is ready for each of its `n` frames returns the truncated mean. -/
def Obligations.ReadAverageReturnsTheMean : Prop :=
  ∀ (n : Word) (s : State) (words : Nat → SampleWord), n ≠ 0 → s.cfg.Valid → s.AtRest → s.bound = true →
    s.frame = .outside → (∀ f < n.toNat, s.Delivers (f * frameSteps s.sel) (words f)) →
    ∃ t, exec (.readAverage n) s = .next t ∧ t.AtRest ∧ t.status = 0 ∧ t.sck = false ∧ t.ie = true ∧
      t.shr = words (n.toNat - 1) ∧
      Agree { s with
        res := signedPattern s.cfg.rw ((sampleSum words n.toNat).tdiv n.toNat)
        acc := BitVec.ofInt 64 (sampleSum words n.toNat)
        ctr := 0 } t

/-- R117: `GET_VALUE n` returns the mean less `OFFSET`, each converted to the format and subtracted there. -/
def Obligations.GetValueSubtractsTheOffset : Prop :=
  ∀ (n : Word) (s : State) (words : Nat → SampleWord), n ≠ 0 → s.cfg.Valid → s.AtRest → s.bound = true →
    s.frame = .outside → (∀ f < n.toNat, s.Delivers (f * frameSteps s.sel) (words f)) →
    ∃ t, exec (.getValue n) s = .next t ∧ t.AtRest ∧ t.status = 0 ∧ t.sck = false ∧ t.ie = true ∧
      t.shr = words (n.toNat - 1) ∧
      Agree { s with
        res := floatSub s.cfg.fmt (floatOfInt s.cfg.fmt ((sampleSum words n.toNat).tdiv n.toNat))
          (floatOfInt s.cfg.fmt s.offset.toInt)
        acc := BitVec.ofInt 64 (sampleSum words n.toNat)
        ctr := 0 } t

/-- R118: `GET_UNITS n` returns that value divided by `SCALE`, where `SCALE` is no zero. -/
def Obligations.GetUnitsDividesByTheScale : Prop :=
  ∀ (n : Word) (s : State) (words : Nat → SampleWord), n ≠ 0 → s.cfg.Valid → s.AtRest → s.bound = true →
    s.frame = .outside → floatIsZero s.cfg.fmt s.scale = false →
    (∀ f < n.toNat, s.Delivers (f * frameSteps s.sel) (words f)) →
    ∃ t, exec (.getUnits n) s = .next t ∧ t.AtRest ∧ t.status = 0 ∧ t.sck = false ∧ t.ie = true ∧
      t.shr = words (n.toNat - 1) ∧
      Agree { s with
        res := floatDiv s.cfg.fmt
          (floatSub s.cfg.fmt (floatOfInt s.cfg.fmt ((sampleSum words n.toNat).tdiv n.toNat))
            (floatOfInt s.cfg.fmt s.offset.toInt)) s.scale
        acc := BitVec.ofInt 64 (sampleSum words n.toNat)
        ctr := 0 } t

/-- R121: `TARE n` writes the mean into `OFFSET` and leaves `RES` alone. -/
def Obligations.TareStoresTheMean : Prop :=
  ∀ (n : Word) (s : State) (words : Nat → SampleWord), n ≠ 0 → s.cfg.Valid → s.AtRest → s.bound = true →
    s.frame = .outside → (∀ f < n.toNat, s.Delivers (f * frameSteps s.sel) (words f)) →
    ∃ t, exec (.tare n) s = .next t ∧ t.AtRest ∧ t.status = 0 ∧ t.sck = false ∧ t.ie = true ∧
      t.shr = words (n.toNat - 1) ∧
      Agree { s with
        offset := BitVec.ofInt 32 ((sampleSum words n.toNat).tdiv n.toNat)
        acc := BitVec.ofInt 64 (sampleSum words n.toNat)
        ctr := 0 } t

/-- R113, R99, R103: an averaging command whose chip is not ready at one of its checks. Issued, it reads the `k` frames before
that check and stands before a sleep, their sum in `ACC` and the frames to come counted in `CTR`. Once a sleep is over, `j`
frames read so far, it reads on: to the next check that fails, where it stands before a sleep again, or to its end, with the
result of all `n` samples. -/
def Obligations.AveragingWaitsForReady : Prop :=
  ∀ (i : Instr) (n : Word) (words : Nat → SampleWord) (s : State), averagingCount i = some n → s.cfg.Valid →
    s.frame = .outside →
    (∀ k < n.toNat, s.AtRest → accepted i s = true → (∀ f < k, s.Delivers (f * frameSteps s.sel) (words f)) →
      (s.drawAt (k * frameSteps s.sel)).dout = true →
      ∃ t, exec i s = .next t ∧ t.Running i (.read (.wait (.sleep .load))) ∧ t.faultField = 0 ∧ t.frame = .outside ∧
        Agree { s with acc := BitVec.ofInt 64 (sampleSum words k), ctr := BitVec.ofNat 32 (n.toNat - k) } t ∧
        (k = 0 → t.sck = s.sck ∧ t.ie = s.ie ∧ t.shr = s.shr ∧ t.wire = .checked true :: s.wire) ∧
        (0 < k → t.sck = false ∧ t.ie = true ∧ t.shr = words (k - 1)) ∧
        ∀ l, t.drawAt l = s.drawAt (l + k * frameSteps s.sel + 1)) ∧
    (∀ j k : Nat, j < n.toNat → s.Running i (.read (.wait (.sleep .poll))) → (passTime s).slp = 0 →
      s.ctr.toNat = n.toNat - j → s.acc = BitVec.ofInt 64 (sampleSum words j) →
      (∀ f < k, s.Delivers (1 + f * frameSteps s.sel) (words (j + f))) →
      (j + k < n.toNat → (s.drawAt (1 + k * frameSteps s.sel)).dout = true →
        ∃ t, exec i s = .next t ∧ t.Running i (.read (.wait (.sleep .load))) ∧ t.status = s.status ∧ t.frame = .outside ∧
          Agree { s with
            acc := BitVec.ofInt 64 (sampleSum words (j + k))
            ctr := BitVec.ofNat 32 (n.toNat - (j + k)) } t ∧
          (0 < k → t.sck = false ∧ t.ie = true ∧ t.shr = words (j + k - 1)) ∧
          ∀ l, t.drawAt l = s.drawAt (l + k * frameSteps s.sel + 2)) ∧
      (j + k = n.toNat →
        ∃ t, exec i s = .next t ∧ t.AtRest ∧ t.status = 0 ∧ t.sck = false ∧ t.ie = true ∧
          t.shr = words (n.toNat - 1) ∧
          Agree (averageResult i ((sampleSum words n.toNat).tdiv n.toNat)
            { s with acc := BitVec.ofInt 64 (sampleSum words n.toNat), ctr := 0 }) t))

/-- R114: the mean truncates toward zero and lies between the least and the greatest sample. -/
def Obligations.MeanTruncatesTowardZero : Prop :=
  (∀ (p : Params) (n : Word) (words : Nat → SampleWord), p.Valid → n ≠ 0 →
    signedValue p.xw (mean p (BitVec.ofInt 64 (sampleSum words n.toNat)) n) =
      (sampleSum words n.toNat).tdiv n.toNat) ∧
  (∀ (n : Word) (words : Nat → SampleWord) (lo hi : Int), n ≠ 0 →
    (∀ f < n.toNat, lo ≤ (words f).toInt ∧ (words f).toInt ≤ hi) →
      lo ≤ (sampleSum words n.toNat).tdiv n.toNat ∧ (sampleSum words n.toNat).tdiv n.toNat ≤ hi) ∧
  (∀ (n : Nat) (sum : Int), 0 < n →
    (0 ≤ sum → sum.tdiv n = sum / n) ∧ (sum < 0 → sum.tdiv n = -((-sum) / n)))

/-- R116, R119: in binary32, the format the model takes as the default (log 10), `TARE n` and then `GET_VALUE 1` of a sample
equal to the tared mean returns the zero pattern. That `OFFSET` takes no step of its own, so that the next frame begins
where the last one ended, is the model's choice (log 20). -/
def Obligations.TareLaw : Prop :=
  ∀ (n : Word) (s : State) (words : Nat → SampleWord) (w : SampleWord), n ≠ 0 → s.cfg.Valid → s.cfg.fmt = .binary32 →
    s.AtRest → s.bound = true → s.frame = .outside →
    (∀ f < n.toNat, s.Delivers (f * frameSteps s.sel) (words f)) →
    s.Delivers (n.toNat * frameSteps s.sel) w → w.toInt = (sampleSum words n.toNat).tdiv n.toNat →
    ∃ t u, exec (.tare n) s = .next t ∧ exec (.getValue 1) t = .next u ∧ u.AtRest ∧ u.status = 0 ∧ u.res = 0

/-- R116: binary32 holds every integer up to `2^24` in magnitude exactly. That the default format is IEEE 754's is general
knowledge (log 10). -/
def Obligations.Binary32IntegersAreExact : Prop :=
  ∀ v : Int, v.natAbs ≤ 2 ^ 24 →
    ∃ m e, f32Unpack (f32OfInt v) = .num (decide (v < 0)) m e ∧ 0 ≤ e + 149 ∧
      m * 2 ^ (e + 149).toNat = v.natAbs * 2 ^ 149

/-- R122, R123: `SET_SCALE` stores the `FW`-bit pattern, any of them; `GET_SCALE` returns the bits last written. Neither
needs a clock, neither drives a pin. The model's choices are two: for `FW` above 64 the bits above 63 are stored as 0
(log 18), and `GET_SCALE` takes no time (log 6). -/
def Obligations.ScaleAccessors : Prop :=
  (∀ a b : Word, decode (cmdWord 0x34 a b) = .ok (.setScale a b) ∧ decode (cmdWord 0x35 a b) = .ok .getScale) ∧
  (∀ (a b : Word) (s : State), s.AtRest →
    exec (.setScale a b) s = .next { passTime s with
      scale := (b.toNat * 2 ^ 32 + a.toNat) % 2 ^ s.cfg.fw, status := 0, seq := .idle }) ∧
  (∀ s : State, s.AtRest → exec .getScale s = .next { s with res := s.scale, status := 0 }) ∧
  (∀ p : Params, (State.resetWith p).scale = p.scaleReset) ∧
  (∀ (a b : Word) (s : State), s.AtRest →
    ∃ t u, exec (.setScale a b) s = .next t ∧ exec .getScale t = .next u ∧
      ∀ k < s.cfg.fw, u.res.testBit k = (b ++ a : BitVec 64).getLsbD k)

/-- R124, R125: `SET_OFFSET` stores any 32-bit value; `GET_OFFSET` returns `OFFSET` sign-extended to `RW` bits. That
`GET_OFFSET` takes no time is the model's choice (log 6). -/
def Obligations.OffsetAccessors : Prop :=
  (∀ a b : Word, decode (cmdWord 0x36 a b) = .ok (.setOffset a) ∧ decode (cmdWord 0x37 a b) = .ok .getOffset) ∧
  (∀ (a : Word) (s : State), s.AtRest →
    exec (.setOffset a) s = .next { passTime s with offset := a, status := 0, seq := .idle }) ∧
  (∀ s : State, s.AtRest →
    exec .getOffset s = .next { s with res := signedPattern s.cfg.rw s.offset.toInt, status := 0 }) ∧
  (∀ p : Params, (State.resetWith p).offset = p.offsetReset)

/-! ## The whole machine -/

/-- R31 to R34: of the registers that outlive a command, each is written by its own commands alone; no command changes a
parameter or the host's queue. -/
def Obligations.ControlRegistersHaveTheirWriters : Prop :=
  ∀ (i : Instr) (s t : State), exec i s = .next t →
    ((∀ g, i ≠ .configure g) → t.sel = s.sel) ∧
    ((∀ c, i ≠ .clkInit c) → t.bound = s.bound ∧ t.csel = s.csel) ∧
    ((∀ v, i ≠ .setOffset v) → (∀ n, i ≠ .tare n) → t.offset = s.offset) ∧
    ((∀ a b, i ≠ .setScale a b) → t.scale = s.scale) ∧
    t.cfg = s.cfg ∧ t.program = s.program

/-- R20 to R26, R35, R36, R38: the working registers, `RES`, `IE` and `SCK`, each left alone by every command the spec
does not name as its writer; the record of pin events only grows (R59). -/
def Obligations.WorkingRegistersHaveTheirWriters : Prop :=
  ∀ (i : Instr) (s t : State), exec i s = .next t →
    (returnsValue i = false → t.res = s.res) ∧
    (readsFrames i = false → t.shr = s.shr ∧ t.ie = s.ie ∧ t.sampleSel = s.sampleSel) ∧
    (readsFrames i = false → (∀ o, i ≠ .shiftIn o) → t.byt = s.byt) ∧
    (averagingCount i = none → t.acc = s.acc) ∧
    (averagingCount i = none → (∀ a d, i ≠ .waitReadyRetry a d) → t.ctr = s.ctr) ∧
    (delays i = false → t.t0 = s.t0) ∧
    ((∀ a d, i ≠ .waitReadyTimeout a d) → t.ts = s.ts) ∧
    (drivesClock i = false → t.sck = s.sck) ∧
    s.wire <:+ t.wire

/-- R43, R143, R151: when a command ends, `IE` is 1; `SCK` is low after an accepted command that drives it, high after
`POWER_DOWN`, and untouched by every other command and by a refused one. -/
def Obligations.LinesWhenACommandEnds : Prop :=
  ∀ (i : Instr) (s t : State), s.Inv → exec i s = .next t → t.seq = .idle →
    t.ie = true ∧
    (drivesClock i = false → t.sck = s.sck) ∧
    (t.faultField ≠ 0 → t.sck = s.sck) ∧
    (drivesClock i = true → t.faultField = 0 → t.sck = decide (i = .powerDown))

/-- R38: the registers by number: there are 15 of them, each reads what R38 lists under its number, `STATUS`, `CLK` and
`PINS` with their fields in place, and in a state that meets the invariant each fits its width. -/
def Obligations.RegistersFitTheirWidths : Prop :=
  (∀ (s : State) (n : Nat), (s.register n).isSome = decide (n < 15)) ∧
  (∀ s : State,
    s.register 0 = some (2 * s.faultField.toNat + s.busy.toNat) ∧
    s.register 1 = some s.res ∧
    s.register 2 = some s.cntRead ∧
    s.register 3 = some (2 * s.csel + s.bound.toNat) ∧
    s.register 4 = some (match s.sel with | .a128 => 0b01 | .b32 => 0b10 | .a64 => 0b11) ∧
    s.register 5 = some (s.offset.toInt % 2 ^ 32).toNat ∧
    s.register 6 = some s.scale ∧
    s.register 7 = some (s.sck.toNat + 2 * s.dout.toNat + 4 * s.ie.toNat) ∧
    s.register 8 = some s.shr.toNat ∧ s.register 9 = some s.byt.toNat ∧
    s.register 10 = some (s.acc.toInt % 2 ^ 64).toNat ∧
    s.register 11 = some s.t0 ∧ s.register 12 = some s.ts ∧ s.register 13 = some s.ctr.toNat ∧
    s.register 14 = some s.slp.toNat) ∧
  (∀ (s : State) (n v : Nat), s.Inv → s.register n = some v →
    (n = 3 → s.bound = true → v < 2 * s.cfg.nctr) ∧
    (n ≠ 3 → v < 2 ^ (match n with
      | 0 => 5
      | 1 => s.cfg.rw
      | 2 => s.cfg.cw
      | 4 => 2
      | 5 => 32
      | 6 => s.cfg.fw
      | 7 => 3
      | 8 => 24
      | 9 => 8
      | 10 => 64
      | 11 => s.cfg.cw
      | 12 => s.cfg.cw
      | 13 => 32
      | _ => 42)))

end
end

