-- ==== Sys2Proof/Laws/State.lean ====
section
/-!
SUPPORT. What each operation of the state does to each field, true by unfolding: one theorem per operation, a
conjunction over the fields, which simp takes as one rewrite per field.
-/

namespace Sys2Proof.Machine

/-- Bit 0 of `STATUS` is `BUSY` (R38). -/
@[simp] theorem statusWord_busy (f : BitVec 4) (b : Bool) : (statusWord f b).getLsbD 0 = b := by
  revert f b; decide

@[simp] theorem statusWord_bit (f : BitVec 4) (b : Bool) : (statusWord f b)[0] = b := statusWord_busy f b

/-- Bits 4:1 of `STATUS` are `FAULT` (R38). -/
@[simp] theorem statusWord_fault (f : BitVec 4) (b : Bool) : (statusWord f b).extractLsb' 1 4 = f := by
  revert f b; decide

/-- Time changes the counters, `SLP` and the chip's hidden state alone (R30, R46, R41, R42). -/
@[simp] theorem elapse_fields (m : Nat) (s : State) :
    (elapse m s).cfg = s.cfg ∧
    (elapse m s).program = s.program ∧
    (elapse m s).draws = s.draws ∧
    (elapse m s).drawCount = s.drawCount ∧
    (elapse m s).seq = s.seq ∧
    (elapse m s).status = s.status ∧
    (elapse m s).res = s.res ∧
    (elapse m s).shr = s.shr ∧
    (elapse m s).byt = s.byt ∧
    (elapse m s).acc = s.acc ∧
    (elapse m s).t0 = s.t0 ∧
    (elapse m s).ts = s.ts ∧
    (elapse m s).ctr = s.ctr ∧
    (elapse m s).slp = BitVec.ofNat 42 (s.slp.toNat - m) ∧
    (elapse m s).ctrs = s.ctrs.map (fun c => addMod s.cfg.cw c m) ∧
    (elapse m s).bound = s.bound ∧
    (elapse m s).csel = s.csel ∧
    (elapse m s).sel = s.sel ∧
    (elapse m s).offset = s.offset ∧
    (elapse m s).scale = s.scale ∧
    (elapse m s).ie = s.ie ∧
    (elapse m s).sck = s.sck ∧
    (elapse m s).dout = s.dout ∧
    (elapse m s).chipSel = (if s.breaksFrame m then .unknown else s.chipSel) ∧
    (elapse m s).highTicks = (if s.sck then s.highTicks + m else s.highTicks) ∧
    (elapse m s).chipPd = (s.chipPd || s.trips m) ∧
    (elapse m s).garbageNext = (s.garbageNext || s.breaksFrame m) ∧
    (elapse m s).frame = (if s.breaksFrame m then .broken else s.frame) ∧
    (elapse m s).pulseTicks = (if s.inMaskedPulse then s.pulseTicks + m else s.pulseTicks) ∧
    (elapse m s).sampleSel = s.sampleSel ∧
    (elapse m s).wire = s.wire := by
  and_intros <;> rfl

/-- `CHIP` changes `DOUT` alone (R37). -/
@[simp] theorem chipDrive_fields (v : Bool) (s : State) :
    (chipDrive v s).cfg = s.cfg ∧
    (chipDrive v s).program = s.program ∧
    (chipDrive v s).draws = s.draws ∧
    (chipDrive v s).drawCount = s.drawCount ∧
    (chipDrive v s).seq = s.seq ∧
    (chipDrive v s).status = s.status ∧
    (chipDrive v s).res = s.res ∧
    (chipDrive v s).shr = s.shr ∧
    (chipDrive v s).byt = s.byt ∧
    (chipDrive v s).acc = s.acc ∧
    (chipDrive v s).t0 = s.t0 ∧
    (chipDrive v s).ts = s.ts ∧
    (chipDrive v s).ctr = s.ctr ∧
    (chipDrive v s).slp = s.slp ∧
    (chipDrive v s).ctrs = s.ctrs ∧
    (chipDrive v s).bound = s.bound ∧
    (chipDrive v s).csel = s.csel ∧
    (chipDrive v s).sel = s.sel ∧
    (chipDrive v s).offset = s.offset ∧
    (chipDrive v s).scale = s.scale ∧
    (chipDrive v s).ie = s.ie ∧
    (chipDrive v s).sck = s.sck ∧
    (chipDrive v s).dout = v ∧
    (chipDrive v s).chipSel = s.chipSel ∧
    (chipDrive v s).highTicks = s.highTicks ∧
    (chipDrive v s).chipPd = s.chipPd ∧
    (chipDrive v s).garbageNext = s.garbageNext ∧
    (chipDrive v s).frame = s.frame ∧
    (chipDrive v s).pulseTicks = s.pulseTicks ∧
    (chipDrive v s).sampleSel = s.sampleSel ∧
    (chipDrive v s).wire = s.wire := by
  and_intros <;> rfl

/-- Taking a draw changes the queue of draws alone. -/
@[simp] theorem dropDraw_fields (s : State) :
    (dropDraw s).cfg = s.cfg ∧
    (dropDraw s).program = s.program ∧
    (dropDraw s).draws = s.draws.tail ∧
    (dropDraw s).seq = s.seq ∧
    (dropDraw s).status = s.status ∧
    (dropDraw s).res = s.res ∧
    (dropDraw s).shr = s.shr ∧
    (dropDraw s).byt = s.byt ∧
    (dropDraw s).acc = s.acc ∧
    (dropDraw s).t0 = s.t0 ∧
    (dropDraw s).ts = s.ts ∧
    (dropDraw s).ctr = s.ctr ∧
    (dropDraw s).slp = s.slp ∧
    (dropDraw s).ctrs = s.ctrs ∧
    (dropDraw s).bound = s.bound ∧
    (dropDraw s).csel = s.csel ∧
    (dropDraw s).sel = s.sel ∧
    (dropDraw s).offset = s.offset ∧
    (dropDraw s).scale = s.scale ∧
    (dropDraw s).ie = s.ie ∧
    (dropDraw s).sck = s.sck ∧
    (dropDraw s).dout = s.dout ∧
    (dropDraw s).chipSel = s.chipSel ∧
    (dropDraw s).highTicks = s.highTicks ∧
    (dropDraw s).chipPd = s.chipPd ∧
    (dropDraw s).garbageNext = s.garbageNext ∧
    (dropDraw s).frame = s.frame ∧
    (dropDraw s).pulseTicks = s.pulseTicks ∧
    (dropDraw s).sampleSel = s.sampleSel ∧
    (dropDraw s).wire = s.wire := by
  and_intros <;> rfl

/-- What passes before a step of `SEQ` writes no register that a command writes but the counters' view, `SLP` and `DOUT`. -/
@[simp] theorem passTime_fields (s : State) :
    (passTime s).cfg = s.cfg ∧
    (passTime s).program = s.program ∧
    (passTime s).draws = s.draws.tail ∧
    (passTime s).seq = s.seq ∧
    (passTime s).status = s.status ∧
    (passTime s).res = s.res ∧
    (passTime s).shr = s.shr ∧
    (passTime s).byt = s.byt ∧
    (passTime s).acc = s.acc ∧
    (passTime s).t0 = s.t0 ∧
    (passTime s).ts = s.ts ∧
    (passTime s).ctr = s.ctr ∧
    (passTime s).slp = BitVec.ofNat 42 (s.slp.toNat - s.allowedTicks (s.drawAt 0).ticks) ∧
    (passTime s).ctrs = s.ctrs.map (fun c => addMod s.cfg.cw c (s.allowedTicks (s.drawAt 0).ticks)) ∧
    (passTime s).bound = s.bound ∧
    (passTime s).csel = s.csel ∧
    (passTime s).sel = s.sel ∧
    (passTime s).offset = s.offset ∧
    (passTime s).scale = s.scale ∧
    (passTime s).ie = s.ie ∧
    (passTime s).sck = s.sck ∧
    (passTime s).dout = (s.drawAt 0).dout ∧
    (passTime s).sampleSel = s.sampleSel ∧
    (passTime s).wire = s.wire := by
  and_intros <;> rfl

/-- `PinWrite(SCK, v)` changes the latch and the hidden state alone (R36, R41, R42). -/
@[simp] theorem pinWrite_fields (v : Bool) (s : State) :
    (pinWrite v s).cfg = s.cfg ∧
    (pinWrite v s).program = s.program ∧
    (pinWrite v s).draws = s.draws ∧
    (pinWrite v s).drawCount = s.drawCount ∧
    (pinWrite v s).seq = s.seq ∧
    (pinWrite v s).status = s.status ∧
    (pinWrite v s).res = s.res ∧
    (pinWrite v s).shr = s.shr ∧
    (pinWrite v s).byt = s.byt ∧
    (pinWrite v s).acc = s.acc ∧
    (pinWrite v s).t0 = s.t0 ∧
    (pinWrite v s).ts = s.ts ∧
    (pinWrite v s).ctr = s.ctr ∧
    (pinWrite v s).slp = s.slp ∧
    (pinWrite v s).ctrs = s.ctrs ∧
    (pinWrite v s).bound = s.bound ∧
    (pinWrite v s).csel = s.csel ∧
    (pinWrite v s).sel = s.sel ∧
    (pinWrite v s).offset = s.offset ∧
    (pinWrite v s).scale = s.scale ∧
    (pinWrite v s).ie = s.ie ∧
    (pinWrite v s).sck = v ∧
    (pinWrite v s).dout = s.dout ∧
    (pinWrite v s).chipSel = (if s.strayRise v then .unknown else s.chipSel) ∧
    (pinWrite v s).highTicks = (if v && !s.sck then 0 else s.highTicks) ∧
    (pinWrite v s).chipPd = (v && s.chipPd) ∧
    (pinWrite v s).garbageNext = (s.garbageNext || s.strayRise v) ∧
    (pinWrite v s).frame = s.frame ∧
    (pinWrite v s).pulseTicks = (if v then 0 else s.pulseTicks) ∧
    (pinWrite v s).sampleSel = s.sampleSel ∧
    (pinWrite v s).wire = (if v && !s.sck then .rise :: s.wire else if !v && s.sck then .fall :: s.wire else s.wire) := by
  and_intros <;> rfl

/-- A sample of `DOUT` changes nothing but the record (R57). -/
@[simp] theorem noteSample_fields (s : State) :
    (noteSample s).cfg = s.cfg ∧
    (noteSample s).program = s.program ∧
    (noteSample s).draws = s.draws ∧
    (noteSample s).drawCount = s.drawCount ∧
    (noteSample s).seq = s.seq ∧
    (noteSample s).status = s.status ∧
    (noteSample s).res = s.res ∧
    (noteSample s).shr = s.shr ∧
    (noteSample s).byt = s.byt ∧
    (noteSample s).acc = s.acc ∧
    (noteSample s).t0 = s.t0 ∧
    (noteSample s).ts = s.ts ∧
    (noteSample s).ctr = s.ctr ∧
    (noteSample s).slp = s.slp ∧
    (noteSample s).ctrs = s.ctrs ∧
    (noteSample s).bound = s.bound ∧
    (noteSample s).csel = s.csel ∧
    (noteSample s).sel = s.sel ∧
    (noteSample s).offset = s.offset ∧
    (noteSample s).scale = s.scale ∧
    (noteSample s).ie = s.ie ∧
    (noteSample s).sck = s.sck ∧
    (noteSample s).dout = s.dout ∧
    (noteSample s).chipSel = s.chipSel ∧
    (noteSample s).highTicks = s.highTicks ∧
    (noteSample s).chipPd = s.chipPd ∧
    (noteSample s).garbageNext = s.garbageNext ∧
    (noteSample s).frame = s.frame ∧
    (noteSample s).pulseTicks = s.pulseTicks ∧
    (noteSample s).sampleSel = s.sampleSel ∧
    (noteSample s).wire = .sampled s.dout :: s.wire := by
  and_intros <;> rfl

/-- A readiness check changes nothing but the record (R57). -/
@[simp] theorem noteCheck_fields (s : State) :
    (noteCheck s).cfg = s.cfg ∧
    (noteCheck s).program = s.program ∧
    (noteCheck s).draws = s.draws ∧
    (noteCheck s).drawCount = s.drawCount ∧
    (noteCheck s).seq = s.seq ∧
    (noteCheck s).status = s.status ∧
    (noteCheck s).res = s.res ∧
    (noteCheck s).shr = s.shr ∧
    (noteCheck s).byt = s.byt ∧
    (noteCheck s).acc = s.acc ∧
    (noteCheck s).t0 = s.t0 ∧
    (noteCheck s).ts = s.ts ∧
    (noteCheck s).ctr = s.ctr ∧
    (noteCheck s).slp = s.slp ∧
    (noteCheck s).ctrs = s.ctrs ∧
    (noteCheck s).bound = s.bound ∧
    (noteCheck s).csel = s.csel ∧
    (noteCheck s).sel = s.sel ∧
    (noteCheck s).offset = s.offset ∧
    (noteCheck s).scale = s.scale ∧
    (noteCheck s).ie = s.ie ∧
    (noteCheck s).sck = s.sck ∧
    (noteCheck s).dout = s.dout ∧
    (noteCheck s).chipSel = s.chipSel ∧
    (noteCheck s).highTicks = s.highTicks ∧
    (noteCheck s).chipPd = s.chipPd ∧
    (noteCheck s).garbageNext = s.garbageNext ∧
    (noteCheck s).frame = s.frame ∧
    (noteCheck s).pulseTicks = s.pulseTicks ∧
    (noteCheck s).sampleSel = s.sampleSel ∧
    (noteCheck s).wire = .checked s.dout :: s.wire := by
  and_intros <;> rfl

/-- A frame opens. -/
@[simp] theorem openFrame_fields (s : State) :
    (openFrame s).cfg = s.cfg ∧
    (openFrame s).program = s.program ∧
    (openFrame s).draws = s.draws ∧
    (openFrame s).drawCount = s.drawCount ∧
    (openFrame s).seq = s.seq ∧
    (openFrame s).status = s.status ∧
    (openFrame s).res = s.res ∧
    (openFrame s).shr = s.shr ∧
    (openFrame s).byt = s.byt ∧
    (openFrame s).acc = s.acc ∧
    (openFrame s).t0 = s.t0 ∧
    (openFrame s).ts = s.ts ∧
    (openFrame s).ctr = s.ctr ∧
    (openFrame s).slp = s.slp ∧
    (openFrame s).ctrs = s.ctrs ∧
    (openFrame s).bound = s.bound ∧
    (openFrame s).csel = s.csel ∧
    (openFrame s).sel = s.sel ∧
    (openFrame s).offset = s.offset ∧
    (openFrame s).scale = s.scale ∧
    (openFrame s).ie = s.ie ∧
    (openFrame s).sck = s.sck ∧
    (openFrame s).dout = s.dout ∧
    (openFrame s).chipSel = s.chipSel ∧
    (openFrame s).highTicks = s.highTicks ∧
    (openFrame s).chipPd = s.chipPd ∧
    (openFrame s).garbageNext = s.garbageNext ∧
    (openFrame s).frame = .whole ∧
    (openFrame s).pulseTicks = s.pulseTicks ∧
    (openFrame s).sampleSel = s.sampleSel ∧
    (openFrame s).wire = s.wire := by
  and_intros <;> rfl

/-- The beginning of a shift-in changes the hidden state alone (R42). -/
@[simp] theorem beginShift_fields (s : State) :
    (beginShift s).cfg = s.cfg ∧
    (beginShift s).program = s.program ∧
    (beginShift s).draws = s.draws ∧
    (beginShift s).drawCount = s.drawCount ∧
    (beginShift s).seq = s.seq ∧
    (beginShift s).status = s.status ∧
    (beginShift s).res = s.res ∧
    (beginShift s).shr = s.shr ∧
    (beginShift s).byt = s.byt ∧
    (beginShift s).acc = s.acc ∧
    (beginShift s).t0 = s.t0 ∧
    (beginShift s).ts = s.ts ∧
    (beginShift s).ctr = s.ctr ∧
    (beginShift s).slp = s.slp ∧
    (beginShift s).ctrs = s.ctrs ∧
    (beginShift s).bound = s.bound ∧
    (beginShift s).csel = s.csel ∧
    (beginShift s).sel = s.sel ∧
    (beginShift s).offset = s.offset ∧
    (beginShift s).scale = s.scale ∧
    (beginShift s).ie = s.ie ∧
    (beginShift s).sck = s.sck ∧
    (beginShift s).dout = s.dout ∧
    (beginShift s).chipSel = (if s.sck then .unknown else s.chipSel) ∧
    (beginShift s).highTicks = s.highTicks ∧
    (beginShift s).chipPd = s.chipPd ∧
    (beginShift s).garbageNext = (s.garbageNext || s.sck) ∧
    (beginShift s).frame = (if s.sck && s.frame == .whole then .broken else s.frame) ∧
    (beginShift s).pulseTicks = s.pulseTicks ∧
    (beginShift s).sampleSel = s.sampleSel ∧
    (beginShift s).wire = s.wire := by
  and_intros <;> rfl

/-- The end of a read changes the hidden state alone (R40, R42). -/
@[simp] theorem closeFrame_fields (s : State) :
    (closeFrame s).cfg = s.cfg ∧
    (closeFrame s).program = s.program ∧
    (closeFrame s).draws = s.draws ∧
    (closeFrame s).drawCount = s.drawCount ∧
    (closeFrame s).seq = s.seq ∧
    (closeFrame s).status = s.status ∧
    (closeFrame s).res = s.res ∧
    (closeFrame s).shr = s.shr ∧
    (closeFrame s).byt = s.byt ∧
    (closeFrame s).acc = s.acc ∧
    (closeFrame s).t0 = s.t0 ∧
    (closeFrame s).ts = s.ts ∧
    (closeFrame s).ctr = s.ctr ∧
    (closeFrame s).slp = s.slp ∧
    (closeFrame s).ctrs = s.ctrs ∧
    (closeFrame s).bound = s.bound ∧
    (closeFrame s).csel = s.csel ∧
    (closeFrame s).sel = s.sel ∧
    (closeFrame s).offset = s.offset ∧
    (closeFrame s).scale = s.scale ∧
    (closeFrame s).ie = s.ie ∧
    (closeFrame s).sck = s.sck ∧
    (closeFrame s).dout = s.dout ∧
    (closeFrame s).chipSel = (if s.frame = .whole then .armed s.sel else s.chipSel) ∧
    (closeFrame s).highTicks = s.highTicks ∧
    (closeFrame s).chipPd = s.chipPd ∧
    (closeFrame s).garbageNext = (s.garbageNext && s.frame != .whole) ∧
    (closeFrame s).frame = .outside ∧
    (closeFrame s).pulseTicks = s.pulseTicks ∧
    (closeFrame s).sampleSel = s.sampleSel ∧
    (closeFrame s).wire = s.wire := by
  and_intros <;> rfl

/-- `SEQ` moves, and nothing else. -/
@[simp] theorem goto_fields (i : Instr) (p : Pos) (s : State) :
    (goto i p s).cfg = s.cfg ∧
    (goto i p s).program = s.program ∧
    (goto i p s).draws = s.draws ∧
    (goto i p s).drawCount = s.drawCount ∧
    (goto i p s).seq = .run i p ∧
    (goto i p s).status = s.status ∧
    (goto i p s).res = s.res ∧
    (goto i p s).shr = s.shr ∧
    (goto i p s).byt = s.byt ∧
    (goto i p s).acc = s.acc ∧
    (goto i p s).t0 = s.t0 ∧
    (goto i p s).ts = s.ts ∧
    (goto i p s).ctr = s.ctr ∧
    (goto i p s).slp = s.slp ∧
    (goto i p s).ctrs = s.ctrs ∧
    (goto i p s).bound = s.bound ∧
    (goto i p s).csel = s.csel ∧
    (goto i p s).sel = s.sel ∧
    (goto i p s).offset = s.offset ∧
    (goto i p s).scale = s.scale ∧
    (goto i p s).ie = s.ie ∧
    (goto i p s).sck = s.sck ∧
    (goto i p s).dout = s.dout ∧
    (goto i p s).chipSel = s.chipSel ∧
    (goto i p s).highTicks = s.highTicks ∧
    (goto i p s).chipPd = s.chipPd ∧
    (goto i p s).garbageNext = s.garbageNext ∧
    (goto i p s).frame = s.frame ∧
    (goto i p s).pulseTicks = s.pulseTicks ∧
    (goto i p s).sampleSel = s.sampleSel ∧
    (goto i p s).wire = s.wire := by
  and_intros <;> rfl

/-- The issue of a command changes `SEQ` and `STATUS` alone (R14). -/
@[simp] theorem hostIssue_fields (i : Instr) (s : State) :
    (hostIssue i s).cfg = s.cfg ∧
    (hostIssue i s).program = s.program ∧
    (hostIssue i s).draws = s.draws ∧
    (hostIssue i s).drawCount = s.drawCount ∧
    (hostIssue i s).seq = .run i .act ∧
    (hostIssue i s).status = statusWord 0 true ∧
    (hostIssue i s).res = s.res ∧
    (hostIssue i s).shr = s.shr ∧
    (hostIssue i s).byt = s.byt ∧
    (hostIssue i s).acc = s.acc ∧
    (hostIssue i s).t0 = s.t0 ∧
    (hostIssue i s).ts = s.ts ∧
    (hostIssue i s).ctr = s.ctr ∧
    (hostIssue i s).slp = s.slp ∧
    (hostIssue i s).ctrs = s.ctrs ∧
    (hostIssue i s).bound = s.bound ∧
    (hostIssue i s).csel = s.csel ∧
    (hostIssue i s).sel = s.sel ∧
    (hostIssue i s).offset = s.offset ∧
    (hostIssue i s).scale = s.scale ∧
    (hostIssue i s).ie = s.ie ∧
    (hostIssue i s).sck = s.sck ∧
    (hostIssue i s).dout = s.dout ∧
    (hostIssue i s).chipSel = s.chipSel ∧
    (hostIssue i s).highTicks = s.highTicks ∧
    (hostIssue i s).chipPd = s.chipPd ∧
    (hostIssue i s).garbageNext = s.garbageNext ∧
    (hostIssue i s).frame = s.frame ∧
    (hostIssue i s).pulseTicks = s.pulseTicks ∧
    (hostIssue i s).sampleSel = s.sampleSel ∧
    (hostIssue i s).wire = s.wire := by
  and_intros <;> rfl

/-- `return` changes `SEQ` and `STATUS` alone (R12). -/
@[simp] theorem finish_fields (s : State) :
    (finish s).cfg = s.cfg ∧
    (finish s).program = s.program ∧
    (finish s).draws = s.draws ∧
    (finish s).drawCount = s.drawCount ∧
    (finish s).seq = .idle ∧
    (finish s).status = statusWord 0 false ∧
    (finish s).res = s.res ∧
    (finish s).shr = s.shr ∧
    (finish s).byt = s.byt ∧
    (finish s).acc = s.acc ∧
    (finish s).t0 = s.t0 ∧
    (finish s).ts = s.ts ∧
    (finish s).ctr = s.ctr ∧
    (finish s).slp = s.slp ∧
    (finish s).ctrs = s.ctrs ∧
    (finish s).bound = s.bound ∧
    (finish s).csel = s.csel ∧
    (finish s).sel = s.sel ∧
    (finish s).offset = s.offset ∧
    (finish s).scale = s.scale ∧
    (finish s).ie = s.ie ∧
    (finish s).sck = s.sck ∧
    (finish s).dout = s.dout ∧
    (finish s).chipSel = s.chipSel ∧
    (finish s).highTicks = s.highTicks ∧
    (finish s).chipPd = s.chipPd ∧
    (finish s).garbageNext = s.garbageNext ∧
    (finish s).frame = s.frame ∧
    (finish s).pulseTicks = s.pulseTicks ∧
    (finish s).sampleSel = s.sampleSel ∧
    (finish s).wire = s.wire := by
  and_intros <;> rfl

/-- `return v` changes `SEQ`, `STATUS` and `RES` alone (R12, R22). -/
@[simp] theorem returnValue_fields (v : Nat) (s : State) :
    (returnValue v s).cfg = s.cfg ∧
    (returnValue v s).program = s.program ∧
    (returnValue v s).draws = s.draws ∧
    (returnValue v s).drawCount = s.drawCount ∧
    (returnValue v s).seq = .idle ∧
    (returnValue v s).status = statusWord 0 false ∧
    (returnValue v s).res = v ∧
    (returnValue v s).shr = s.shr ∧
    (returnValue v s).byt = s.byt ∧
    (returnValue v s).acc = s.acc ∧
    (returnValue v s).t0 = s.t0 ∧
    (returnValue v s).ts = s.ts ∧
    (returnValue v s).ctr = s.ctr ∧
    (returnValue v s).slp = s.slp ∧
    (returnValue v s).ctrs = s.ctrs ∧
    (returnValue v s).bound = s.bound ∧
    (returnValue v s).csel = s.csel ∧
    (returnValue v s).sel = s.sel ∧
    (returnValue v s).offset = s.offset ∧
    (returnValue v s).scale = s.scale ∧
    (returnValue v s).ie = s.ie ∧
    (returnValue v s).sck = s.sck ∧
    (returnValue v s).dout = s.dout ∧
    (returnValue v s).chipSel = s.chipSel ∧
    (returnValue v s).highTicks = s.highTicks ∧
    (returnValue v s).chipPd = s.chipPd ∧
    (returnValue v s).garbageNext = s.garbageNext ∧
    (returnValue v s).frame = s.frame ∧
    (returnValue v s).pulseTicks = s.pulseTicks ∧
    (returnValue v s).sampleSel = s.sampleSel ∧
    (returnValue v s).wire = s.wire := by
  and_intros <;> rfl

/-- A fault changes `SEQ` and `STATUS` alone (R130). -/
@[simp] theorem raise_fields (f : FaultCode) (s : State) :
    (raise f s).cfg = s.cfg ∧
    (raise f s).program = s.program ∧
    (raise f s).draws = s.draws ∧
    (raise f s).drawCount = s.drawCount ∧
    (raise f s).seq = .idle ∧
    (raise f s).status = statusWord f.code false ∧
    (raise f s).res = s.res ∧
    (raise f s).shr = s.shr ∧
    (raise f s).byt = s.byt ∧
    (raise f s).acc = s.acc ∧
    (raise f s).t0 = s.t0 ∧
    (raise f s).ts = s.ts ∧
    (raise f s).ctr = s.ctr ∧
    (raise f s).slp = s.slp ∧
    (raise f s).ctrs = s.ctrs ∧
    (raise f s).bound = s.bound ∧
    (raise f s).csel = s.csel ∧
    (raise f s).sel = s.sel ∧
    (raise f s).offset = s.offset ∧
    (raise f s).scale = s.scale ∧
    (raise f s).ie = s.ie ∧
    (raise f s).sck = s.sck ∧
    (raise f s).dout = s.dout ∧
    (raise f s).chipSel = s.chipSel ∧
    (raise f s).highTicks = s.highTicks ∧
    (raise f s).chipPd = s.chipPd ∧
    (raise f s).garbageNext = s.garbageNext ∧
    (raise f s).frame = s.frame ∧
    (raise f s).pulseTicks = s.pulseTicks ∧
    (raise f s).sampleSel = s.sampleSel ∧
    (raise f s).wire = s.wire := by
  and_intros <;> rfl

/-- `SEL <- sel_of(A)` changes `SEL` alone (R106). -/
@[simp] theorem selectGain_fields (g : Word) (s : State) :
    (selectGain g s).cfg = s.cfg ∧
    (selectGain g s).program = s.program ∧
    (selectGain g s).draws = s.draws ∧
    (selectGain g s).drawCount = s.drawCount ∧
    (selectGain g s).seq = s.seq ∧
    (selectGain g s).status = s.status ∧
    (selectGain g s).res = s.res ∧
    (selectGain g s).shr = s.shr ∧
    (selectGain g s).byt = s.byt ∧
    (selectGain g s).acc = s.acc ∧
    (selectGain g s).t0 = s.t0 ∧
    (selectGain g s).ts = s.ts ∧
    (selectGain g s).ctr = s.ctr ∧
    (selectGain g s).slp = s.slp ∧
    (selectGain g s).ctrs = s.ctrs ∧
    (selectGain g s).bound = s.bound ∧
    (selectGain g s).csel = s.csel ∧
    (selectGain g s).sel = (selectorOfGain g).getD s.sel ∧
    (selectGain g s).offset = s.offset ∧
    (selectGain g s).scale = s.scale ∧
    (selectGain g s).ie = s.ie ∧
    (selectGain g s).sck = s.sck ∧
    (selectGain g s).dout = s.dout ∧
    (selectGain g s).chipSel = s.chipSel ∧
    (selectGain g s).highTicks = s.highTicks ∧
    (selectGain g s).chipPd = s.chipPd ∧
    (selectGain g s).garbageNext = s.garbageNext ∧
    (selectGain g s).frame = s.frame ∧
    (selectGain g s).pulseTicks = s.pulseTicks ∧
    (selectGain g s).sampleSel = s.sampleSel ∧
    (selectGain g s).wire = s.wire := by
  and_intros <;> rfl

/-- The host's queue is taken from. -/
@[simp] theorem takeCommand_fields (r : List CmdWord) (s : State) :
    (takeCommand r s).cfg = s.cfg ∧
    (takeCommand r s).program = r ∧
    (takeCommand r s).draws = s.draws ∧
    (takeCommand r s).drawCount = s.drawCount ∧
    (takeCommand r s).seq = s.seq ∧
    (takeCommand r s).status = s.status ∧
    (takeCommand r s).res = s.res ∧
    (takeCommand r s).shr = s.shr ∧
    (takeCommand r s).byt = s.byt ∧
    (takeCommand r s).acc = s.acc ∧
    (takeCommand r s).t0 = s.t0 ∧
    (takeCommand r s).ts = s.ts ∧
    (takeCommand r s).ctr = s.ctr ∧
    (takeCommand r s).slp = s.slp ∧
    (takeCommand r s).ctrs = s.ctrs ∧
    (takeCommand r s).bound = s.bound ∧
    (takeCommand r s).csel = s.csel ∧
    (takeCommand r s).sel = s.sel ∧
    (takeCommand r s).offset = s.offset ∧
    (takeCommand r s).scale = s.scale ∧
    (takeCommand r s).ie = s.ie ∧
    (takeCommand r s).sck = s.sck ∧
    (takeCommand r s).dout = s.dout ∧
    (takeCommand r s).chipSel = s.chipSel ∧
    (takeCommand r s).highTicks = s.highTicks ∧
    (takeCommand r s).chipPd = s.chipPd ∧
    (takeCommand r s).garbageNext = s.garbageNext ∧
    (takeCommand r s).frame = s.frame ∧
    (takeCommand r s).pulseTicks = s.pulseTicks ∧
    (takeCommand r s).sampleSel = s.sampleSel ∧
    (takeCommand r s).wire = s.wire := by
  and_intros <;> rfl

@[simp] theorem elapse_busy (m : Nat) (s : State) : (elapse m s).busy = s.busy := rfl

@[simp] theorem elapse_faultField (m : Nat) (s : State) : (elapse m s).faultField = s.faultField := rfl

@[simp] theorem chipDrive_busy (v : Bool) (s : State) : (chipDrive v s).busy = s.busy := rfl

@[simp] theorem chipDrive_faultField (v : Bool) (s : State) : (chipDrive v s).faultField = s.faultField := rfl

@[simp] theorem dropDraw_busy (s : State) : (dropDraw s).busy = s.busy := rfl

@[simp] theorem dropDraw_faultField (s : State) : (dropDraw s).faultField = s.faultField := rfl

@[simp] theorem passTime_busy (s : State) : (passTime s).busy = s.busy := rfl

@[simp] theorem passTime_faultField (s : State) : (passTime s).faultField = s.faultField := rfl

@[simp] theorem pinWrite_busy (v : Bool) (s : State) : (pinWrite v s).busy = s.busy := rfl

@[simp] theorem pinWrite_faultField (v : Bool) (s : State) : (pinWrite v s).faultField = s.faultField := rfl

@[simp] theorem noteSample_busy (s : State) : (noteSample s).busy = s.busy := rfl

@[simp] theorem noteSample_faultField (s : State) : (noteSample s).faultField = s.faultField := rfl

@[simp] theorem noteCheck_busy (s : State) : (noteCheck s).busy = s.busy := rfl

@[simp] theorem noteCheck_faultField (s : State) : (noteCheck s).faultField = s.faultField := rfl

@[simp] theorem openFrame_busy (s : State) : (openFrame s).busy = s.busy := rfl

@[simp] theorem openFrame_faultField (s : State) : (openFrame s).faultField = s.faultField := rfl

@[simp] theorem beginShift_busy (s : State) : (beginShift s).busy = s.busy := rfl

@[simp] theorem beginShift_faultField (s : State) : (beginShift s).faultField = s.faultField := rfl

@[simp] theorem closeFrame_busy (s : State) : (closeFrame s).busy = s.busy := rfl

@[simp] theorem closeFrame_faultField (s : State) : (closeFrame s).faultField = s.faultField := rfl

@[simp] theorem goto_busy (i : Instr) (p : Pos) (s : State) : (goto i p s).busy = s.busy := rfl

@[simp] theorem goto_faultField (i : Instr) (p : Pos) (s : State) : (goto i p s).faultField = s.faultField := rfl

@[simp] theorem hostIssue_busy (i : Instr) (s : State) : (hostIssue i s).busy = true := statusWord_busy _ _

@[simp] theorem hostIssue_faultField (i : Instr) (s : State) : (hostIssue i s).faultField = 0 := statusWord_fault _ _

@[simp] theorem finish_busy (s : State) : (finish s).busy = false := statusWord_busy _ _

@[simp] theorem finish_faultField (s : State) : (finish s).faultField = 0 := statusWord_fault _ _

@[simp] theorem returnValue_busy (v : Nat) (s : State) : (returnValue v s).busy = false := statusWord_busy _ _

@[simp] theorem returnValue_faultField (v : Nat) (s : State) : (returnValue v s).faultField = 0 := statusWord_fault _ _

@[simp] theorem raise_busy (f : FaultCode) (s : State) : (raise f s).busy = false := statusWord_busy _ _

@[simp] theorem raise_faultField (f : FaultCode) (s : State) : (raise f s).faultField = f.code := statusWord_fault _ _

@[simp] theorem selectGain_busy (g : Word) (s : State) : (selectGain g s).busy = s.busy := rfl

@[simp] theorem selectGain_faultField (g : Word) (s : State) : (selectGain g s).faultField = s.faultField := rfl

@[simp] theorem takeCommand_busy (r : List CmdWord) (s : State) : (takeCommand r s).busy = s.busy := rfl

@[simp] theorem takeCommand_faultField (r : List CmdWord) (s : State) : (takeCommand r s).faultField = s.faultField := rfl

/-- The next draw is gone and the others move up. -/
@[simp] theorem dropDraw_drawAt (s : State) (k : Nat) : (dropDraw s).drawAt k = s.drawAt (k + 1) := by
  rcases h : s.draws with _ | ⟨d, ds⟩
  · simp [State.drawAt, dropDraw, h, Nat.add_assoc, Nat.add_comm 1 k]
  · simp [State.drawAt, dropDraw, h]

@[simp] theorem passTime_drawAt (s : State) (k : Nat) : (passTime s).drawAt k = s.drawAt (k + 1) :=
  dropDraw_drawAt s k

@[simp] theorem elapse_drawAt (m : Nat) (s : State) (k : Nat) : (elapse m s).drawAt k = s.drawAt k := rfl

@[simp] theorem chipDrive_drawAt (v : Bool) (s : State) (k : Nat) : (chipDrive v s).drawAt k = s.drawAt k := rfl

@[simp] theorem pinWrite_drawAt (v : Bool) (s : State) (k : Nat) : (pinWrite v s).drawAt k = s.drawAt k := rfl

@[simp] theorem noteSample_drawAt (s : State) (k : Nat) : (noteSample s).drawAt k = s.drawAt k := rfl

@[simp] theorem noteCheck_drawAt (s : State) (k : Nat) : (noteCheck s).drawAt k = s.drawAt k := rfl

@[simp] theorem openFrame_drawAt (s : State) (k : Nat) : (openFrame s).drawAt k = s.drawAt k := rfl

@[simp] theorem beginShift_drawAt (s : State) (k : Nat) : (beginShift s).drawAt k = s.drawAt k := rfl

@[simp] theorem closeFrame_drawAt (s : State) (k : Nat) : (closeFrame s).drawAt k = s.drawAt k := rfl

@[simp] theorem goto_drawAt (i : Instr) (p : Pos) (s : State) (k : Nat) : (goto i p s).drawAt k = s.drawAt k := rfl

@[simp] theorem hostIssue_drawAt (i : Instr) (s : State) (k : Nat) : (hostIssue i s).drawAt k = s.drawAt k := rfl

@[simp] theorem finish_drawAt (s : State) (k : Nat) : (finish s).drawAt k = s.drawAt k := rfl

@[simp] theorem returnValue_drawAt (v : Nat) (s : State) (k : Nat) : (returnValue v s).drawAt k = s.drawAt k := rfl

@[simp] theorem raise_drawAt (f : FaultCode) (s : State) (k : Nat) : (raise f s).drawAt k = s.drawAt k := rfl

@[simp] theorem selectGain_drawAt (g : Word) (s : State) (k : Nat) : (selectGain g s).drawAt k = s.drawAt k := rfl

@[simp] theorem takeCommand_drawAt (r : List CmdWord) (s : State) (k : Nat) : (takeCommand r s).drawAt k = s.drawAt k := rfl

end Sys2Proof.Machine
end

