-- ==== Sys2Proof/Laws/Ops.lean ====
section
/-!
SUPPORT. What each shared operation can do, said once: the arithmetic of counters, the delay, the sleep, the readiness
check, the run of a command. Later proofs cite these and do not unfold the operations.
-/

namespace Sys2Proof.Machine

/-! ## Arithmetic of `CW`-bit values -/

theorem addMod_lt (w a b : Nat) : addMod w a b < 2 ^ w := Nat.mod_lt _ (Nat.two_pow_pos w)

theorem subMod_lt (w a b : Nat) : subMod w a b < 2 ^ w := Nat.mod_lt _ (Nat.two_pow_pos w)

theorem addMod_addMod (w a m k : Nat) : addMod w (addMod w a m) k = addMod w a (m + k) := by
  simp [addMod, Nat.add_assoc]

theorem addMod_zero (w a : Nat) (h : a < 2 ^ w) : addMod w a 0 = a := by
  simp [addMod, Nat.mod_eq_of_lt h]

/-- The difference of two readings `m` ticks apart is `m` modulo the period (R59). -/
theorem subMod_addMod (w a m : Nat) : subMod w (addMod w a m) a = m % 2 ^ w := by
  have hp := Nat.two_pow_pos w
  have hlt := Nat.mod_lt a hp
  have key : (a + m) % 2 ^ w + (2 ^ w - a % 2 ^ w) ≡ m [MOD 2 ^ w] := by
    have h1 : (a + m) % 2 ^ w + (2 ^ w - a % 2 ^ w) ≡ (a + m) + (2 ^ w - a % 2 ^ w) [MOD 2 ^ w] :=
      (Nat.mod_modEq _ _).add_right _
    have h2 : (a + m) + (2 ^ w - a % 2 ^ w) = m + 2 ^ w * (a / 2 ^ w + 1) := by
      have := Nat.div_add_mod a (2 ^ w)
      have h3 : 2 ^ w * (a / 2 ^ w + 1) = 2 ^ w * (a / 2 ^ w) + 2 ^ w := by ring
      omega
    rw [h2] at h1
    exact h1.trans (by simp [Nat.ModEq])
  exact key

theorem signedPattern_lt (n : Nat) (i : Int) : signedPattern n i < 2 ^ n := by
  have hp : (0 : Int) < (2 ^ n : Nat) := by exact_mod_cast Nat.two_pow_pos n
  have h1 := Int.emod_nonneg i hp.ne'
  have h2 := Int.emod_lt_of_pos i hp
  unfold signedPattern
  omega

/-- The threshold of `Delay(1)` is 0 whatever the parameters: no tick is guaranteed (R86 (b)). -/
@[simp] theorem delayThreshold_one (p : Params) : delayThreshold p 1 = 0 := by
  have hp := Nat.two_pow_pos p.cw
  rcases Nat.eq_zero_or_pos p.cw with h | h
  · simp [delayThreshold, subMod, h, Nat.mod_one]
  · have : 1 < 2 ^ p.cw := Nat.one_lt_two_pow (by omega)
    have h2 : 1 + (2 ^ p.cw - 1 % 2 ^ p.cw) = 2 ^ p.cw := by
      rw [Nat.mod_eq_of_lt this]; omega
    simp [delayThreshold, subMod, h2]

/-- The threshold fits the counter. -/
theorem delayThreshold_lt (p : Params) (n : Nat) : delayThreshold p n < 2 ^ p.cw := by
  have := Nat.two_pow_pos p.cw
  unfold delayThreshold
  split
  · split <;> omega
  · exact subMod_lt _ _ _

/-! ## The procedures -/

/-- Every delay inside a pulse ends at its first poll (R86 (b)). -/
@[simp] theorem delayStep_one_poll (s : State) : delayStep 1 .poll s = (s, .done) := by
  simp [delayStep]

@[simp] theorem delayStep_latch (n : Nat) (s : State) :
    delayStep n .latch s = ({ s with t0 := s.cntRead }, .at_ .poll) := rfl

/-- What a poll of `Delay` can do: end, or wait with nothing changed (R86). -/
theorem delayStep_poll_cases (n : Nat) (s : State) :
    (delayThreshold s.cfg n ≤ subMod s.cfg.cw s.cntRead s.t0 ∧ delayStep n .poll s = (s, .done)) ∨
    (subMod s.cfg.cw s.cntRead s.t0 < delayThreshold s.cfg n ∧ delayStep n .poll s = (s, .waiting .poll)) := by
  by_cases h : delayThreshold s.cfg n ≤ subMod s.cfg.cw s.cntRead s.t0
  · exact .inl ⟨h, by simp [delayStep, h]⟩
  · exact .inr ⟨by omega, by simp [delayStep, h]⟩

/-- What a poll of `Sleep` can do: end, or wait with nothing changed (R87). -/
theorem sleepStep_poll_cases (d : Word) (s : State) :
    (s.slp = 0 ∧ sleepStep d .poll s = (s, .done)) ∨ (s.slp ≠ 0 ∧ sleepStep d .poll s = (s, .waiting .poll)) := by
  by_cases h : s.slp = 0
  · exact .inl ⟨h, if_pos h⟩
  · exact .inr ⟨h, if_neg h⟩

/-- What a readiness check of `WaitReady` can do (R99). -/
theorem waitReadyStep_check_cases (d : Word) (s : State) :
    (s.dout = false ∧ waitReadyStep d .check s = (noteCheck s, .done)) ∨
    (s.dout = true ∧ waitReadyStep d .check s = (noteCheck s, .waiting (.sleep .load))) := by
  cases h : s.dout
  · exact .inl ⟨rfl, by simp [waitReadyStep, State.ready, h]⟩
  · exact .inr ⟨rfl, by simp [waitReadyStep, State.ready, h]⟩

/-! ## The run of a command -/

/-- Every meaning is the run of its command's entry and steps. -/
theorem exec_eq_runCommand (i : Instr) (s : State) : exec i s = runCommand i (entryOf i) (stepsOf i) s := by
  cases i <;> rfl

/-- On an idle block a command is issued and runs (R14). -/
theorem exec_of_idle (i : Instr) (s : State) (h : s.busy = false) :
    exec i s = .next (runSteps (stepsOf i) (stepBudget i) (entryOf i (hostIssue i s))) := by
  simp [exec_eq_runCommand, runCommand, h]

/-- A command in progress goes on. -/
theorem exec_of_running (i : Instr) (p : Pos) (s : State) (hb : s.busy = true) (hs : s.seq = .run i p)
    (hp : posOf i p = true) : exec i s = .next (runSteps (stepsOf i) (stepBudget i) s) := by
  simp [exec_eq_runCommand, runCommand, hb, hs, hp]

/-- The only next states `exec` answers are runs of the command from its issue or from where it stands. -/
theorem exec_next_cases (i : Instr) (s t : State) (h : exec i s = .next t) :
    (s.busy = false ∧ t = runSteps (stepsOf i) (stepBudget i) (entryOf i (hostIssue i s))) ∨
    (s.busy = true ∧ ∃ p, s.seq = .run i p ∧ posOf i p = true ∧ t = runSteps (stepsOf i) (stepBudget i) s) := by
  rw [exec_eq_runCommand, runCommand] at h
  split at h
  · rename_i hb
    split at h
    · rename_i latched p hs
      split at h
      · rename_i hl
        subst hl
        split at h
        · rename_i hp
          exact .inr ⟨hb, p, hs, hp, (Host.Outcome.next.inj h).symm⟩
        · cases h
      · cases h
    · cases h
  · rename_i hb
    exact .inl ⟨by simpa using hb, (Host.Outcome.next.inj h).symm⟩

@[simp] theorem runSteps_zero (steps : CommandSteps) (s : State) : runSteps steps 0 s = s := rfl

/-- A run on an idle block does nothing. -/
theorem runSteps_of_idle (steps : CommandSteps) (k : Nat) (s : State) (h : s.seq = .idle) :
    runSteps steps k s = s := by
  cases k with
  | zero => rfl
  | succ k => simp [runSteps, h]

/-- A step after which the sequencer goes on. -/
theorem runSteps_of_moves (steps : CommandSteps) (k : Nat) (s t : State) (i : Instr) (p : Pos)
    (h : s.seq = .run i p) (hs : steps p (passTime s) = (t, .moves)) :
    runSteps steps (k + 1) s = runSteps steps k t := by
  simp [runSteps, h, hs]

/-- A step that fails the test it waits on ends the run. -/
theorem runSteps_of_waits (steps : CommandSteps) (k : Nat) (s t : State) (i : Instr) (p : Pos)
    (h : s.seq = .run i p) (hs : steps p (passTime s) = (t, .waits)) :
    runSteps steps (k + 1) s = t := by
  simp [runSteps, h, hs]

/-- What time and every step keep, a run keeps. -/
theorem runSteps_preserves {P : State → Prop} (steps : CommandSteps)
    (time : ∀ s, P s → P (passTime s))
    (step : ∀ s i p, s.seq = .run i p → P s → P (steps p s).1) :
    ∀ k s, P s → P (runSteps steps k s) := by
  intro k
  induction k with
  | zero => exact fun s h => h
  | succ k ih =>
    intro s h
    rcases hs : s.seq with _ | ⟨i, p⟩
    · simpa [runSteps, hs] using h
    · have hstep := step (passTime s) i p (by simp [hs]) (time s h)
      rcases hr : steps p (passTime s) with ⟨t, _ | _⟩
      · rw [runSteps_of_moves steps k s t i p hs hr]
        exact ih t (by simpa [hr] using hstep)
      · rw [runSteps_of_waits steps k s t i p hs hr]
        simpa [hr] using hstep

end Sys2Proof.Machine
end

