-- ==== Sys2Proof/Laws/Read.lean ====
section
/-!
SUPPORT. What one `Read` does on a chip that is ready at its first check (42_reader.md R103), said once for every command
that makes a `Read`: `read_frame`. It is put together from the shift-in of a bit, of a byte, and the trailing pulses.
-/

namespace Sys2Proof.Machine

/-! ## What every step inside the critical section leaves alone -/

/-- A frame kept whole so far: the chip's clock-high count is bounded as R15 bounds the ticks. -/
def State.Whole (s : State) : Prop :=
  s.frame = .whole ∧ s.ie = false ∧ s.cfg.tHighMax < pdTimeout ∧
    (s.sck = true → s.highTicks = s.pulseTicks ∧ s.pulseTicks ≤ s.cfg.tHighMax)

/-- A frame broken already. -/
def State.Broken (s : State) : Prop := s.frame = .broken ∧ s.garbageNext = true ∧ s.chipSel = .unknown

/-- A frame that its `Read` has masked, whole so far or broken. -/
def State.Kept (s : State) : Prop := (s.frame = .whole ∧ s.ie = false) ∨ s.Broken

/-- In such a frame the clock has been high for `m` ticks; a frame in which it has been so for the chip's limit is
broken (R41, R42). -/
def State.HeldFor (m : Nat) (s : State) : Prop :=
  (s.frame = .whole ∧ s.ie = false ∧ s.highTicks = m ∧ s.pulseTicks = m ∧ m < pdTimeout) ∨ s.Broken

theorem State.HeldFor.kept {m : Nat} {s : State} (h : s.HeldFor m) : s.Kept := h.imp (fun h => ⟨h.1, h.2.1⟩) id

theorem State.HeldFor.broken {m : Nat} {s : State} (h : s.HeldFor m) (hm : pdTimeout ≤ m) : s.Broken :=
  h.resolve_left fun h => absurd h.2.2.2.2 (by omega)

/-- `n` steps of `SEQ` inside a `Read` lead from `s` to `t`, with the pin events `ev` (newest first). -/
structure Link (n : Nat) (ev : List WireEvent) (s t : State) : Prop where
  cfg : t.cfg = s.cfg
  program : t.program = s.program
  status : t.status = s.status
  res : t.res = s.res
  acc : t.acc = s.acc
  ctr : t.ctr = s.ctr
  ts : t.ts = s.ts
  bound : t.bound = s.bound
  csel : t.csel = s.csel
  sel : t.sel = s.sel
  offset : t.offset = s.offset
  scale : t.scale = s.scale
  ie : t.ie = s.ie
  sampleSel : t.sampleSel = s.sampleSel
  wire : t.wire = ev ++ s.wire
  draws : ∀ k, t.drawAt k = s.drawAt (k + n)
  opened : s.frame ≠ .outside → t.frame ≠ .outside
  whole : s.Whole → t.Whole
  broken : s.Broken → t.Broken
  kept : s.Kept → t.Kept

theorem Link.trans {n m : Nat} {ev ev' : List WireEvent} {s t u : State} (h : Link n ev s t) (h' : Link m ev' t u) :
    Link (n + m) (ev' ++ ev) s u where
  cfg := h'.cfg.trans h.cfg
  program := h'.program.trans h.program
  status := h'.status.trans h.status
  res := h'.res.trans h.res
  acc := h'.acc.trans h.acc
  ctr := h'.ctr.trans h.ctr
  ts := h'.ts.trans h.ts
  bound := h'.bound.trans h.bound
  csel := h'.csel.trans h.csel
  sel := h'.sel.trans h.sel
  offset := h'.offset.trans h.offset
  scale := h'.scale.trans h.scale
  ie := h'.ie.trans h.ie
  sampleSel := h'.sampleSel.trans h.sampleSel
  wire := by rw [h'.wire, h.wire, List.append_assoc]
  draws := fun k => by rw [h'.draws, h.draws, Nat.add_assoc, Nat.add_comm m n]
  opened := fun hs => h'.opened (h.opened hs)
  whole := fun hs => h'.whole (h.whole hs)
  broken := fun hs => h'.broken (h.broken hs)
  kept := fun hs => h'.kept (h.kept hs)

/-- Time inside a whole frame does not trip the chip (R15, R41). -/
theorem passTime_whole (s : State) (h : s.Whole) : (passTime s).Whole := by
  obtain ⟨hf, hie, hmax, hp⟩ := h
  rcases hsck : s.sck with _ | _
  · have hb : ∀ m, s.breaksFrame m = false := fun m => by simp [State.breaksFrame, State.trips, hsck]
    have hframe : (passTime s).frame =
        if s.breaksFrame (s.allowedTicks (s.drawAt 0).ticks) then .broken else s.frame := rfl
    exact ⟨by simp [hframe, hb, hf], by simpa using hie, by simpa using hmax, by simp [hsck]⟩
  · obtain ⟨heq, hle⟩ := hp hsck
    have hin : s.inMaskedPulse = true := by simp [State.inMaskedPulse, hie, hsck, hf]
    have hall : s.allowedTicks (s.drawAt 0).ticks ≤ s.cfg.tHighMax - s.pulseTicks := by
      simp [State.allowedTicks, hin]
    have hb : s.breaksFrame (s.allowedTicks (s.drawAt 0).ticks) = false := by
      have : ¬ pdTimeout ≤ s.highTicks + s.allowedTicks (s.drawAt 0).ticks := by omega
      simp [State.breaksFrame, State.trips, this]
    have hframe : (passTime s).frame =
        if s.breaksFrame (s.allowedTicks (s.drawAt 0).ticks) then .broken else s.frame := rfl
    have hhigh : (passTime s).highTicks =
        if s.sck then s.highTicks + s.allowedTicks (s.drawAt 0).ticks else s.highTicks := rfl
    have hpulse : (passTime s).pulseTicks =
        if s.inMaskedPulse then s.pulseTicks + s.allowedTicks (s.drawAt 0).ticks else s.pulseTicks := rfl
    refine ⟨by simp [hframe, hb, hf], by simpa using hie, by simpa using hmax, fun _ => ?_⟩
    rw [hhigh, hpulse, hsck, hin]
    simp only [if_true, passTime_fields]
    omega

theorem passTime_broken (s : State) (h : s.Broken) : (passTime s).Broken := by
  have hframe : (passTime s).frame =
      if s.breaksFrame (s.allowedTicks (s.drawAt 0).ticks) then .broken else s.frame := rfl
  have hgarbage : (passTime s).garbageNext =
      (s.garbageNext || s.breaksFrame (s.allowedTicks (s.drawAt 0).ticks)) := rfl
  have hchip : (passTime s).chipSel =
      if s.breaksFrame (s.allowedTicks (s.drawAt 0).ticks) then .unknown else s.chipSel := rfl
  exact ⟨by simp [hframe, h.1], by simp [hgarbage, h.2.1], by simp [hchip, h.2.2]⟩

/-- Time keeps a masked frame one: it stays whole, or the chip's limit breaks it (R42). -/
theorem passTime_kept (s : State) (h : s.Kept) : (passTime s).Kept := by
  rcases h with ⟨hf, hie⟩ | h
  · cases hb : s.breaksFrame (s.allowedTicks (s.drawAt 0).ticks)
    · refine .inl ⟨?_, by simpa using hie⟩
      show (if s.breaksFrame _ then Frame.broken else s.frame) = _
      rw [hb]; exact hf
    · refine .inr ⟨?_, ?_, ?_⟩
      · show (if s.breaksFrame _ then Frame.broken else s.frame) = _
        rw [hb]; rfl
      · show (s.garbageNext || s.breaksFrame _) = _
        rw [hb, Bool.or_true]
      · show (if s.breaksFrame _ then ChipSel.unknown else s.chipSel) = _
        rw [hb]; rfl
  · exact .inr (passTime_broken s h)

/-- Time in a high phase, where `T_HIGH_MAX` does not stop it below the chip's limit: the ticks are counted, and at the
limit the frame is broken (R15, R41, R42). -/
theorem passTime_heldFor (s : State) (m : Nat) (h : s.HeldFor m) (hsck : s.sck = true)
    (hmax : pdTimeout ≤ s.cfg.tHighMax) : (passTime s).HeldFor (m + (s.drawAt 0).ticks) := by
  rcases h with ⟨hf, hie, hh, hp, hm⟩ | h
  · have hin : s.inMaskedPulse = true := by simp [State.inMaskedPulse, hie, hsck, hf]
    have hall : s.allowedTicks (s.drawAt 0).ticks = min (s.drawAt 0).ticks (s.cfg.tHighMax - m) := by
      simp [State.allowedTicks, hin, hp]
    have hframe : (passTime s).frame =
        if s.breaksFrame (s.allowedTicks (s.drawAt 0).ticks) then .broken else s.frame := rfl
    by_cases hlt : m + (s.drawAt 0).ticks < pdTimeout
    · have hticks : s.allowedTicks (s.drawAt 0).ticks = (s.drawAt 0).ticks := by rw [hall]; omega
      have hb : s.breaksFrame (s.allowedTicks (s.drawAt 0).ticks) = false := by
        have : ¬ pdTimeout ≤ s.highTicks + (s.drawAt 0).ticks := by omega
        simp [State.breaksFrame, State.trips, hticks, this]
      refine .inl ⟨by simp [hframe, hb, hf], by simpa using hie, ?_, ?_, hlt⟩
      · show (if s.sck then s.highTicks + s.allowedTicks _ else s.highTicks) = _
        rw [hsck, if_pos rfl, hticks, hh]
      · show (if s.inMaskedPulse then s.pulseTicks + s.allowedTicks _ else s.pulseTicks) = _
        rw [hin, if_pos rfl, hticks, hp]
    · have hb : s.breaksFrame (s.allowedTicks (s.drawAt 0).ticks) = true := by
        have h1 : 0 < s.allowedTicks (s.drawAt 0).ticks := by rw [hall]; omega
        have h2 : pdTimeout ≤ s.highTicks + s.allowedTicks (s.drawAt 0).ticks := by rw [hall]; omega
        simp [State.breaksFrame, State.trips, hsck, h1, h2, hf]
      refine .inr ⟨by simp [hframe, hb], ?_, ?_⟩
      · show (s.garbageNext || s.breaksFrame _) = _
        rw [hb, Bool.or_true]
      · show (if s.breaksFrame _ then ChipSel.unknown else s.chipSel) = _
        rw [hb]; rfl
  · exact .inr (passTime_broken s h)

theorem passTime_opened (s : State) (h : s.frame ≠ .outside) : (passTime s).frame ≠ .outside := by
  have hframe : (passTime s).frame =
      if s.breaksFrame (s.allowedTicks (s.drawAt 0).ticks) then .broken else s.frame := rfl
  rw [hframe]
  split
  · simp
  · exact h

/-- Time, on a block outside every frame, leaves the chip's selection and the distrust as they are (R42). -/
theorem passTime_of_outside (s : State) (h : s.frame = .outside) :
    (passTime s).frame = .outside ∧ (passTime s).chipSel = s.chipSel ∧ (passTime s).garbageNext = s.garbageNext := by
  have hb : ∀ m, s.breaksFrame m = false := fun m => by simp [State.breaksFrame, h]
  refine ⟨?_, ?_, ?_⟩
  · show (if s.breaksFrame _ then Frame.broken else s.frame) = _
    simp [hb, h]
  · show (if s.breaksFrame _ then ChipSel.unknown else s.chipSel) = _
    simp [hb]
  · show (s.garbageNext || s.breaksFrame _) = _
    simp [hb]

theorem passTime_link (s : State) : Link 1 [] s (passTime s) := by
  constructor <;>
    first
      | exact fun k => passTime_drawAt s k
      | exact passTime_opened s
      | exact passTime_whole s
      | exact passTime_broken s
      | exact passTime_kept s
      | simp

/-- A step of `SEQ` whose effect is on the latches, the byte and word registers and `SEQ` alone. -/
theorem Link.step {s t : State} (ev : List WireEvent) (h : Link 0 ev (passTime s) t) : Link 1 ev s t := by
  simpa using (passTime_link s).trans h

/-- An operation that changes none of `Link`'s fields. -/
theorem link_t0 (s : State) (v : Nat) : Link 0 [] s { s with t0 := v } := by
  constructor <;> first | exact fun _ => rfl | exact fun h => h | rfl

theorem link_goto (s : State) (i : Instr) (p : Pos) : Link 0 [] s (goto i p s) := by
  constructor <;> first | exact fun _ => rfl | exact fun h => h | rfl

theorem link_shr_byt (s : State) (shr : SampleWord) (byt : Byte) : Link 0 [] s { s with shr := shr, byt := byt } := by
  constructor <;> first | exact fun _ => rfl | exact fun h => h | rfl

theorem link_noteSample (s : State) (byt : Byte) :
    Link 0 [.sampled s.dout] s { noteSample s with byt := byt } := by
  constructor <;> first | exact fun _ => rfl | exact fun h => h | rfl

/-- A falling edge inside a frame. -/
theorem link_low (s : State) (hsck : s.sck = true) : Link 0 [.fall] s (pinWrite false s) := by
  constructor <;>
    first
      | exact fun _ => rfl
      | exact fun h => h
      | exact fun h => ⟨h.1, h.2.1, h.2.2.1, by simp⟩
      | exact fun h => ⟨h.1, by simp [h.2.1], by simp [h.2.2]⟩
      | exact fun h => h.imp id fun h => ⟨h.1, by simp [h.2.1], by simp [h.2.2]⟩
      | simp [hsck]

/-- A rising edge inside a frame. -/
theorem link_high (s : State) (hsck : s.sck = false) : Link 0 [.rise] s (pinWrite true s) := by
  constructor <;>
    first
      | exact fun _ => rfl
      | exact fun h => h
      | exact fun h => ⟨h.1, h.2.1, h.2.2.1, by simp [hsck]⟩
      | exact fun h => ⟨h.1, by simp [h.2.1], by simp [h.2.2]⟩
      | exact fun h => h.imp id fun h => ⟨h.1, by simp [h.2.1], by simp [h.2.2]⟩
      | simp [hsck]

/-- A rising edge of a masked frame starts the count. -/
theorem heldFor_rise (s : State) (hsck : s.sck = false) (h : s.Kept) : (pinWrite true s).HeldFor 0 := by
  rcases h with ⟨hf, hie⟩ | h
  · exact .inl ⟨hf, hie, by simp [hsck], by simp, by decide⟩
  · exact .inr ⟨h.1, by simp [h.2.1], by simp [h.2.2]⟩

@[simp] theorem ticksFrom_zero (s : State) (start : Nat) : s.ticksFrom start 0 = 0 := rfl

theorem ticksFrom_succ (s : State) (start n : Nat) :
    s.ticksFrom start (n + 1) = s.ticksFrom start n + (s.drawAt (start + n)).ticks := by
  simp [State.ticksFrom, List.range_succ]

/-- The ticks before a number of steps, seen from a later state of the same environment. -/
theorem ticksFrom_shift {s t : State} {n : Nat} (h : ∀ k, t.drawAt k = s.drawAt (k + n)) (start m : Nat) :
    t.ticksFrom start m = s.ticksFrom (start + n) m := by
  simp only [State.ticksFrom, h, Nat.add_right_comm]

/-! ## The steps of a `Read` inside a command -/

section
variable {steps : CommandSteps} {i : Instr} {after : State → State}

/-- A step after which the read goes on. -/
theorem read_at (hc : ∀ r s, steps (.read r) s = calling i .read after (readStep r s)) {s t : State} {r r' : ReadPos}
    (k : Nat) (hs : s.seq = .run i (.read r)) (hr : readStep r (passTime s) = (t, .at_ r')) :
    runSteps steps (k + 1) s = runSteps steps k (goto i (.read r') t) :=
  runSteps_of_moves steps k s _ i _ hs (by rw [hc, hr]; rfl)

/-- The last step of a read. -/
theorem read_done (hc : ∀ r s, steps (.read r) s = calling i .read after (readStep r s)) {s t : State} {r : ReadPos}
    (k : Nat) (hs : s.seq = .run i (.read r)) (hr : readStep r (passTime s) = (t, .done)) :
    runSteps steps (k + 1) s = runSteps steps k (after t) :=
  runSteps_of_moves steps k s _ i _ hs (by rw [hc, hr]; rfl)

/-- A readiness check that fails: the command stands before a sleep (R99). -/
theorem read_check_fails (hc : ∀ r s, steps (.read r) s = calling i .read after (readStep r s)) (k : Nat) (s : State)
    (hs : s.seq = .run i (.read readStart)) (hd : (s.drawAt 0).dout = true) :
    runSteps steps (k + 1) s =
      { passTime s with wire := .checked true :: s.wire, seq := .run i (.read (.wait (.sleep .load))) } := by
  have hr : (passTime s).ready = false := by simp [State.ready, hd]
  have hw : noteCheck (passTime s) = { passTime s with wire := .checked true :: s.wire } := by simp [noteCheck, hd]
  refine runSteps_of_waits steps k s _ i _ hs ?_
  rw [hc]
  simp only [readStep, readStart, waitReadyStep, hr, hw]
  rfl

/-- The sleep is loaded, and polled next (R87). -/
theorem read_sleep_load (hc : ∀ r s, steps (.read r) s = calling i .read after (readStep r s)) (k : Nat) (s : State)
    (hs : s.seq = .run i (.read (.wait (.sleep .load)))) :
    runSteps steps (k + 1) s = runSteps steps k { passTime s with
      slp := BitVec.ofNat 42 (1000 * s.cfg.readPollDelay.toNat), seq := .run i (.read (.wait (.sleep .poll))) } :=
  read_at hc k hs rfl

/-- A poll while the sleep lasts (R87). -/
theorem read_poll_waits (hc : ∀ r s, steps (.read r) s = calling i .read after (readStep r s)) (k : Nat) (s : State)
    (hs : s.seq = .run i (.read (.wait (.sleep .poll)))) (hz : (passTime s).slp ≠ 0) :
    runSteps steps (k + 1) s = passTime s := by
  refine runSteps_of_waits steps k s _ i _ hs ?_
  have hgoto : goto i (.read (.wait (.sleep .poll))) (passTime s) = passTime s := by
    rw [goto, ← hs]; rfl
  rw [hc]
  simp only [readStep, waitReadyStep, sleepStep, if_neg hz]
  exact congrArg (·, Progress.waits) hgoto

/-- The poll that ends the sleep: the next check follows (R87, R99). -/
theorem read_poll_ends (hc : ∀ r s, steps (.read r) s = calling i .read after (readStep r s)) (k : Nat) (s : State)
    (hs : s.seq = .run i (.read (.wait (.sleep .poll)))) (hz : (passTime s).slp = 0) :
    runSteps steps (k + 1) s = runSteps steps k (goto i (.read readStart) (passTime s)) :=
  read_at hc k hs (by simp only [readStep, waitReadyStep, sleepStep, if_pos hz]; rfl)

/-- What follows the last step of byte `j`: the byte is stored, and the next byte or the pulse train begins (R103). -/
def endByte (i : Instr) (j : Fin 3) (t : State) : State :=
  if j = 2 then goto i (.read (.pulse 1 (pulses t.sel) .high)) { t with shr := storeByte j t.byt t.shr }
  else goto i (.read (.byte (j + 1) shiftStart)) { t with shr := storeByte j t.byt t.shr, byt := 0 }

/-- A bit, from the step after its rising edge to its last one (R94). -/
theorem bit_tail (hc : ∀ r s, steps (.read r) s = calling i .read after (readStep r s)) (s : State)
    (j : Fin 3) (b : Fin 8) (hs : s.seq = .run i (.read (.byte j ⟨b, .settle .latch⟩))) (hsck : s.sck = true) :
    ∃ t, Link 6 [.fall, .sampled (s.drawAt 2).dout] s t ∧ t.sck = false ∧ t.shr = s.shr ∧
      t.byt = assembleBit .msbFirst b (s.drawAt 2).dout s.byt ∧
      (s.HeldFor 0 → pdTimeout ≤ s.cfg.tHighMax → pdTimeout ≤ s.ticksFrom 0 4 → t.Broken) ∧
      ∀ k, runSteps steps (k + 6) s =
        runSteps steps k (if b = 7 then endByte i j t else goto i (.read (.byte j ⟨b + 1, .high⟩)) t) := by
  obtain ⟨s1, h1⟩ : ∃ s1, s1 = goto i (.read (.byte j ⟨b, .settle .poll⟩))
      { passTime s with t0 := (passTime s).cntRead } := ⟨_, rfl⟩
  obtain ⟨s2, h2⟩ : ∃ s2, s2 = goto i (.read (.byte j ⟨b, .sample⟩)) (passTime s1) := ⟨_, rfl⟩
  obtain ⟨s3, h3⟩ : ∃ s3, s3 = goto i (.read (.byte j ⟨b, .low⟩))
      { noteSample (passTime s2) with
        byt := assembleBit .msbFirst b (passTime s2).dout (passTime s2).byt } := ⟨_, rfl⟩
  obtain ⟨s4, h4⟩ : ∃ s4, s4 = goto i (.read (.byte j ⟨b, .hold .latch⟩)) (pinWrite false (passTime s3)) := ⟨_, rfl⟩
  obtain ⟨s5, h5⟩ : ∃ s5, s5 = goto i (.read (.byte j ⟨b, .hold .poll⟩))
      { passTime s4 with t0 := (passTime s4).cntRead } := ⟨_, rfl⟩
  have l1 : Link 1 [] s s1 := by
    rw [h1]; exact Link.step [] ((link_t0 _ _).trans (link_goto _ _ _))
  have l2 : Link 1 [] s1 s2 := by rw [h2]; exact Link.step [] (link_goto _ _ _)
  have l3 : Link 1 [.sampled (passTime s2).dout] s2 s3 := by
    rw [h3]; exact Link.step _ ((link_noteSample _ _).trans (link_goto _ _ _))
  have hsck3 : s3.sck = true := by simp [h3, h2, h1, hsck]
  have l4 : Link 1 [.fall] s3 s4 := by
    rw [h4]; exact Link.step _ ((link_low _ (by simpa using hsck3)).trans (link_goto _ _ _))
  have l5 : Link 1 [] s4 s5 := by
    rw [h5]; exact Link.step [] ((link_t0 _ _).trans (link_goto _ _ _))
  have hd : (s2.drawAt 0).dout = (s.drawAt 2).dout := by simp [l2.draws, l1.draws]
  refine ⟨passTime s5, ?_, ?_, ?_, ?_, ?_, ?_⟩
  · have := ((((l1.trans l2).trans l3).trans l4).trans l5).trans (passTime_link s5)
    simpa [hd] using this
  · simp [h5, h4]
  · simp [h5, h4, h3, h2, h1]
  · have hb3 : s3.byt = assembleBit .msbFirst b (s2.drawAt 0).dout s2.byt := by rw [h3]; rfl
    have hb2 : s2.byt = s.byt := by simp [h2, h1]
    rw [hd, hb2] at hb3
    simpa [h5, h4] using hb3
  · intro hheld hmax hlong
    have g1 : s1.HeldFor (0 + (s.drawAt 0).ticks) := by rw [h1]; exact passTime_heldFor s 0 hheld hsck hmax
    have g2 : s2.HeldFor (0 + (s.drawAt 0).ticks + (s1.drawAt 0).ticks) := by
      rw [h2]; exact passTime_heldFor s1 _ g1 (by simp [h1, hsck]) (by rw [l1.cfg]; exact hmax)
    have g3 : s3.HeldFor (0 + (s.drawAt 0).ticks + (s1.drawAt 0).ticks + (s2.drawAt 0).ticks) := by
      rw [h3]; exact passTime_heldFor s2 _ g2 (by simp [h2, h1, hsck]) (by rw [l2.cfg, l1.cfg]; exact hmax)
    have g4 := passTime_heldFor s3 _ g3 hsck3 (by rw [l3.cfg, l2.cfg, l1.cfg]; exact hmax)
    have hb : (passTime s3).Broken := g4.broken (by
      simpa [ticksFrom_succ, l3.draws, l2.draws, l1.draws] using hlong)
    have hb4 : s4.Broken := by
      rw [h4]
      exact (link_goto _ _ _).broken ((link_low _ (by simpa using hsck3)).broken hb)
    exact passTime_broken s5 (l5.broken hb4)
  · intro k
    have e1 : runSteps steps (k + 6) s = runSteps steps (k + 5) s1 := by
      rw [h1]; exact read_at hc (k + 5) hs (by simp [readStep, shiftInStep, ProcOut.within, shiftStart])
    have e2 : runSteps steps (k + 5) s1 = runSteps steps (k + 4) s2 := by
      rw [h2]
      exact read_at hc (k + 4) (by rw [h1]; rfl) (by simp [readStep, shiftInStep, ProcOut.within, shiftStart])
    have e3 : runSteps steps (k + 4) s2 = runSteps steps (k + 3) s3 := by
      rw [h3]
      exact read_at hc (k + 3) (by rw [h2]; rfl) (by simp [readStep, shiftInStep, ProcOut.within, shiftStart])
    have e4 : runSteps steps (k + 3) s3 = runSteps steps (k + 2) s4 := by
      rw [h4]
      exact read_at hc (k + 2) (by rw [h3]; rfl) (by simp [readStep, shiftInStep, ProcOut.within, shiftStart])
    have e5 : runSteps steps (k + 2) s4 = runSteps steps (k + 1) s5 := by
      rw [h5]
      exact read_at hc (k + 1) (by rw [h4]; rfl) (by simp [readStep, shiftInStep, ProcOut.within, shiftStart])
    rw [e1, e2, e3, e4, e5]
    have hs5 : s5.seq = .run i (.read (.byte j ⟨b, .hold .poll⟩)) := by rw [h5]; rfl
    by_cases hb : b = 7
    · rw [if_pos hb]
      by_cases hj : j = 2
      · rw [show endByte i j (passTime s5) = goto i (.read (.pulse 1 (pulses (passTime s5).sel) .high))
          { passTime s5 with shr := storeByte j (passTime s5).byt (passTime s5).shr } from by simp [endByte, hj]]
        exact read_at hc k hs5 (by simp [readStep, shiftInStep, ProcOut.within, shiftStart, hb, hj])
      · rw [show endByte i j (passTime s5) = goto i (.read (.byte (j + 1) shiftStart))
          { passTime s5 with shr := storeByte j (passTime s5).byt (passTime s5).shr, byt := 0 } from by
            simp [endByte, hj]]
        exact read_at hc k hs5 (by simp [readStep, shiftInStep, ProcOut.within, shiftStart, hb, hj])
    · rw [if_neg hb]
      exact read_at hc k hs5 (by simp [readStep, shiftInStep, ProcOut.within, shiftStart, hb])

/-- With `SCK` low a shift-in begins without a trace. -/
theorem beginShift_of_low (s : State) (h : s.sck = false) : beginShift s = s := by
  cases s; simp_all [beginShift]

/-- A rising edge inside an open frame, other than the frame's first. -/
theorem bit_high (hc : ∀ r s, steps (.read r) s = calling i .read after (readStep r s)) (s : State)
    (j : Fin 3) (b : Fin 8) (hs : s.seq = .run i (.read (.byte j ⟨b, .high⟩))) (hfirst : ¬(j = 0 ∧ b = 0))
    (hsck : s.sck = false) :
    ∃ t, Link 1 [.rise] s t ∧ t.sck = true ∧ t.shr = s.shr ∧ t.byt = s.byt ∧
      t.seq = .run i (.read (.byte j ⟨b, .settle .latch⟩)) ∧ (s.Kept → t.HeldFor 0) ∧
      ∀ k, runSteps steps (k + 1) s = runSteps steps k t := by
  have hbegin : b = 0 → beginShift (passTime s) = passTime s := by
    exact fun _ => beginShift_of_low _ (by simpa using hsck)
  have hsame : (if b = 0 then beginShift (passTime s) else passTime s) = passTime s := by
    split
    · rename_i hb; exact hbegin hb
    · rfl
  have hns : ¬(j = 0 ∧ (⟨b, .high⟩ : ShiftPos) = shiftStart) := by
    simpa [shiftStart] using hfirst
  refine ⟨goto i (.read (.byte j ⟨b, .settle .latch⟩)) (pinWrite true (passTime s)), ?_, ?_, ?_, ?_, rfl, ?_, ?_⟩
  · exact Link.step _ ((link_high _ (by simpa using hsck)).trans (link_goto _ _ _))
  · simp
  · simp
  · simp
  · exact fun h => heldFor_rise _ (by simpa using hsck) (passTime_kept s h)
  · exact fun k => read_at hc k hs (by simp [readStep, shiftInStep, ProcOut.within, hns, hsame])

/-- The pin events of `m + 1` bits after the first one's rising edge, newest first; `bits` are the samples in order. -/
def tailEvents : Nat → (Nat → Bool) → List WireEvent
  | 0, bits => [.fall, .sampled (bits 0)]
  | m + 1, bits => tailEvents m (fun p => bits (p + 1)) ++ [.rise, .fall, .sampled (bits 0)]

theorem assembleBit_msb_getLsbD (b : Fin 8) (x : Bool) (byt : Byte) (q : Nat) (hq : q < 8) :
    (assembleBit .msbFirst b x byt).getLsbD q = (byt.getLsbD q || (decide (q = 7 - b.val) && x)) := by
  have hb := b.isLt
  cases x
  · simp [assembleBit]
  · simp only [assembleBit, bitIndex, BitVec.getLsbD_or, BitVec.getLsbD_shiftLeft, BitVec.getLsbD_setWidth]
    by_cases h : q = 7 - b.val
    · subst h; simp; omega
    · by_cases h2 : q < 7 - b.val
      · simp [h, h2]
      · have : q - (7 - b.val) ≠ 0 := by omega
        simp [h, this]

/-- The rest of a byte, from the step after a rising edge on, where `m` bits follow this one (R94, R103). -/
theorem byte_tail (hc : ∀ r s, steps (.read r) s = calling i .read after (readStep r s)) (j : Fin 3) :
    ∀ (m : Nat) (b : Fin 8) (s : State), b.val + m = 7 →
      s.seq = .run i (.read (.byte j ⟨b, .settle .latch⟩)) → s.sck = true → s.frame ≠ .outside →
      ∃ t, Link (7 * m + 6) (tailEvents m fun p => (s.drawAt (2 + 7 * p)).dout) s t ∧ t.sck = false ∧ t.shr = s.shr ∧
        (∀ q < 8, t.byt.getLsbD q =
          (s.byt.getLsbD q || (decide (b.val ≤ 7 - q) && (s.drawAt (2 + 7 * (7 - q - b.val))).dout))) ∧
        (s.HeldFor 0 → pdTimeout ≤ s.cfg.tHighMax → ∀ p ≤ m, pdTimeout ≤ s.ticksFrom (7 * p) 4 → t.Broken) ∧
        ∀ k, runSteps steps (k + (7 * m + 6)) s = runSteps steps k (endByte i j t) := by
  intro m
  induction m with
  | zero =>
    intro b s hb hs hsck _
    have hb7 : b = 7 := Fin.ext (by simpa using hb)
    obtain ⟨t, hl, h1, h2, h3, hx, h4⟩ := bit_tail hc s j b hs hsck
    rw [if_pos hb7] at h4
    refine ⟨t, by simpa [tailEvents] using hl, h1, h2, ?_, fun hh hmax p hp hlong => hx hh hmax ?_, by simpa using h4⟩
    swap
    · rwa [Nat.le_zero.1 hp] at hlong
    intro q hq
    rw [h3, assembleBit_msb_getLsbD b _ _ q hq, hb7]
    by_cases h0 : q = 0
    · subst h0; simp
    · have : ¬ (7 ≤ 7 - q) := by omega
      simp [h0, this]
  | succ m ih =>
    intro b s hb hs hsck hopen
    have hb7 : b ≠ 7 := fun h => by rw [h] at hb; simp at hb
    obtain ⟨t, hl, h1, h2, h3, hx, h4⟩ := bit_tail hc s j b hs hsck
    rw [if_neg hb7] at h4
    have hbv : (b + 1).val = b.val + 1 := by
      have := b.isLt
      simp only [Fin.val_add, Fin.val_one]; omega
    obtain ⟨t', hl', h1', h2', h3', hs', hx', h4'⟩ :=
      bit_high hc (goto i (.read (.byte j ⟨b + 1, .high⟩)) t) j (b + 1) rfl
        (by rintro ⟨_, h⟩; rw [h] at hbv; simp at hbv) (by simpa using h1)
    have hlink := (hl.trans (link_goto t i (.read (.byte j ⟨b + 1, .high⟩)))).trans hl'
    obtain ⟨u, hlu, hu1, hu2, hu3, hux, hu4⟩ := ih (b + 1) t' (by omega) hs' h1' (hlink.opened hopen)
    have hdraw : ∀ p, t'.drawAt p = s.drawAt (p + 7) := fun p => by
      rw [hlink.draws p]
    refine ⟨u, ?_, hu1, ?_, ?_, ?_, ?_⟩
    · have := hlink.trans hlu
      have e1 : 6 + 0 + 1 + (7 * m + 6) = 7 * (m + 1) + 6 := by omega
      rw [e1] at this
      have e2 : (tailEvents m fun p => (t'.drawAt (2 + 7 * p)).dout) ++ ([WireEvent.rise] ++
          ([] ++ [WireEvent.fall, .sampled (s.drawAt 2).dout])) =
          tailEvents (m + 1) fun p => (s.drawAt (2 + 7 * p)).dout := by
        simp only [tailEvents, hdraw, List.nil_append, List.singleton_append]
        congr 2
      rw [e2] at this
      exact this
    · rw [hu2, h2']; simpa using h2
    · intro q hq
      have hbyt : t'.byt = assembleBit .msbFirst b (s.drawAt 2).dout s.byt := by rw [h3']; simpa using h3
      rw [hu3 q hq, hbyt, assembleBit_msb_getLsbD b _ _ q hq, hdraw, hbv]
      have hb := b.isLt
      by_cases hq1 : q = 7 - b.val
      · have e1 : ¬(b.val + 1 ≤ 7 - q) := by omega
        have e2 : b.val ≤ 7 - q := by omega
        have e3 : 7 - q - b.val = 0 := by omega
        have e4 : decide (q = 7 - b.val) = true := by simpa using hq1
        rw [e4]
        simp [e1, e2, e3]
      · by_cases hq2 : b.val + 1 ≤ 7 - q
        · have e1 : b.val ≤ 7 - q := by omega
          have e2 : 2 + 7 * (7 - q - (b.val + 1)) + 7 = 2 + 7 * (7 - q - b.val) := by omega
          simp [hq1, hq2, e1, e2]
        · have e1 : ¬(b.val ≤ 7 - q) := by omega
          simp [hq1, hq2, e1]
    · intro hh hmax p hp hlong
      rcases p with _ | p
      · exact hlu.broken (hl'.broken ((link_goto _ _ _).broken (hx hh hmax hlong)))
      · refine hux (hx' ((link_goto _ _ _).kept (hl.kept hh.kept))) (by rw [hlink.cfg]; exact hmax) p (by omega) ?_
        rw [ticksFrom_shift hdraw, show 7 * p + 7 = 7 * (p + 1) by omega]
        exact hlong
    · intro k
      rw [show k + (7 * (m + 1) + 6) = k + (7 * m + 6) + 1 + 6 by omega, h4, h4', hu4]

/-- What a state inside a `Read` keeps when it begins its first shift-in: with `SCK` low the frame is whole, with `SCK`
high it is broken and its first rising edge is lost (R42, R94). -/
theorem first_high (hc : ∀ r s, steps (.read r) s = calling i .read after (readStep r s)) (s : State)
    (hs : s.seq = .run i (.read (.byte 0 shiftStart))) (hout : s.frame = .outside) :
    ∃ t, Link 1 (if s.sck then [] else [.rise]) s t ∧ t.sck = true ∧ t.shr = s.shr ∧ t.byt = s.byt ∧
      t.seq = .run i (.read (.byte 0 ⟨0, .settle .latch⟩)) ∧ t.frame ≠ .outside ∧
      (s.sck = false → s.ie = false → s.cfg.tHighMax < pdTimeout → t.Whole) ∧ (s.sck = true → t.Broken) ∧
      (s.ie = false → t.HeldFor 0) ∧ ∀ k, runSteps steps (k + 1) s = runSteps steps k t := by
  have hpo := (passTime_of_outside s hout).1
  refine ⟨goto i (.read (.byte 0 ⟨0, .settle .latch⟩)) (pinWrite true (beginShift (openFrame (passTime s)))),
    ?_, ?_, ?_, ?_, rfl, ?_, ?_, ?_, ?_, ?_⟩
  · have hnk : ¬ s.Kept := fun h => h.elim (fun h => by rw [h.1] at hout; cases hout)
      fun h => by rw [h.1] at hout; cases hout
    have hnw : ¬ s.Whole := fun h => by rw [h.1] at hout; cases hout
    have hnb : ¬ s.Broken := fun h => by rw [h.1] at hout; cases hout
    constructor <;>
      first
        | exact fun h => absurd hout h
        | exact fun h => absurd h hnw
        | exact fun h => absurd h hnb
        | exact fun h => absurd h hnk
        | exact fun k => passTime_drawAt s k
        | (cases h : s.sck <;> simp [h])
  · simp
  · simp
  · simp
  · cases h : s.sck <;> simp [h]
  · intro hsck hie hmax
    refine ⟨by simp [hsck], by simpa using hie, by simpa using hmax, fun _ => by simp [hsck]⟩
  · intro hsck
    exact ⟨by simp [hsck], by simp [hsck], by simp [hsck]⟩
  · intro hie
    cases hsck : s.sck
    · exact .inl ⟨by simp [hsck], by simpa using hie, by simp [hsck], by simp, by decide⟩
    · exact .inr ⟨by simp [hsck], by simp [hsck], by simp [hsck]⟩
  · exact fun k => read_at hc k hs (by simp [readStep, shiftInStep, ProcOut.within, shiftStart])

/-- A trailing pulse (R93), and where the loop stands after it. -/
theorem pulse_steps (hc : ∀ r s, steps (.read r) s = calling i .read after (readStep r s)) (s : State)
    (j count : Nat) (hs : s.seq = .run i (.read (.pulse j count .high))) (hsck : s.sck = false) :
    ∃ t, Link 6 [.fall, .rise] s t ∧ t.sck = false ∧ t.shr = s.shr ∧
      t.seq = .run i (.read (if j < count then .pulse (j + 1) count .high else .unmask)) ∧
      (s.Kept → pdTimeout ≤ s.cfg.tHighMax → pdTimeout ≤ s.ticksFrom 1 3 → t.Broken) ∧
      ∀ k, runSteps steps (k + 6) s = runSteps steps k t := by
  obtain ⟨s1, h1⟩ : ∃ s1, s1 = goto i (.read (.pulse j count (.highDelay .latch))) (pinWrite true (passTime s)) :=
    ⟨_, rfl⟩
  obtain ⟨s2, h2⟩ : ∃ s2, s2 = goto i (.read (.pulse j count (.highDelay .poll)))
      { passTime s1 with t0 := (passTime s1).cntRead } := ⟨_, rfl⟩
  obtain ⟨s3, h3⟩ : ∃ s3, s3 = goto i (.read (.pulse j count .low)) (passTime s2) := ⟨_, rfl⟩
  obtain ⟨s4, h4⟩ : ∃ s4, s4 = goto i (.read (.pulse j count (.lowDelay .latch))) (pinWrite false (passTime s3)) :=
    ⟨_, rfl⟩
  obtain ⟨s5, h5⟩ : ∃ s5, s5 = goto i (.read (.pulse j count (.lowDelay .poll)))
      { passTime s4 with t0 := (passTime s4).cntRead } := ⟨_, rfl⟩
  obtain ⟨s6, h6⟩ : ∃ s6, s6 =
      goto i (.read (if j < count then .pulse (j + 1) count .high else .unmask)) (passTime s5) := ⟨_, rfl⟩
  have l1 : Link 1 [.rise] s s1 := by
    rw [h1]; exact Link.step _ ((link_high _ (by simpa using hsck)).trans (link_goto _ _ _))
  have l2 : Link 1 [] s1 s2 := by rw [h2]; exact Link.step [] ((link_t0 _ _).trans (link_goto _ _ _))
  have l3 : Link 1 [] s2 s3 := by rw [h3]; exact Link.step [] (link_goto _ _ _)
  have hsck3 : s3.sck = true := by simp [h3, h2, h1]
  have l4 : Link 1 [.fall] s3 s4 := by
    rw [h4]; exact Link.step _ ((link_low _ (by simpa using hsck3)).trans (link_goto _ _ _))
  have l5 : Link 1 [] s4 s5 := by rw [h5]; exact Link.step [] ((link_t0 _ _).trans (link_goto _ _ _))
  have l6 : Link 1 [] s5 s6 := by rw [h6]; exact Link.step [] (link_goto _ _ _)
  refine ⟨s6, by simpa using ((((l1.trans l2).trans l3).trans l4).trans l5).trans l6, ?_, ?_, by rw [h6]; rfl, ?_, ?_⟩
  · simp [h6, h5, h4]
  · simp [h6, h5, h4, h3, h2, h1]
  · intro hkept hmax hlong
    have g1 : s1.HeldFor 0 := by
      rw [h1]; exact heldFor_rise _ (by simpa using hsck) (passTime_kept s hkept)
    have g2 : s2.HeldFor (0 + (s1.drawAt 0).ticks) := by
      rw [h2]; exact passTime_heldFor s1 _ g1 (by simp [h1]) (by rw [l1.cfg]; exact hmax)
    have g3 : s3.HeldFor (0 + (s1.drawAt 0).ticks + (s2.drawAt 0).ticks) := by
      rw [h3]; exact passTime_heldFor s2 _ g2 (by simp [h2, h1]) (by rw [l2.cfg, l1.cfg]; exact hmax)
    have g4 := passTime_heldFor s3 _ g3 hsck3 (by rw [l3.cfg, l2.cfg, l1.cfg]; exact hmax)
    have hb : (passTime s3).Broken := g4.broken (by
      simpa [ticksFrom_succ, l3.draws, l2.draws, l1.draws] using hlong)
    have hb4 : s4.Broken := by
      rw [h4]
      exact (link_goto _ _ _).broken ((link_low _ (by simpa using hsck3)).broken hb)
    exact l6.broken (l5.broken hb4)
  · intro k
    have e1 : runSteps steps (k + 6) s = runSteps steps (k + 5) s1 := by
      rw [h1]; exact read_at hc (k + 5) hs (by simp [readStep, pulseStep, ProcOut.within])
    have e2 : runSteps steps (k + 5) s1 = runSteps steps (k + 4) s2 := by
      rw [h2]; exact read_at hc (k + 4) (by rw [h1]; rfl) (by simp [readStep, pulseStep, ProcOut.within])
    have e3 : runSteps steps (k + 4) s2 = runSteps steps (k + 3) s3 := by
      rw [h3]; exact read_at hc (k + 3) (by rw [h2]; rfl) (by simp [readStep, pulseStep, ProcOut.within])
    have e4 : runSteps steps (k + 3) s3 = runSteps steps (k + 2) s4 := by
      rw [h4]; exact read_at hc (k + 2) (by rw [h3]; rfl) (by simp [readStep, pulseStep, ProcOut.within])
    have e5 : runSteps steps (k + 2) s4 = runSteps steps (k + 1) s5 := by
      rw [h5]; exact read_at hc (k + 1) (by rw [h4]; rfl) (by simp [readStep, pulseStep, ProcOut.within])
    have e6 : runSteps steps (k + 1) s5 = runSteps steps k s6 := by
      rw [h6]
      exact read_at hc k (by rw [h5]; rfl)
        (by by_cases h : j < count <;> simp [readStep, pulseStep, ProcOut.within, h])
    rw [e1, e2, e3, e4, e5, e6]

/-- The pin events of `m` trailing pulses, newest first. -/
def pulseEvents : Nat → List WireEvent
  | 0 => []
  | m + 1 => pulseEvents m ++ [.fall, .rise]

/-- The trailing pulses from number `j` on, `m` of them after this one. -/
theorem pulse_train (hc : ∀ r s, steps (.read r) s = calling i .read after (readStep r s)) :
    ∀ (m j : Nat) (s : State), s.seq = .run i (.read (.pulse j (j + m) .high)) → s.sck = false →
      ∃ t, Link (6 * (m + 1)) (pulseEvents (m + 1)) s t ∧ t.sck = false ∧ t.shr = s.shr ∧
        t.seq = .run i (.read .unmask) ∧
        (s.Kept → pdTimeout ≤ s.cfg.tHighMax → ∀ p ≤ m, pdTimeout ≤ s.ticksFrom (1 + 6 * p) 3 → t.Broken) ∧
        ∀ k, runSteps steps (k + 6 * (m + 1)) s = runSteps steps k t := by
  intro m
  induction m with
  | zero =>
    intro j s hs hsck
    obtain ⟨t, hl, h1, h2, h3, hx, h4⟩ := pulse_steps hc s j (j + 0) hs hsck
    exact ⟨t, hl, h1, h2, by simpa using h3, fun hk hmax p hp hlong => hx hk hmax (by rwa [Nat.le_zero.1 hp] at hlong),
      h4⟩
  | succ m ih =>
    intro j s hs hsck
    obtain ⟨t, hl, h1, h2, h3, hx, h4⟩ := pulse_steps hc s j (j + (m + 1)) hs hsck
    have h3' : t.seq = .run i (.read (.pulse (j + 1) (j + 1 + m) .high)) := by
      rw [h3, if_pos (by omega), show j + (m + 1) = j + 1 + m by omega]
    obtain ⟨u, hu, hu1, hu2, hu3, hux, hu4⟩ := ih (j + 1) t h3' h1
    refine ⟨u, ?_, hu1, hu2.trans h2, hu3, ?_, ?_⟩
    · have := hl.trans hu
      rw [show 6 + 6 * (m + 1) = 6 * (m + 1 + 1) by omega] at this
      exact this
    · intro hk hmax p hp hlong
      rcases p with _ | p
      · exact hu.broken (hx hk hmax hlong)
      · refine hux (hl.kept hk) (by rw [hl.cfg]; exact hmax) p (by omega) ?_
        rw [ticksFrom_shift hl.draws, show 1 + 6 * p + 6 = 1 + 6 * (p + 1) by omega]
        exact hlong
    · intro k
      rw [show k + 6 * (m + 1 + 1) = k + 6 * (m + 1) + 6 by omega, h4, hu4]

theorem storeByte_getLsbD (j : Fin 3) (b : Byte) (shr : SampleWord) (q : Nat) (hq : q < 24) :
    (storeByte j b shr).getLsbD q =
      if 16 - 8 * j.val ≤ q ∧ q < 24 - 8 * j.val then b.getLsbD (q - (16 - 8 * j.val)) else shr.getLsbD q := by
  fin_cases j
  · show (b ++ shr.extractLsb' 0 16 : BitVec (8 + 16)).getLsbD q = _
    rw [BitVec.getLsbD_append, BitVec.getLsbD_extractLsb']
    by_cases h : q < 16
    · simp [h]
    · simp [h, hq, Nat.le_of_not_lt h]
  · show ((shr.extractLsb' 16 8 ++ b : BitVec (8 + 8)) ++ shr.extractLsb' 0 8 : BitVec (8 + 8 + 8)).getLsbD q = _
    rw [BitVec.getLsbD_append, BitVec.getLsbD_append, BitVec.getLsbD_extractLsb', BitVec.getLsbD_extractLsb']
    by_cases h : q < 8
    · simp [h]
    · by_cases h2 : q - 8 < 8
      · have h3 : q < 16 := by omega
        simp [h, h2, h3, Nat.le_of_not_lt h]
      · have h3 : ¬ q < 16 := by omega
        have h4 : q - 8 - 8 < 8 := by omega
        have h5 : 16 + (q - 8 - 8) = q := by omega
        simp [h, h2, h3, h4, h5]
  · show (shr.extractLsb' 8 16 ++ b : BitVec (16 + 8)).getLsbD q = _
    rw [BitVec.getLsbD_append, BitVec.getLsbD_extractLsb']
    by_cases h : q < 8
    · simp [h]
    · have h2 : q - 8 < 16 := by omega
      have h3 : 8 + (q - 8) = q := by omega
      simp [h, h2, h3]

theorem link_endByte (j : Fin 3) (t : State) : Link 0 [] t (endByte i j t) := by
  unfold endByte
  split
  · exact (link_shr_byt t (storeByte j t.byt t.shr) t.byt).trans (link_goto _ _ _)
  · exact (link_shr_byt t (storeByte j t.byt t.shr) 0).trans (link_goto _ _ _)

/-- A byte, from the step after its first rising edge to its end, `SHR` written (R51, R52, R103). -/
theorem byte_steps (hc : ∀ r s, steps (.read r) s = calling i .read after (readStep r s)) (j : Fin 3) (s : State)
    (hs : s.seq = .run i (.read (.byte j ⟨0, .settle .latch⟩))) (hsck : s.sck = true)
    (hopen : s.frame ≠ .outside) (hbyt : s.byt = 0) :
    ∃ t, Link 55 (tailEvents 7 fun p => (s.drawAt (2 + 7 * p)).dout) s t ∧ t.sck = false ∧
      (∀ q < 24, t.shr.getLsbD q =
        if 16 - 8 * j.val ≤ q ∧ q < 24 - 8 * j.val then
          (s.drawAt (2 + 7 * (7 - (q - (16 - 8 * j.val))))).dout else s.shr.getLsbD q) ∧
      (t.seq = .run i (.read (if j = 2 then .pulse 1 (pulses s.sel) .high else .byte (j + 1) shiftStart))) ∧
      (j ≠ 2 → t.byt = 0) ∧
      (s.HeldFor 0 → pdTimeout ≤ s.cfg.tHighMax → ∀ p < 8, pdTimeout ≤ s.ticksFrom (7 * p) 4 → t.Broken) ∧
      ∀ k, runSteps steps (k + 55) s = runSteps steps k t := by
  obtain ⟨t, hl, h1, h2, h3, hx, h4⟩ := byte_tail hc j 7 0 s (by simp) hs hsck hopen
  have hshr : (endByte i j t).shr = storeByte j t.byt t.shr := by unfold endByte; split <;> rfl
  refine ⟨endByte i j t, by simpa using hl.trans (link_endByte j t), ?_, ?_, ?_, ?_,
    fun hh hmax p hp hlong => (link_endByte j t).broken (hx hh hmax p (by omega) hlong), h4⟩
  · unfold endByte; split <;> simpa using h1
  · intro q hq
    rw [hshr, storeByte_getLsbD j _ _ q hq, h2]
    split
    · rw [h3 _ (by omega), hbyt]
      simp
    · rfl
  · unfold endByte
    split
    · rw [hl.sel.symm]; rfl
    · rfl
  · intro hj
    simp [endByte, hj]

/-- The next byte, its first rising edge included. -/
theorem next_byte_steps (hc : ∀ r s, steps (.read r) s = calling i .read after (readStep r s)) (j : Fin 3) (s : State)
    (hs : s.seq = .run i (.read (.byte j shiftStart))) (hj : j ≠ 0) (hsck : s.sck = false)
    (hopen : s.frame ≠ .outside) (hbyt : s.byt = 0) :
    ∃ t, Link 56 ((tailEvents 7 fun p => (s.drawAt (3 + 7 * p)).dout) ++ [.rise]) s t ∧ t.sck = false ∧
      (∀ q < 24, t.shr.getLsbD q =
        if 16 - 8 * j.val ≤ q ∧ q < 24 - 8 * j.val then
          (s.drawAt (3 + 7 * (7 - (q - (16 - 8 * j.val))))).dout else s.shr.getLsbD q) ∧
      (t.seq = .run i (.read (if j = 2 then .pulse 1 (pulses s.sel) .high else .byte (j + 1) shiftStart))) ∧
      (j ≠ 2 → t.byt = 0) ∧
      (s.Kept → pdTimeout ≤ s.cfg.tHighMax → ∀ p < 8, pdTimeout ≤ s.ticksFrom (1 + 7 * p) 4 → t.Broken) ∧
      ∀ k, runSteps steps (k + 56) s = runSteps steps k t := by
  obtain ⟨t, hl, h1, h2, h3, h4, hx, h5⟩ := bit_high hc s j 0 hs (fun h => hj h.1) hsck
  obtain ⟨u, hu, u1, u2, u3, u4, ux, u5⟩ := byte_steps hc j t h4 h1 (hl.opened hopen) (h3.trans hbyt)
  have hd : ∀ p, t.drawAt p = s.drawAt (p + 1) := hl.draws
  refine ⟨u, ?_, u1, ?_, by rw [u3, hl.sel], u4, fun hk hmax p hp hlong => ux (hx hk) (by rw [hl.cfg]; exact hmax) p hp
    (by rw [ticksFrom_shift hd, Nat.add_comm]; exact hlong), fun k => by rw [h5, u5]⟩
  · have := hl.trans hu
    simp only [hd] at this
    have e : (fun p => (s.drawAt (2 + 7 * p + 1)).dout) = fun p => (s.drawAt (3 + 7 * p)).dout := by
      funext p; rw [show 2 + 7 * p + 1 = 3 + 7 * p by omega]
    rw [e] at this
    exact this
  · intro q hq
    rw [u2 q hq, h2, hd, show ∀ x, 2 + 7 * x + 1 = 3 + 7 * x from fun x => by omega]

end

/-! ## A whole read -/

/-- What one `Read` makes of a state, its chip ready at the first check (R40 to R42, R52, R67, R103). -/
structure ReadDone (s t : State) : Prop where
  cfg : t.cfg = s.cfg
  program : t.program = s.program
  status : t.status = s.status
  res : t.res = s.res
  acc : t.acc = s.acc
  ctr : t.ctr = s.ctr
  ts : t.ts = s.ts
  bound : t.bound = s.bound
  csel : t.csel = s.csel
  sel : t.sel = s.sel
  offset : t.offset = s.offset
  scale : t.scale = s.scale
  ie : t.ie = true
  sck : t.sck = false
  frame : t.frame = .outside
  sampleSel : t.sampleSel = s.chipSel
  draws : ∀ k, t.drawAt k = s.drawAt (k + frameSteps s.sel)
  sample : ∀ p < 24, t.shr.getLsbD (23 - p) = (s.drawAt (5 + 7 * p)).dout
  wire : t.wire =
    (if s.sck then (frameEvents (fun p => (s.drawAt (5 + 7 * p)).dout) (pulses s.sel)).tail
      else frameEvents (fun p => (s.drawAt (5 + 7 * p)).dout) (pulses s.sel)).reverse ++ .checked false :: s.wire
  whole : s.sck = false → s.cfg.tHighMax < pdTimeout → t.chipSel = .armed s.sel ∧ t.garbageNext = false
  broken : s.sck = true → t.chipSel = .unknown ∧ t.garbageNext = true
  stretched : pdTimeout ≤ s.cfg.tHighMax →
    (∃ p < 24, pdTimeout ≤ s.ticksFrom (3 + 7 * p) 4) ∨ (∃ k < pulses s.sel, pdTimeout ≤ s.ticksFrom (171 + 6 * k) 3) →
    t.chipSel = .unknown ∧ t.garbageNext = true

/-- The record of a frame, as the parts of a read build it, is the one R67 draws. -/
theorem frameEvents_reverse (b : Nat → Bool) (sel : Selector) :
    (frameEvents b (pulses sel)).reverse =
      pulseEvents (pulses sel) ++ ((tailEvents 7 fun p => b (16 + p)) ++ [.rise]) ++
        ((tailEvents 7 fun p => b (8 + p)) ++ [.rise]) ++ (tailEvents 7 b ++ [.rise]) := by
  cases sel <;> rfl

/-- The same with the first rising edge lost. -/
theorem frameEvents_tail_reverse (b : Nat → Bool) (sel : Selector) :
    (frameEvents b (pulses sel)).tail.reverse =
      pulseEvents (pulses sel) ++ ((tailEvents 7 fun p => b (16 + p)) ++ [.rise]) ++
        ((tailEvents 7 fun p => b (8 + p)) ++ [.rise]) ++ tailEvents 7 b := by
  cases sel <;> rfl

theorem pulses_pos (sel : Selector) : ∃ m, pulses sel = m + 1 := by
  cases sel
  · exact ⟨0, rfl⟩
  · exact ⟨1, rfl⟩
  · exact ⟨2, rfl⟩

/-- A broken frame ends with the chip not to be trusted (R42). -/
theorem closeFrame_broken (s : State) (h : s.Broken) :
    (closeFrame { passTime s with ie := true }).chipSel = .unknown ∧
      (closeFrame { passTime s with ie := true }).garbageNext = true := by
  have hb := passTime_broken s h
  have hf : (passTime s).frame = .broken := hb.1
  simp [hf, hb.2.1, hb.2.2]

/-- A whole read inside any command that makes one: after `frameSteps` steps of `SEQ` the command performs what follows
the read on a state that `ReadDone` describes. -/
theorem read_frame {steps : CommandSteps} {i : Instr} {after : State → State}
    (hc : ∀ r s, steps (.read r) s = calling i .read after (readStep r s)) (s : State)
    (hs : s.seq = .run i (.read readStart)) (hready : (s.drawAt 0).dout = false) (hout : s.frame = .outside) :
    ∃ t, ReadDone s t ∧ ∀ k, runSteps steps (k + frameSteps s.sel) s = runSteps steps k (after t) := by
  obtain ⟨m, hm⟩ := pulses_pos s.sel
  have hlen : ∀ k, k + frameSteps s.sel = k + 1 + 6 * (m + 1) + 56 + 56 + 55 + 1 + 1 + 1 := by
    intro k; rw [frameSteps, hm]; omega
  -- the check and `IE <- 0`
  obtain ⟨s1, h1⟩ : ∃ s1, s1 = goto i (.read .mask) (noteCheck (passTime s)) := ⟨_, rfl⟩
  obtain ⟨s2, h2⟩ : ∃ s2, s2 = goto i (.read (.byte 0 shiftStart))
      { passTime s1 with ie := false, byt := 0, sampleSel := (passTime s1).chipSel } := ⟨_, rfl⟩
  have e1 : ∀ n, runSteps steps (n + 1) s = runSteps steps n s1 := fun n => by
    rw [h1]
    exact read_at hc n hs (by
      simp [readStep, readStart, waitReadyStep, State.ready, hready, ProcOut.within])
  have e2 : ∀ n, runSteps steps (n + 1) s1 = runSteps steps n s2 := fun n => by
    rw [h2]; exact read_at hc n (by rw [h1]; rfl) (by simp [readStep])
  have hs1out : s1.frame = .outside := by rw [h1]; exact (passTime_of_outside s hout).1
  have hs1chip : s1.chipSel = s.chipSel := by rw [h1]; exact (passTime_of_outside s hout).2.1
  have hs2out : s2.frame = .outside := by rw [h2]; exact (passTime_of_outside s1 hs1out).1
  have hs2chip : s2.sampleSel = s.chipSel := by
    rw [h2]; exact ((passTime_of_outside s1 hs1out).2.1).trans hs1chip
  have hs2sck : s2.sck = s.sck := by rw [h2, h1]; simp
  have hs2draw : ∀ p, s2.drawAt p = s.drawAt (p + 2) := fun p => by
    rw [h2]
    show (passTime s1).drawAt p = _
    rw [passTime_drawAt, h1]
    simp
  have hs2wire : s2.wire = .checked false :: s.wire := by rw [h2, h1]; simp [hready]
  -- the first byte
  obtain ⟨s3, l3, a3, b3, c3, d3, f3, w3, x3, y3, e3⟩ := first_high hc s2 (by rw [h2]; rfl) hs2out
  obtain ⟨s4, l4, a4, b4, c4, d4, y4, e4⟩ := byte_steps hc 0 s3 d3 a3 f3
    (by rw [c3, h2]; rfl)
  have f4 := l4.opened f3
  -- the second and the third
  obtain ⟨s5, l5, a5, b5, c5, d5, y5, e5⟩ := next_byte_steps hc 1 s4 (by simpa using c4)
    (by decide) a4 f4 (d4 (by decide))
  have f5 := l5.opened f4
  obtain ⟨s6, l6, a6, b6, c6, _, y6, e6⟩ := next_byte_steps hc 2 s5 (by simpa using c5)
    (by decide) a5 f5 (d5 (by decide))
  -- the trailing pulses and `IE <- 1`
  have hsel5 : s5.sel = s.sel := by rw [l5.sel, l4.sel, l3.sel, h2, h1]; simp
  obtain ⟨s7, l7, a7, b7, c7, y7, e7⟩ := pulse_train hc m 1 s6
    (by rw [c6, if_pos rfl, hsel5, hm, Nat.add_comm]) a6
  have lk : Link _ _ s2 s7 := (((l3.trans l4).trans l5).trans l6).trans l7
  have hd3 : ∀ p, s3.drawAt p = s.drawAt (p + 3) := fun p => by rw [l3.draws, hs2draw]
  have hd4 : ∀ p, s4.drawAt p = s.drawAt (p + 58) := fun p => by rw [l4.draws, hd3]
  have hd5 : ∀ p, s5.drawAt p = s.drawAt (p + 114) := fun p => by rw [l5.draws, hd4]
  have hselm : s7.sel = s.sel := by rw [lk.sel, h2, h1]; simp
  refine ⟨closeFrame { passTime s7 with ie := true }, ?_, ?_⟩
  · constructor
    · simp [lk.cfg, h2, h1]
    · simp [lk.program, h2, h1]
    · simp [lk.status, h2, h1]
    · simp [lk.res, h2, h1]
    · simp [lk.acc, h2, h1]
    · simp [lk.ctr, h2, h1]
    · simp [lk.ts, h2, h1]
    · simp [lk.bound, h2, h1]
    · simp [lk.csel, h2, h1]
    · simpa using hselm
    · simp [lk.offset, h2, h1]
    · simp [lk.scale, h2, h1]
    · simp
    · simpa using a7
    · simp
    · simp [lk.sampleSel, hs2chip]
    · intro n
      show (passTime s7).drawAt n = _
      rw [passTime_drawAt, lk.draws, hs2draw, frameSteps, hm]
      congr 1
      omega
    · intro p hp
      have hshr : (closeFrame { passTime s7 with ie := true }).shr = s6.shr := by simp [b7]
      rw [hshr, b6 _ (by omega), hd5]
      by_cases hp2 : 16 ≤ p
      · rw [if_pos (by constructor <;> simp; omega)]
        congr 2
        simp
        omega
      · rw [if_neg (by simp; omega), b5 _ (by omega), hd4]
        by_cases hp1 : 8 ≤ p
        · rw [if_pos (by constructor <;> simp <;> omega)]
          congr 2
          simp
          omega
        · rw [if_neg (by simp; omega), b4 _ (by omega), hd3]
          rw [if_pos (by constructor <;> simp <;> omega)]
          congr 2
          simp
          omega
    · have hw : (closeFrame { passTime s7 with ie := true }).wire = s7.wire := by simp
      have g5 : (fun p => (s5.drawAt (3 + 7 * p)).dout) =
          fun p => (fun p => (s.drawAt (5 + 7 * p)).dout) (16 + p) := by
        funext p; simp only [hd5]; congr 2; omega
      have g4 : (fun p => (s4.drawAt (3 + 7 * p)).dout) =
          fun p => (fun p => (s.drawAt (5 + 7 * p)).dout) (8 + p) := by
        funext p; simp only [hd4]; congr 2; omega
      have g3 : (fun p => (s3.drawAt (2 + 7 * p)).dout) = fun p => (s.drawAt (5 + 7 * p)).dout := by
        funext p; simp only [hd3]; congr 2; omega
      rw [hw, lk.wire, hs2wire, hs2sck, g5, g4, g3]
      cases s.sck
      · simp only [Bool.false_eq_true, if_false]
        rw [frameEvents_reverse, hm]
        simp only [List.append_assoc]
      · simp only [if_true]
        rw [frameEvents_tail_reverse, hm]
        simp only [List.append_assoc, List.append_nil]
    · intro hsck hmax
      have hw3 : s3.Whole := w3 (hs2sck.trans hsck) (by rw [h2]; rfl) (by rw [h2, h1]; simpa using hmax)
      have hw7 := l7.whole (l6.whole (l5.whole (l4.whole hw3)))
      have hw := passTime_whole s7 hw7
      have hf : (passTime s7).frame = .whole := hw.1
      simp [hf, hselm]
    · intro hsck
      have hb3 : s3.Broken := x3 (hs2sck.trans hsck)
      have hb7 := l7.broken (l6.broken (l5.broken (l4.broken hb3)))
      exact closeFrame_broken s7 hb7
    · intro hmax hlong
      have hh3 : s3.HeldFor 0 := y3 (by rw [h2]; rfl)
      have hk4 := l4.kept hh3.kept
      have hk5 := l5.kept hk4
      have hk6 := l6.kept hk5
      have m3 : pdTimeout ≤ s3.cfg.tHighMax := by rw [l3.cfg, h2, h1]; simpa using hmax
      have m4 : pdTimeout ≤ s4.cfg.tHighMax := by rw [l4.cfg]; exact m3
      have m5 : pdTimeout ≤ s5.cfg.tHighMax := by rw [l5.cfg]; exact m4
      have m6 : pdTimeout ≤ s6.cfg.tHighMax := by rw [l6.cfg]; exact m5
      have hd6 : ∀ p, s6.drawAt p = s.drawAt (p + 170) := fun p => by rw [l6.draws, hd5]
      refine closeFrame_broken s7 ?_
      rcases hlong with ⟨p, hp, hlong⟩ | ⟨p, hp, hlong⟩
      · by_cases hp1 : p < 8
        · refine l7.broken (l6.broken (l5.broken (y4 hh3 m3 p hp1 ?_)))
          rw [ticksFrom_shift hd3, Nat.add_comm]; exact hlong
        · by_cases hp2 : p < 16
          · refine l7.broken (l6.broken (y5 hk4 m4 (p - 8) (by omega) ?_))
            rw [ticksFrom_shift hd4, show 1 + 7 * (p - 8) + 58 = 3 + 7 * p by omega]; exact hlong
          · refine l7.broken (y6 hk5 m5 (p - 16) (by omega) ?_)
            rw [ticksFrom_shift hd5, show 1 + 7 * (p - 16) + 114 = 3 + 7 * p by omega]; exact hlong
      · refine y7 hk6 m6 p (by omega) ?_
        rw [ticksFrom_shift hd6, show 1 + 6 * p + 170 = 171 + 6 * p by omega]; exact hlong
  · intro k
    rw [hlen, e1, e2, e3, e4, e5, e6, e7]
    exact read_done hc k c7 (by simp [readStep])

end Sys2Proof.Machine
end

