-- ==== Sys2Proof/Laws/Values.lean ====
section
/-!
SUPPORT. Patterns and the integers they spell (00_scope.md R10), samples (30_encoding.md R69), and the mean
(43_calibration.md R114).
-/

namespace Sys2Proof.Machine

/-- A sample word is known by its bits in the order shifted in. -/
theorem word_eq (w v : SampleWord) (b : Nat → Bool) (h1 : ∀ p < 24, w.getLsbD (23 - p) = b p)
    (h2 : ∀ p < 24, v.getLsbD (23 - p) = b p) : w = v := by
  apply BitVec.eq_of_getLsbD_eq
  intro k hk
  have a := h1 (23 - k) (by omega)
  have c := h2 (23 - k) (by omega)
  rw [show 23 - (23 - k) = k by omega] at a c
  rw [a, c]

/-- The pattern of an integer that fits spells that integer (R10). -/
theorem signedValue_pattern (n : Nat) (i : Int) (hn : 1 ≤ n) (h1 : -(2 ^ (n - 1) : Nat) ≤ i)
    (h2 : i < (2 ^ (n - 1) : Nat)) : signedValue n (signedPattern n i) = i := by
  obtain ⟨m, rfl⟩ : ∃ m, n = m + 1 := ⟨n - 1, by omega⟩
  simp only [Nat.add_sub_cancel] at *
  have hp : (2 ^ (m+1) : Nat) = 2 * 2 ^ m := by rw [Nat.pow_succ]; ring
  have hpos := Nat.two_pow_pos m
  unfold signedValue signedPattern
  generalize hM : (2 ^ m : Nat) = M at *
  rw [hp]
  have key : ∀ x : Nat, x < 2 * M → (x.testBit m = true ↔ M ≤ x) := by
    intro x hx
    rw [← hM] at hx ⊢
    constructor
    · intro h; exact Nat.ge_two_pow_of_testBit h
    · intro h
      rw [Nat.testBit_eq_decide_div_mod_eq]
      have : x / 2^m = 1 := by
        apply Nat.div_eq_of_lt_le <;> omega
      simp [this]
  simp only [Nat.add_sub_cancel]
  by_cases hi : 0 ≤ i
  · have e : i % (2 * M : Nat) = i := Int.emod_eq_of_lt hi (by push_cast; omega)
    rw [e]
    have hk := key i.toNat (by omega)
    have : i.toNat.testBit m = false := by
      by_contra hc
      have := hk.1 (by simpa using hc)
      omega
    rw [this]; simp; omega
  · have e : i % (2 * M : Nat) = i + 2 * M := by
      rw [← Int.add_emod_right]
      push_cast
      exact Int.emod_eq_of_lt (by omega) (by omega)
    rw [e]
    have hk := key (i + 2 * M).toNat (by omega)
    have : (i + 2 * M).toNat.testBit m = true := hk.2 (by omega)
    rw [this]; simp; omega

/-- The integer of a bit vector's pattern. -/
theorem signedValue_toInt (w : Nat) (v : BitVec w) : signedValue w v.toNat = v.toInt := by
  rw [signedValue, BitVec.toInt_eq_msb_cond, BitVec.msb_eq_getLsbD_last]
  rfl

/-- The range of a sample (R69). -/
theorem toInt24 (w : SampleWord) : -8388608 ≤ w.toInt ∧ w.toInt ≤ 8388607 := by
  have h1 := BitVec.le_toInt w
  have h2 := @BitVec.toInt_lt 24 w
  norm_num at *
  omega

/-- The sample of a read is the word's own value (R69). -/
theorem sampleOf_value (p : Params) (hp : 24 ≤ p.xw) (w : SampleWord) : signedValue p.xw (sampleOf p w) = w.toInt := by
  have := toInt24 w
  unfold sampleOf sext
  rw [signedValue_toInt]
  have h3 : (2 ^ 23 : Nat) ≤ 2 ^ (p.xw - 1) := Nat.pow_le_pow_right (by omega) (by omega)
  have h4 : ((2 ^ 23 : Nat) : Int) ≤ ((2 ^ (p.xw - 1) : Nat) : Int) := by exact_mod_cast h3
  norm_num at h4
  apply signedValue_pattern _ _ (by omega) <;> push_cast <;> omega

/-- A sample as `RES` holds it (R75). -/
theorem sampleResult_sample (p : Params) (hp : 24 ≤ p.xw) (w : SampleWord) :
    sampleResult p (sampleOf p w) = signedPattern p.rw w.toInt := by
  unfold sampleResult sext
  rw [sampleOf_value p hp]

/-- A sum of `n` numbers between `lo` and `hi`, divided by `n` toward zero, lies between them. -/
theorem tdiv_between (n : Nat) (sum lo hi : Int) (hn : 0 < n) (h1 : n * lo ≤ sum) (h2 : sum ≤ n * hi) :
    lo ≤ sum.tdiv n ∧ sum.tdiv n ≤ hi := by
  have hn' : (0 : Int) < n := by exact_mod_cast hn
  rcases le_or_gt 0 sum with hs | hs
  · rw [Int.tdiv_eq_ediv_of_nonneg hs]
    refine ⟨(Int.le_ediv_iff_mul_le hn').2 (by rw [mul_comm]; exact h1), ?_⟩
    exact Int.ediv_le_of_le_mul hn' (by rw [mul_comm]; exact h2)
  · have e : sum.tdiv n = -((-sum) / n) := by
      rw [← Int.tdiv_eq_ediv_of_nonneg (by omega), Int.neg_tdiv, neg_neg]
    rw [e]
    constructor
    · have : (-sum) / n ≤ -lo := Int.ediv_le_of_le_mul hn' (by rw [neg_mul, mul_comm]; omega)
      omega
    · have : -hi ≤ (-sum) / n := (Int.le_ediv_iff_mul_le hn').2 (by rw [neg_mul, mul_comm]; omega)
      omega

end Sys2Proof.Machine
end

