-- ==== Sys2Proof/Laws/Average.lean ====
section
/-!
SUPPORT. What `Average(n)` does on a chip that is ready for each of its frames (43_calibration.md R113), said once for the
four commands that call it: `average_frames`. It is `read_frame` repeated.
-/

namespace Sys2Proof.Machine

/-! ## Sums of samples -/

@[simp] theorem sampleSum_zero (words : Nat → SampleWord) : sampleSum words 0 = 0 := rfl

theorem sampleSum_succ (words : Nat → SampleWord) (n : Nat) :
    sampleSum words (n + 1) = sampleSum words n + (words n).toInt := by
  simp [sampleSum, List.range_succ]

/-- A sum of samples between two bounds (R114). -/
theorem sampleSum_between (words : Nat → SampleWord) (lo hi : Int) :
    ∀ n : Nat, (∀ f < n, lo ≤ (words f).toInt ∧ (words f).toInt ≤ hi) →
      n * lo ≤ sampleSum words n ∧ sampleSum words n ≤ n * hi := by
  intro n
  induction n with
  | zero => intro _; simp
  | succ n ih =>
    intro h
    have h1 := ih fun f hf => h f (by omega)
    have h2 := h n (by omega)
    rw [sampleSum_succ]
    push_cast
    constructor <;> nlinarith

theorem sampleSum_range (words : Nat → SampleWord) (n : Nat) :
    n * (-8388608 : Int) ≤ sampleSum words n ∧ sampleSum words n ≤ n * (8388607 : Int) :=
  sampleSum_between words _ _ n fun f _ => toInt24 (words f)

/-- The accumulator holds a sum of fewer than `2^32` samples exactly (R23). -/
theorem toInt_sampleSum (words : Nat → SampleWord) (n : Nat) (hn : n < 2 ^ 32) :
    (BitVec.ofInt 64 (sampleSum words n)).toInt = sampleSum words n := by
  have h := sampleSum_range words n
  have h1 : (n : Int) < 2 ^ 32 := by exact_mod_cast hn
  rw [BitVec.toInt_ofInt]
  apply Int.bmod_eq_of_le <;> norm_num at * <;> omega

/-- The mean is the sum divided, truncating toward zero (R113, R114). -/
theorem mean_value (p : Params) (hp : 24 ≤ p.xw) (words : Nat → SampleWord) (n : Word) (hn : n ≠ 0) :
    signedValue p.xw (mean p (BitVec.ofInt 64 (sampleSum words n.toNat)) n) =
      (sampleSum words n.toNat).tdiv n.toNat := by
  have hn0 : 0 < n.toNat := Nat.pos_of_ne_zero fun h => hn (BitVec.eq_of_toNat_eq (by simpa using h))
  have hb := tdiv_between n.toNat _ _ _ hn0 (sampleSum_range words n.toNat).1 (sampleSum_range words n.toNat).2
  have h3 : (2 ^ 23 : Nat) ≤ 2 ^ (p.xw - 1) := Nat.pow_le_pow_right (by omega) (by omega)
  have h4 : ((2 ^ 23 : Nat) : Int) ≤ ((2 ^ (p.xw - 1) : Nat) : Int) := by exact_mod_cast h3
  norm_num at h4
  rw [mean, toInt_sampleSum _ _ n.isLt]
  apply signedValue_pattern _ _ (by omega) <;> push_cast <;> omega

/-! ## The reads -/

/-- What the reads of an averaging command make of a state. -/
structure AverageDone (n : Nat) (words : Nat → SampleWord) (s t : State) : Prop where
  cfg : t.cfg = s.cfg
  program : t.program = s.program
  status : t.status = s.status
  res : t.res = s.res
  ts : t.ts = s.ts
  bound : t.bound = s.bound
  csel : t.csel = s.csel
  sel : t.sel = s.sel
  offset : t.offset = s.offset
  scale : t.scale = s.scale
  ie : t.ie = true
  sck : t.sck = false
  frame : t.frame = .outside
  shr : t.shr = words (n - 1)
  acc : t.acc = s.acc + BitVec.ofInt 64 (sampleSum words n)
  ctr : t.ctr = 0
  draws : ∀ k, t.drawAt k = s.drawAt (k + n * frameSteps s.sel)

/-- The word of a read is the one the chip delivered. -/
theorem ReadDone.shr {s t : State} (h : ReadDone s t) {w : SampleWord} (hw : s.Delivers 0 w) : t.shr = w :=
  word_eq _ _ _ h.sample fun p hp => by simpa using hw.2 p hp

/-- A frame delivered later, seen from the state that stands there. -/
theorem delivers_shift {s t : State} {w : SampleWord} {n : Nat} (ht : ∀ k, t.drawAt k = s.drawAt (k + n)) (m : Nat)
    (h : s.Delivers (m + n) w) : t.Delivers m w := by
  refine ⟨by rw [ht]; exact h.1, fun p hp => ?_⟩
  rw [ht, h.2 p hp]
  congr 2
  omega

/-- What follows a read of an averaging command: the sum, the count, the loop test (R113). -/
def averageNext (i : Instr) (after : State → State) (s : State) : State :=
  if s.ctr - 1 = 0 then after { s with acc := accumulate s.cfg s.acc (sampleOf s.cfg s.shr), ctr := s.ctr - 1 }
  else goto i (.read readStart) { s with acc := accumulate s.cfg s.acc (sampleOf s.cfg s.shr), ctr := s.ctr - 1 }

theorem averageSteps_read (i : Instr) (after : State → State) (r : ReadPos) (s : State) :
    averageSteps i after (.read r) s = calling i .read (averageNext i after) (readStep r s) := rfl

/-- What `k` reads of an averaging command make of a state that stands before a read, where more are to follow. -/
structure AveragePart (i : Instr) (k : Nat) (words : Nat → SampleWord) (s t : State) : Prop where
  cfg : t.cfg = s.cfg
  program : t.program = s.program
  seq : t.seq = .run i (.read readStart)
  status : t.status = s.status
  res : t.res = s.res
  ts : t.ts = s.ts
  bound : t.bound = s.bound
  csel : t.csel = s.csel
  sel : t.sel = s.sel
  offset : t.offset = s.offset
  scale : t.scale = s.scale
  frame : t.frame = .outside
  acc : t.acc = s.acc + BitVec.ofInt 64 (sampleSum words k)
  ctr : t.ctr.toNat = s.ctr.toNat - k
  draws : ∀ j, t.drawAt j = s.drawAt (j + k * frameSteps s.sel)
  none : k = 0 → t = s
  last : 0 < k → t.ie = true ∧ t.sck = false ∧ t.shr = words (k - 1)

/-- `k` reads of `Average(n)`, with at least one more to make (R113). -/
theorem average_part {i : Instr} {after : State → State} (words : Nat → SampleWord) :
    ∀ (k : Nat) (s : State), s.seq = .run i (.read readStart) → s.frame = .outside → 24 ≤ s.cfg.xw →
      k < s.ctr.toNat → (∀ f < k, s.Delivers (f * frameSteps s.sel) (words f)) →
      ∃ t, AveragePart i k words s t ∧
        ∀ j, runSteps (averageSteps i after) (j + k * frameSteps s.sel) s = runSteps (averageSteps i after) j t := by
  intro k
  induction k with
  | zero =>
    intro s hs hf _ _ _
    exact ⟨s, ⟨rfl, rfl, hs, rfl, rfl, rfl, rfl, rfl, rfl, rfl, rfl, hf, by simp, rfl, by simp, fun _ => rfl,
      fun h => absurd h (Nat.lt_irrefl 0)⟩, by simp⟩
  | succ k ih =>
    intro s hs hf hx hc hw
    obtain ⟨t, ht, he⟩ := ih s hs hf hx (by omega) fun f h => hw f (by omega)
    have hwk : t.Delivers 0 (words k) := delivers_shift ht.draws 0 (by rw [Nat.zero_add]; exact hw k (by omega))
    obtain ⟨u, hu, he2⟩ := read_frame (averageSteps_read i after) t ht.seq hwk.1 ht.frame
    have hctr : (u.ctr - 1).toNat = s.ctr.toNat - (k + 1) := by
      have := s.ctr.isLt
      rw [hu.ctr, BitVec.toNat_sub, ht.ctr, show (1 : BitVec 32).toNat = 1 from rfl]
      omega
    have hne : u.ctr - 1 ≠ 0 := fun h => by rw [h] at hctr; simp at hctr; omega
    refine ⟨goto i (.read readStart)
      { u with acc := accumulate u.cfg u.acc (sampleOf u.cfg u.shr), ctr := u.ctr - 1 }, ?_, ?_⟩
    · refine ⟨hu.cfg.trans ht.cfg, hu.program.trans ht.program, rfl, hu.status.trans ht.status, hu.res.trans ht.res,
        hu.ts.trans ht.ts, hu.bound.trans ht.bound, hu.csel.trans ht.csel, hu.sel.trans ht.sel,
        hu.offset.trans ht.offset, hu.scale.trans ht.scale, hu.frame, ?_, hctr, ?_, nofun,
        fun _ => ⟨hu.ie, hu.sck, hu.shr hwk⟩⟩
      · show accumulate u.cfg u.acc (sampleOf u.cfg u.shr) = _
        rw [accumulate, hu.cfg, ht.cfg, sampleOf_value _ hx, hu.acc, ht.acc, hu.shr hwk, sampleSum_succ, BitVec.ofInt_add,
          BitVec.add_assoc]
      · intro l
        show u.drawAt l = _
        rw [hu.draws, ht.draws, ht.sel]
        congr 1
        ring
    · intro j
      rw [show j + (k + 1) * frameSteps s.sel = j + frameSteps s.sel + k * frameSteps s.sel by ring, he, ← ht.sel, he2,
        show averageNext i after u = _ from if_neg hne]

/-- `Average(n)`, with `m + 1` reads to make (R113). -/
theorem average_frames {i : Instr} {after : State → State} (m : Nat) (s : State) (words : Nat → SampleWord)
    (hs : s.seq = .run i (.read readStart)) (hf : s.frame = .outside) (hx : 24 ≤ s.cfg.xw) (hc : s.ctr.toNat = m + 1)
    (hw : ∀ f < m + 1, s.Delivers (f * frameSteps s.sel) (words f)) :
    ∃ t, AverageDone (m + 1) words s t ∧
      ∀ k, runSteps (averageSteps i after) (k + (m + 1) * frameSteps s.sel) s =
        runSteps (averageSteps i after) k (after t) := by
  obtain ⟨t, ht, he⟩ := average_part words m s hs hf hx (by omega) fun f h => hw f (by omega)
  have hwm : t.Delivers 0 (words m) := delivers_shift ht.draws 0 (by rw [Nat.zero_add]; exact hw m (by omega))
  obtain ⟨u, hu, he2⟩ := read_frame (averageSteps_read i after) t ht.seq hwm.1 ht.frame
  have hctr : u.ctr - 1 = 0 := by
    apply BitVec.eq_of_toNat_eq
    rw [hu.ctr, BitVec.toNat_sub, ht.ctr, hc, show m + 1 - m = 1 by omega]
    rfl
  refine ⟨{ u with acc := accumulate u.cfg u.acc (sampleOf u.cfg u.shr), ctr := u.ctr - 1 }, ?_, ?_⟩
  · refine ⟨hu.cfg.trans ht.cfg, hu.program.trans ht.program, hu.status.trans ht.status, hu.res.trans ht.res,
      hu.ts.trans ht.ts, hu.bound.trans ht.bound, hu.csel.trans ht.csel, hu.sel.trans ht.sel, hu.offset.trans ht.offset,
      hu.scale.trans ht.scale, hu.ie, hu.sck, hu.frame, hu.shr hwm, ?_, hctr, ?_⟩
    · show accumulate u.cfg u.acc (sampleOf u.cfg u.shr) = _
      rw [accumulate, hu.cfg, ht.cfg, sampleOf_value _ hx, hu.acc, ht.acc, hu.shr hwm, sampleSum_succ, BitVec.ofInt_add,
        BitVec.add_assoc]
    · intro l
      show u.drawAt l = _
      rw [hu.draws, ht.draws, ht.sel]
      congr 1
      ring
  · intro k
    rw [show k + (m + 1) * frameSteps s.sel = k + frameSteps s.sel + m * frameSteps s.sel by ring, he, ← ht.sel, he2,
      show averageNext i after u = _ from if_pos hctr]

/-! ## The four commands -/

/-- What an averaging command performs with the last step of its last read (R115, R117, R118, R121). -/
def averageEnd : Instr → State → State
  | .readAverage n, s => returnValue (sampleResult s.cfg (s.average n)) s
  | .getValue n, s => returnValue (s.value n) s
  | .getUnits n, s => returnValue (floatDiv s.cfg.fmt (s.value n) s.scale) s
  | .tare n, s => finish { s with offset := offsetOfMean (s.average n) }
  | _, s => s

theorem stepsOf_averaging {i : Instr} {n : Word} (h : averagingCount i = some n) :
    stepsOf i = averageSteps i (averageEnd i) ∧ stepBudget i = 200 * n.toNat ∧ readsFrames i = true := by
  cases i <;> first | (cases h; exact ⟨rfl, rfl, rfl⟩) | cases h

/-- What a command that makes a `Read` performs with the last step of it. -/
def afterRead : Instr → State → State
  | .read, s => returnValue (sampleResult s.cfg (sampleOf s.cfg s.shr)) s
  | .configure _, s => finish s
  | i, s => averageNext i (averageEnd i) s

/-- Every command that makes a `Read` makes it by the same steps. -/
theorem stepsOf_read {i : Instr} (hi : readsFrames i = true) (r : ReadPos) (s : State) :
    stepsOf i (.read r) s = calling i .read (afterRead i) (readStep r s) := by
  cases i <;> first | rfl | cases hi

/-- An accepted averaging command begins with its first read. -/
theorem entry_averaging {i : Instr} {n : Word} {s : State} (h : averagingCount i = some n) (ha : accepted i s = true) :
    entryOf i (hostIssue i s) = averageStart i n (hostIssue i s) := by
  simp only [accepted, Bool.and_eq_true] at ha
  obtain ⟨⟨h1, h2⟩, h3⟩ := ha
  cases i <;> simp only [averagingCount, reduceCtorEq, Option.some.injEq] at h <;> subst h <;>
    simp_all [entryOf, readAverageEntry, getValueEntry, getUnitsEntry, tareEntry, argumentCheck, clockCheck, scaleCheck,
      Instr.wellFormed, usesClock, scaleOk]

end Sys2Proof.Machine
end

