-- ==== Sys2Proof/Laws/PerInstr.lean ====
section
/-!
SUPPORT. What holds of the encoding of every command, one lemma per constructor: its word carries the opcode R66 gives it.
-/

namespace Sys2Proof.Laws

/-- The opcode map (R66). -/
def EncodesOpcode.opcodeOf : Instr → Byte
  | .clkInit _ => 0x01
  | .delayUs _ => 0x02
  | .nowUs => 0x03
  | .nowMs => 0x04
  | .shiftIn _ => 0x10
  | .configure _ => 0x20
  | .isReady => 0x21
  | .waitReady _ => 0x22
  | .waitReadyRetry _ _ => 0x23
  | .waitReadyTimeout _ _ => 0x24
  | .read => 0x25
  | .powerDown => 0x26
  | .powerUp => 0x27
  | .readAverage _ => 0x30
  | .getValue _ => 0x31
  | .getUnits _ => 0x32
  | .tare _ => 0x33
  | .setScale _ _ => 0x34
  | .getScale => 0x35
  | .setOffset _ => 0x36
  | .getOffset => 0x37

/-- The word of the command has the command's opcode in its bits 71:64 (R65, R66). -/
def EncodesOpcode.Statement (i : Instr) : Prop := CmdWord.op (encode i) = EncodesOpcode.opcodeOf i

theorem cmdWord_op (op : Byte) (a b : Word) : CmdWord.op (cmdWord op a b) = op := by
  apply BitVec.eq_of_getLsbD_eq
  intro k hk
  simp only [CmdWord.op, cmdWord, BitVec.getLsbD_extractLsb', BitVec.getLsbD_append]
  simp [hk, show ¬(64 + k < 32) by omega, show ¬(64 + k - 32 < 32) by omega, show 64 + k - 32 - 32 = k by omega]

theorem cmdWord_operandA (op : Byte) (a b : Word) : CmdWord.operandA (cmdWord op a b) = a := by
  apply BitVec.eq_of_getLsbD_eq
  intro k hk
  simp only [CmdWord.operandA, cmdWord, BitVec.getLsbD_extractLsb', BitVec.getLsbD_append]
  simp [hk, show ¬(32 + k < 32) by omega]

theorem cmdWord_operandB (op : Byte) (a b : Word) : CmdWord.operandB (cmdWord op a b) = b := by
  apply BitVec.eq_of_getLsbD_eq
  intro k hk
  simp only [CmdWord.operandB, cmdWord, BitVec.getLsbD_extractLsb', BitVec.getLsbD_append]
  simp [hk]

theorem EncodesOpcode.clkInit (c : Word) : Statement (.clkInit c) := cmdWord_op _ _ _
theorem EncodesOpcode.delayUs (n : Word) : Statement (.delayUs n) := cmdWord_op _ _ _
theorem EncodesOpcode.nowUs : Statement .nowUs := cmdWord_op _ _ _
theorem EncodesOpcode.nowMs : Statement .nowMs := cmdWord_op _ _ _
theorem EncodesOpcode.shiftIn (o : Word) : Statement (.shiftIn o) := cmdWord_op _ _ _
theorem EncodesOpcode.configure (g : Word) : Statement (.configure g) := cmdWord_op _ _ _
theorem EncodesOpcode.isReady : Statement .isReady := cmdWord_op _ _ _
theorem EncodesOpcode.waitReady (d : Word) : Statement (.waitReady d) := cmdWord_op _ _ _
theorem EncodesOpcode.waitReadyRetry (a d : Word) : Statement (.waitReadyRetry a d) := cmdWord_op _ _ _
theorem EncodesOpcode.waitReadyTimeout (t d : Word) : Statement (.waitReadyTimeout t d) := cmdWord_op _ _ _
theorem EncodesOpcode.read : Statement .read := cmdWord_op _ _ _
theorem EncodesOpcode.powerDown : Statement .powerDown := cmdWord_op _ _ _
theorem EncodesOpcode.powerUp : Statement .powerUp := cmdWord_op _ _ _
theorem EncodesOpcode.readAverage (n : Word) : Statement (.readAverage n) := cmdWord_op _ _ _
theorem EncodesOpcode.getValue (n : Word) : Statement (.getValue n) := cmdWord_op _ _ _
theorem EncodesOpcode.getUnits (n : Word) : Statement (.getUnits n) := cmdWord_op _ _ _
theorem EncodesOpcode.tare (n : Word) : Statement (.tare n) := cmdWord_op _ _ _
theorem EncodesOpcode.setScale (l h : Word) : Statement (.setScale l h) := cmdWord_op _ _ _
theorem EncodesOpcode.getScale : Statement .getScale := cmdWord_op _ _ _
theorem EncodesOpcode.setOffset (v : Word) : Statement (.setOffset v) := cmdWord_op _ _ _
theorem EncodesOpcode.getOffset : Statement .getOffset := cmdWord_op _ _ _

end Sys2Proof.Laws
end

