-- ==== Sys2Proof/Laws/Shift.lean ====
section
/-!
SUPPORT. What one `ShiftIn` command does (41_shift.md R94), said once for both bit orders: `shift_frame`.
-/

namespace Sys2Proof.Machine

/-- A sample goes to its own bit of the byte and to no other (R68, R94). -/
theorem assembleBit_getLsbD (o : BitOrder) (b q : Fin 8) (x : Bool) (byt : Byte) :
    (assembleBit o b x byt).getLsbD (bitIndex o q) = (byt.getLsbD (bitIndex o q) || (decide (q = b) && x)) := by
  have hq : bitIndex o q < 8 := by cases o <;> simp only [bitIndex] <;> omega
  cases x
  · simp [assembleBit]
  · simp only [assembleBit, BitVec.getLsbD_or, BitVec.getLsbD_shiftLeft, BitVec.getLsbD_setWidth]
    by_cases h : q = b
    · subst h; simp [hq]
    · have hne : bitIndex o q ≠ bitIndex o b := by
        intro e
        apply h
        apply Fin.ext
        cases o <;> simp only [bitIndex] at e <;> omega
      by_cases h2 : bitIndex o q < bitIndex o b
      · simp [h, h2]
      · have : bitIndex o q - bitIndex o b ≠ 0 := by omega
        simp [h, this]

section
variable {steps : CommandSteps} {i : Instr} {after : State → State} {o : BitOrder}

/-- A step after which the shift-in goes on. -/
theorem shift_at (hc : ∀ p s, steps (.shift p) s = calling i .shift after (shiftInStep o p s)) {s t : State}
    {p p' : ShiftPos} (k : Nat) (hs : s.seq = .run i (.shift p)) (hr : shiftInStep o p (passTime s) = (t, .at_ p')) :
    runSteps steps (k + 1) s = runSteps steps k (goto i (.shift p') t) :=
  runSteps_of_moves steps k s _ i _ hs (by rw [hc, hr]; rfl)

/-- The last step of a shift-in. -/
theorem shift_done (hc : ∀ p s, steps (.shift p) s = calling i .shift after (shiftInStep o p s)) {s t : State}
    {p : ShiftPos} (k : Nat) (hs : s.seq = .run i (.shift p)) (hr : shiftInStep o p (passTime s) = (t, .done)) :
    runSteps steps (k + 1) s = runSteps steps k (after t) :=
  runSteps_of_moves steps k s _ i _ hs (by rw [hc, hr]; rfl)

/-- A bit, from the step after its rising edge to its last one (R94). -/
theorem shift_bit_tail (hc : ∀ p s, steps (.shift p) s = calling i .shift after (shiftInStep o p s)) (k : Nat)
    (s : State) (b : Fin 8) (hs : s.seq = .run i (.shift ⟨b, .settle .latch⟩)) (hsck : s.sck = true) :
    ∃ t, Link 6 [.fall, .sampled (s.drawAt 2).dout] s t ∧ t.sck = false ∧ t.shr = s.shr ∧
      t.byt = assembleBit o b (s.drawAt 2).dout s.byt ∧
      (s.frame = .outside →
        t.frame = .outside ∧ (s.garbageNext = true ∧ s.chipSel = .unknown → t.garbageNext = true ∧ t.chipSel = .unknown)) ∧
      runSteps steps (k + 6) s = runSteps steps k (if b = 7 then after t else goto i (.shift ⟨b + 1, .high⟩) t) := by
  obtain ⟨s1, h1⟩ : ∃ s1, s1 = goto i (.shift ⟨b, .settle .poll⟩)
      { passTime s with t0 := (passTime s).cntRead } := ⟨_, rfl⟩
  obtain ⟨s2, h2⟩ : ∃ s2, s2 = goto i (.shift ⟨b, .sample⟩) (passTime s1) := ⟨_, rfl⟩
  obtain ⟨s3, h3⟩ : ∃ s3, s3 = goto i (.shift ⟨b, .low⟩)
      { noteSample (passTime s2) with
        byt := assembleBit o b (passTime s2).dout (passTime s2).byt } := ⟨_, rfl⟩
  obtain ⟨s4, h4⟩ : ∃ s4, s4 = goto i (.shift ⟨b, .hold .latch⟩) (pinWrite false (passTime s3)) := ⟨_, rfl⟩
  obtain ⟨s5, h5⟩ : ∃ s5, s5 = goto i (.shift ⟨b, .hold .poll⟩)
      { passTime s4 with t0 := (passTime s4).cntRead } := ⟨_, rfl⟩
  have l1 : Link 1 [] s s1 := by
    rw [h1]; exact Link.step [] ((link_t0 _ _).trans (link_goto _ _ _))
  have l2 : Link 1 [] s1 s2 := by rw [h2]; exact Link.step [] (link_goto _ _ _)
  have l3 : Link 1 [.sampled (passTime s2).dout] s2 s3 := by
    rw [h3]; exact Link.step _ ((link_noteSample _ _).trans (link_goto _ _ _))
  have hsck3 : s3.sck = true := by simp [h3, h2, h1, hsck]
  have l4 : Link 1 [.fall] s3 s4 := by
    rw [h4]; exact Link.step _ ((link_low _ (by simpa using hsck3)).trans (link_goto _ _ _))
  have l5 : Link 1 [] s4 s5 := by
    rw [h5]; exact Link.step [] ((link_t0 _ _).trans (link_goto _ _ _))
  have hd : (s2.drawAt 0).dout = (s.drawAt 2).dout := by simp [l2.draws, l1.draws]
  refine ⟨passTime s5, ?_, ?_, ?_, ?_, ?_, ?_⟩
  · have := ((((l1.trans l2).trans l3).trans l4).trans l5).trans (passTime_link s5)
    simpa [hd] using this
  · simp [h5, h4]
  · simp [h5, h4, h3, h2, h1]
  · have hb3 : s3.byt = assembleBit o b (s2.drawAt 0).dout s2.byt := by rw [h3]; rfl
    have hb2 : s2.byt = s.byt := by simp [h2, h1]
    rw [hd, hb2] at hb3
    simpa [h5, h4] using hb3
  · intro hf
    have f1 := passTime_of_outside s hf
    have f2 := passTime_of_outside s1 (by rw [h1]; exact f1.1)
    have f3 := passTime_of_outside s2 (by rw [h2]; exact f2.1)
    have f4 := passTime_of_outside s3 (by rw [h3]; exact f3.1)
    have f5 := passTime_of_outside s4 (by rw [h4]; exact f4.1)
    have f6 := passTime_of_outside s5 (by rw [h5]; exact f5.1)
    refine ⟨f6.1, fun ⟨hg, hu⟩ => ?_⟩
    have g1 : s1.garbageNext = true ∧ s1.chipSel = .unknown := by
      rw [h1]; exact ⟨f1.2.2.trans hg, f1.2.1.trans hu⟩
    have g2 : s2.garbageNext = true ∧ s2.chipSel = .unknown := by
      rw [h2]; exact ⟨f2.2.2.trans g1.1, f2.2.1.trans g1.2⟩
    have g3 : s3.garbageNext = true ∧ s3.chipSel = .unknown := by
      rw [h3]; exact ⟨f3.2.2.trans g2.1, f3.2.1.trans g2.2⟩
    have g4 : s4.garbageNext = true ∧ s4.chipSel = .unknown := by
      rw [h4]
      have e1 := f4.2.2.trans g3.1
      have e2 := f4.2.1.trans g3.2
      exact ⟨by simp [e1], by simp [e2]⟩
    have g5 : s5.garbageNext = true ∧ s5.chipSel = .unknown := by
      rw [h5]; exact ⟨f5.2.2.trans g4.1, f5.2.1.trans g4.2⟩
    exact ⟨f6.2.2.trans g5.1, f6.2.1.trans g5.2⟩
  · have e1 : runSteps steps (k + 6) s = runSteps steps (k + 5) s1 := by
      rw [h1]; exact shift_at hc (k + 5) hs (by simp [shiftInStep, ProcOut.within])
    have e2 : runSteps steps (k + 5) s1 = runSteps steps (k + 4) s2 := by
      rw [h2]; exact shift_at hc (k + 4) (by rw [h1]; rfl) (by simp [shiftInStep, ProcOut.within])
    have e3 : runSteps steps (k + 4) s2 = runSteps steps (k + 3) s3 := by
      rw [h3]; exact shift_at hc (k + 3) (by rw [h2]; rfl) (by simp [shiftInStep])
    have e4 : runSteps steps (k + 3) s3 = runSteps steps (k + 2) s4 := by
      rw [h4]; exact shift_at hc (k + 2) (by rw [h3]; rfl) (by simp [shiftInStep])
    have e5 : runSteps steps (k + 2) s4 = runSteps steps (k + 1) s5 := by
      rw [h5]; exact shift_at hc (k + 1) (by rw [h4]; rfl) (by simp [shiftInStep, ProcOut.within])
    rw [e1, e2, e3, e4, e5]
    have hs5 : s5.seq = .run i (.shift ⟨b, .hold .poll⟩) := by rw [h5]; rfl
    by_cases hb : b = 7
    · rw [if_pos hb]
      exact shift_done hc k hs5 (by simp [shiftInStep, ProcOut.within, hb])
    · rw [if_neg hb]
      exact shift_at hc k hs5 (by simp [shiftInStep, ProcOut.within, hb])

/-- A rising edge of a shift-in outside every frame. -/
theorem shift_high (hc : ∀ p s, steps (.shift p) s = calling i .shift after (shiftInStep o p s)) (k : Nat) (s : State)
    (b : Fin 8) (hs : s.seq = .run i (.shift ⟨b, .high⟩)) (hsck : b ≠ 0 → s.sck = false) :
    ∃ t, t.cfg = s.cfg ∧ t.program = s.program ∧ t.status = s.status ∧ t.res = s.res ∧ t.acc = s.acc ∧ t.ctr = s.ctr ∧
      t.ts = s.ts ∧ t.bound = s.bound ∧ t.csel = s.csel ∧ t.sel = s.sel ∧ t.offset = s.offset ∧ t.scale = s.scale ∧
      t.ie = s.ie ∧ t.wire = (if s.sck then [] else [WireEvent.rise]) ++ s.wire ∧
      (∀ n, t.drawAt n = s.drawAt (n + 1)) ∧ t.sck = true ∧ t.shr = s.shr ∧ t.byt = s.byt ∧
      (s.frame = .outside → t.frame = .outside ∧ t.garbageNext = true ∧ t.chipSel = .unknown) ∧
      t.seq = .run i (.shift ⟨b, .settle .latch⟩) ∧ runSteps steps (k + 1) s = runSteps steps k t := by
  refine ⟨goto i (.shift ⟨b, .settle .latch⟩)
    (pinWrite true (if b = 0 then beginShift (passTime s) else passTime s)), ?_⟩
  have hd : ∀ n, (passTime s).drawAt n = s.drawAt (n + 1) := passTime_drawAt s
  have hrun : runSteps steps (k + 1) s = runSteps steps k (goto i (.shift ⟨b, .settle .latch⟩)
      (pinWrite true (if b = 0 then beginShift (passTime s) else passTime s))) :=
    shift_at hc k hs (by simp [shiftInStep])
  by_cases hb : b = 0
  · rw [if_pos hb] at hrun ⊢
    refine ⟨by simp, by simp, by simp, by simp, by simp, by simp, by simp, by simp, by simp, by simp, by simp, by simp,
      by simp, ?_, hd, by simp, by simp, by simp, ?_, rfl, hrun⟩
    · cases h : s.sck <;> simp [h]
    · intro hf
      have f1 := (passTime_of_outside s hf).1
      cases h : s.sck <;> simp [State.strayRise, h, f1]
  · rw [if_neg hb] at hrun ⊢
    have h := hsck hb
    refine ⟨by simp, by simp, by simp, by simp, by simp, by simp, by simp, by simp, by simp, by simp, by simp, by simp,
      by simp, ?_, hd, by simp, by simp, by simp, ?_, rfl, hrun⟩
    · simp [h]
    · intro hf
      have f1 := (passTime_of_outside s hf).1
      simp [State.strayRise, h, f1]

/-- What is left of a shift-in after the rising edge of bit `b`. -/
structure ShiftDone (m : Nat) (b : Fin 8) (o : BitOrder) (s t : State) : Prop where
  cfg : t.cfg = s.cfg
  program : t.program = s.program
  status : t.status = s.status
  res : t.res = s.res
  acc : t.acc = s.acc
  ctr : t.ctr = s.ctr
  ts : t.ts = s.ts
  bound : t.bound = s.bound
  csel : t.csel = s.csel
  sel : t.sel = s.sel
  offset : t.offset = s.offset
  scale : t.scale = s.scale
  ie : t.ie = s.ie
  sck : t.sck = false
  shr : t.shr = s.shr
  wire : t.wire = (tailEvents m fun p => (s.drawAt (2 + 7 * p)).dout) ++ s.wire
  draws : ∀ k, t.drawAt k = s.drawAt (k + (7 * m + 6))
  byt : ∀ q : Fin 8, t.byt.getLsbD (bitIndex o q) =
    (s.byt.getLsbD (bitIndex o q) || (decide (b.val ≤ q.val) && (s.drawAt (2 + 7 * (q.val - b.val))).dout))
  chip : s.frame = .outside → s.garbageNext = true → s.chipSel = .unknown →
    t.frame = .outside ∧ t.garbageNext = true ∧ t.chipSel = .unknown

theorem shift_tail (hc : ∀ p s, steps (.shift p) s = calling i .shift after (shiftInStep o p s)) :
    ∀ (m : Nat) (b : Fin 8) (k : Nat) (s : State), b.val + m = 7 →
      s.seq = .run i (.shift ⟨b, .settle .latch⟩) → s.sck = true →
      ∃ t, ShiftDone m b o s t ∧ runSteps steps (k + (7 * m + 6)) s = runSteps steps k (after t) := by
  intro m
  induction m with
  | zero =>
    intro b k s hb hs hsck
    have hb7 : b = 7 := Fin.ext (by simpa using hb)
    obtain ⟨t, hl, h1, h2, h3, h5, h4⟩ := shift_bit_tail hc k s b hs hsck
    rw [if_pos hb7] at h4
    refine ⟨t, ⟨hl.cfg, hl.program, hl.status, hl.res, hl.acc, hl.ctr, hl.ts, hl.bound, hl.csel, hl.sel, hl.offset,
      hl.scale, hl.ie, h1, h2, by simpa [tailEvents] using hl.wire, by simpa using hl.draws, ?_, ?_⟩, by simpa using h4⟩
    · intro q
      rw [h3, assembleBit_getLsbD, hb7]
      by_cases hq : q = 7
      · subst hq; simp
      · have : ¬ (7 ≤ q.val) := fun h => hq (Fin.ext (by have := q.isLt; simp; omega))
        simp [hq, this]
    · intro hf hg hu
      exact ⟨(h5 hf).1, (h5 hf).2 ⟨hg, hu⟩⟩
  | succ m ih =>
    intro b k s hb hs hsck
    have hb7 : b ≠ 7 := fun h => by rw [h] at hb; simp at hb
    obtain ⟨t, hl, h1, h2, h3, h5, h4⟩ := shift_bit_tail hc (k + (7 * m + 6) + 1) s b hs hsck
    rw [if_neg hb7] at h4
    have hbv : (b + 1).val = b.val + 1 := by
      have := b.isLt
      simp only [Fin.val_add, Fin.val_one]; omega
    obtain ⟨u, c1, c2, c3, c4, c5, c6, c7, c8, c9, c10, c11, c12, c13, c14, c15, c16, c17, c18, c19, c20, c21⟩ :=
      shift_high hc (k + (7 * m + 6)) (goto i (.shift ⟨b + 1, .high⟩) t) (b + 1) rfl (fun _ => h1)
    obtain ⟨v, hv, e⟩ := ih (b + 1) k u (by omega) c20 c16
    have hdraw : ∀ p, u.drawAt p = s.drawAt (p + 7) := fun p => (c15 p).trans (hl.draws (p + 1))
    refine ⟨v, ⟨(hv.cfg.trans c1).trans hl.cfg, (hv.program.trans c2).trans hl.program,
      (hv.status.trans c3).trans hl.status, (hv.res.trans c4).trans hl.res, (hv.acc.trans c5).trans hl.acc,
      (hv.ctr.trans c6).trans hl.ctr, (hv.ts.trans c7).trans hl.ts, (hv.bound.trans c8).trans hl.bound,
      (hv.csel.trans c9).trans hl.csel, (hv.sel.trans c10).trans hl.sel, (hv.offset.trans c11).trans hl.offset,
      (hv.scale.trans c12).trans hl.scale, (hv.ie.trans c13).trans hl.ie, hv.sck, (hv.shr.trans c17).trans h2, ?_, ?_, ?_,
      ?_⟩, ?_⟩
    · rw [hv.wire, c14, show (goto i (.shift ⟨b + 1, .high⟩) t).wire = t.wire from rfl,
        show (goto i (.shift ⟨b + 1, .high⟩) t).sck = false from h1, hl.wire]
      simp only [tailEvents, hdraw, Bool.false_eq_true, if_false, List.append_assoc, List.cons_append, List.nil_append]
      congr 2
    · intro j
      rw [hv.draws, hdraw]
      congr 1
    · intro q
      have hbyt : u.byt = assembleBit o b (s.drawAt 2).dout s.byt := c18.trans h3
      rw [hv.byt q, hbyt, assembleBit_getLsbD, hdraw, hbv]
      by_cases hq1 : q = b
      · subst hq1; simp
      · have hq2 : q.val ≠ b.val := fun h => hq1 (Fin.ext h)
        by_cases hq3 : b.val + 1 ≤ q.val
        · have e1 : b.val ≤ q.val := by omega
          have e2 : 2 + 7 * (q.val - (b.val + 1)) + 7 = 2 + 7 * (q.val - b.val) := by omega
          simp [hq1, hq3, e1, e2]
        · have e1 : ¬ b.val ≤ q.val := by omega
          simp [hq1, hq3, e1]
    · intro hf hg hu
      have hcu := c19 ((h5 hf).1)
      exact hv.chip hcu.1 hcu.2.1 hcu.2.2
    · rw [show k + (7 * (m + 1) + 6) = k + (7 * m + 6) + 1 + 6 by omega, h4, c21, e]

/-- A whole shift-in: after its 56 steps the command performs what follows on a state that this describes. -/
theorem shift_frame (hc : ∀ p s, steps (.shift p) s = calling i .shift after (shiftInStep o p s)) (k : Nat) (s : State)
    (hs : s.seq = .run i (.shift shiftStart)) (hbyt : s.byt = 0) :
    ∃ t, Agree s t ∧ t.status = s.status ∧ t.ie = s.ie ∧ t.sck = false ∧ t.shr = s.shr ∧
      (∀ q : Fin 8, t.byt.getLsbD (bitIndex o q) = (s.drawAt (3 + 7 * q.val)).dout) ∧
      t.wire = (if s.sck then (shiftEvents fun p => (s.drawAt (3 + 7 * p)).dout).tail
        else shiftEvents fun p => (s.drawAt (3 + 7 * p)).dout).reverse ++ s.wire ∧
      (s.frame = .outside → t.frame = .outside ∧ t.chipSel = .unknown ∧ t.garbageNext = true) ∧
      (∀ n, t.drawAt n = s.drawAt (n + 56)) ∧
      runSteps steps (k + 56) s = runSteps steps k (after t) := by
  obtain ⟨u, c1, c2, c3, c4, c5, c6, c7, c8, c9, c10, c11, c12, c13, c14, c15, c16, c17, c18, c19, c20, c21⟩ :=
    shift_high hc (k + 55) s 0 hs (fun h => absurd rfl h)
  obtain ⟨v, hv, e⟩ := shift_tail hc 7 0 k u rfl c20 c16
  refine ⟨v, ⟨hv.cfg.trans c1, hv.program.trans c2, hv.res.trans c4, hv.acc.trans c5, hv.ctr.trans c6, hv.ts.trans c7,
    hv.bound.trans c8, hv.csel.trans c9, hv.sel.trans c10, hv.offset.trans c11, hv.scale.trans c12⟩, hv.status.trans c3,
    hv.ie.trans c13, hv.sck, hv.shr.trans c17, ?_, ?_, ?_, ?_, by rw [c21]; exact e⟩
  · intro q
    rw [hv.byt q, c18, hbyt, c15]
    have : 2 + 7 * (q.val - (0 : Fin 8).val) + 1 = 3 + 7 * q.val := by simp; omega
    rw [this]
    simp
  · have hd : (fun p => (u.drawAt (2 + 7 * p)).dout) = fun p => (s.drawAt (3 + 7 * p)).dout := by
      funext p; rw [c15]; congr 2; omega
    rw [hv.wire, c14, hd]
    cases s.sck <;> rfl
  · intro hf
    have h1 := c19 hf
    have h2 := hv.chip h1.1 h1.2.1 h1.2.2
    exact ⟨h2.1, h2.2.2, h2.2.1⟩
  · intro n
    rw [hv.draws, c15]

end
end Sys2Proof.Machine
end

