-- ==== Sys2Proof/Laws/Steps.lean ====
section
/-!
SUPPORT. What one atomic step of `SEQ` can do: of each procedure (`Delay`, `Sleep`, `WaitReady`, `ShiftIn`, `Pulse`, `Read`)
which registers it leaves alone, then of each command. Later proofs cite these and do not unfold a procedure.
-/

namespace Sys2Proof.Machine

/-! ## The procedures -/

/-- What no step of any procedure writes. -/
structure ProcFrame (s t : State) : Prop where
  cfg : t.cfg = s.cfg
  program : t.program = s.program
  draws : t.draws = s.draws
  drawCount : t.drawCount = s.drawCount
  seq : t.seq = s.seq
  status : t.status = s.status
  res : t.res = s.res
  acc : t.acc = s.acc
  ctr : t.ctr = s.ctr
  ts : t.ts = s.ts
  ctrs : t.ctrs = s.ctrs
  bound : t.bound = s.bound
  csel : t.csel = s.csel
  sel : t.sel = s.sel
  offset : t.offset = s.offset
  scale : t.scale = s.scale
  dout : t.dout = s.dout
  wire : s.wire <:+ t.wire

theorem ProcFrame.refl (s : State) : ProcFrame s s where
  cfg := rfl
  program := rfl
  draws := rfl
  drawCount := rfl
  seq := rfl
  status := rfl
  res := rfl
  acc := rfl
  ctr := rfl
  ts := rfl
  ctrs := rfl
  bound := rfl
  csel := rfl
  sel := rfl
  offset := rfl
  scale := rfl
  dout := rfl
  wire := List.suffix_rfl

theorem ProcFrame.trans {s t u : State} (h : ProcFrame s t) (h' : ProcFrame t u) : ProcFrame s u where
  cfg := h'.cfg.trans h.cfg
  program := h'.program.trans h.program
  draws := h'.draws.trans h.draws
  drawCount := h'.drawCount.trans h.drawCount
  seq := h'.seq.trans h.seq
  status := h'.status.trans h.status
  res := h'.res.trans h.res
  acc := h'.acc.trans h.acc
  ctr := h'.ctr.trans h.ctr
  ts := h'.ts.trans h.ts
  ctrs := h'.ctrs.trans h.ctrs
  bound := h'.bound.trans h.bound
  csel := h'.csel.trans h.csel
  sel := h'.sel.trans h.sel
  offset := h'.offset.trans h.offset
  scale := h'.scale.trans h.scale
  dout := h'.dout.trans h.dout
  wire := h.wire.trans h'.wire

/-- Only `T0` is written by `Delay` (R86). -/
theorem delayStep_state (n : Nat) (d : DelayPos) (s : State) : ∃ v, (delayStep n d s).1 = { s with t0 := v } := by
  cases d
  · exact ⟨_, rfl⟩
  · refine ⟨s.t0, ?_⟩
    simp only [delayStep]
    split <;> rfl

/-- Only `SLP` is written by `Sleep` (R87). -/
theorem sleepStep_state (d : Word) (p : SleepPos) (s : State) : ∃ v, (sleepStep d p s).1 = { s with slp := v } := by
  cases p
  · exact ⟨_, rfl⟩
  · refine ⟨s.slp, ?_⟩
    simp only [sleepStep]
    split <;> rfl

/-- Only `SLP` is written by `WaitReady` (R99), beside the record of its check. -/
theorem waitReadyStep_state (d : Word) (w : WaitPos) (s : State) :
    ∃ v x, (waitReadyStep d w s).1 = { s with slp := v, wire := x } ∧ s.wire <:+ x := by
  cases w with
  | check => exact ⟨s.slp, _, rfl, List.suffix_cons _ _⟩
  | sleep p =>
    obtain ⟨v, hv⟩ := sleepStep_state d p s
    exact ⟨v, s.wire, by simpa [waitReadyStep] using hv, List.suffix_rfl⟩

theorem pinWrite_procFrame (v : Bool) (s : State) : ProcFrame s (pinWrite v s) := by
  constructor <;> try rfl
  simp only [pinWrite]
  split
  · exact List.suffix_cons _ _
  · split
    · exact List.suffix_cons _ _
    · exact List.suffix_rfl

theorem beginShift_procFrame (s : State) : ProcFrame s (beginShift s) := by
  constructor <;> rfl

/-- What a step of a shift-in leaves alone (R94, R97). -/
theorem shiftInStep_frame (o : BitOrder) (p : ShiftPos) (s : State) :
    ProcFrame s (shiftInStep o p s).1 ∧ (shiftInStep o p s).1.ie = s.ie ∧ (shiftInStep o p s).1.shr = s.shr ∧
      (shiftInStep o p s).1.slp = s.slp ∧ (shiftInStep o p s).1.sampleSel = s.sampleSel := by
  rcases p with ⟨b, _ | d | _ | _ | d⟩
  · refine ⟨?_, ?_⟩
    · simp only [shiftInStep]
      split
      · exact (beginShift_procFrame s).trans (pinWrite_procFrame _ _)
      · exact pinWrite_procFrame _ _
    · simp only [shiftInStep]
      split <;> simp
  · obtain ⟨v, hv⟩ := delayStep_state 1 d s
    rw [show (shiftInStep o ⟨b, .settle d⟩ s).1 = { s with t0 := v } from hv]
    exact ⟨by constructor <;> rfl, rfl, rfl, rfl, rfl⟩
  · exact ⟨by constructor <;> first | rfl | exact List.suffix_cons _ _, rfl, rfl, rfl, rfl⟩
  · exact ⟨pinWrite_procFrame _ _, rfl, rfl, rfl, rfl⟩
  · obtain ⟨v, hv⟩ := delayStep_state 1 d s
    rw [show (shiftInStep o ⟨b, .hold d⟩ s).1 = { s with t0 := v } from hv]
    exact ⟨by constructor <;> rfl, rfl, rfl, rfl, rfl⟩

/-- What a step of a pulse leaves alone (R93). -/
theorem pulseStep_frame (p : PulsePos) (s : State) :
    ProcFrame s (pulseStep p s).1 ∧ (pulseStep p s).1.ie = s.ie ∧ (pulseStep p s).1.shr = s.shr ∧
      (pulseStep p s).1.byt = s.byt ∧ (pulseStep p s).1.slp = s.slp := by
  rcases p with _ | d | _ | d
  · exact ⟨pinWrite_procFrame _ _, rfl, rfl, rfl, rfl⟩
  · obtain ⟨v, hv⟩ := delayStep_state 1 d s
    rw [show (pulseStep (.highDelay d) s).1 = { s with t0 := v } from hv]
    exact ⟨by constructor <;> rfl, rfl, rfl, rfl, rfl⟩
  · exact ⟨pinWrite_procFrame _ _, rfl, rfl, rfl, rfl⟩
  · obtain ⟨v, hv⟩ := delayStep_state 1 d s
    rw [show (pulseStep (.lowDelay d) s).1 = { s with t0 := v } from hv]
    exact ⟨by constructor <;> rfl, rfl, rfl, rfl, rfl⟩

/-- What follows a step of the shift-in of byte `j`: at its end the byte is stored (R103). -/
def byteOut (j : Fin 3) (x : State × ProcOut ShiftPos) : State × ProcOut ReadPos :=
  match x.2 with
  | .at_ p => (x.1, .at_ (.byte j p))
  | .waiting p => (x.1, .waiting (.byte j p))
  | .done =>
    if j = 2 then ({ x.1 with shr := storeByte j x.1.byt x.1.shr }, .at_ (.pulse 1 (pulses x.1.sel) .high))
    else ({ x.1 with shr := storeByte j x.1.byt x.1.shr, byt := 0 }, .at_ (.byte (j + 1) shiftStart))

theorem readStep_byte (j : Fin 3) (p : ShiftPos) (s : State) :
    readStep (.byte j p) s =
      byteOut j (shiftInStep .msbFirst p (if j = 0 ∧ p = shiftStart then openFrame s else s)) := by
  simp only [readStep]
  split
  · rename_i s' h
    rw [h]
    rfl
  · rename_i s' o h1 h
    rw [h]
    cases o
    · rfl
    · rfl
    · exact absurd rfl h1

theorem byteOut_frame (j : Fin 3) (x : State × ProcOut ShiftPos) : ProcFrame x.1 (byteOut j x).1 := by
  rcases x with ⟨s, _ | _ | _⟩
  · exact ProcFrame.refl s
  · exact ProcFrame.refl s
  · have h1 : ∀ shr byt, ProcFrame s { s with shr := shr, byt := byt } := fun shr byt => by
      constructor <;> rfl
    simp only [byteOut]
    split
    · exact h1 _ s.byt
    · exact h1 _ _

/-- What a step of a read leaves alone (R103). -/
theorem readStep_frame (r : ReadPos) (s : State) : ProcFrame s (readStep r s).1 := by
  cases r with
  | wait w =>
    obtain ⟨v, x, h, hx⟩ := waitReadyStep_state s.cfg.readPollDelay w s
    simp only [readStep, h]
    constructor <;> first | rfl | exact hx
  | mask => constructor <;> rfl
  | byte j p =>
    rw [readStep_byte]
    refine ProcFrame.trans ?_ (byteOut_frame j _)
    refine ProcFrame.trans ?_ (shiftInStep_frame _ _ _).1
    split
    · constructor <;> rfl
    · exact ProcFrame.refl s
  | pulse k count p => exact (pulseStep_frame p s).1
  | unmask => constructor <;> rfl

/-! ## The commands -/

/-- What a step of the command `i` leaves alone: every register the spec does not name as written by it (R38). -/
structure StepFrame (i : Instr) (s t : State) : Prop where
  cfg : t.cfg = s.cfg
  program : t.program = s.program
  draws : t.draws = s.draws
  drawCount : t.drawCount = s.drawCount
  ctrs : t.ctrs = s.ctrs
  dout : t.dout = s.dout
  sel : t.sel = s.sel
  wire : s.wire <:+ t.wire
  bound : (∀ c, i ≠ .clkInit c) → t.bound = s.bound ∧ t.csel = s.csel
  offset : (∀ v, i ≠ .setOffset v) → (∀ n, i ≠ .tare n) → t.offset = s.offset
  scale : (∀ a b, i ≠ .setScale a b) → t.scale = s.scale
  res : returnsValue i = false → t.res = s.res
  acc : averagingCount i = none → t.acc = s.acc
  ctr : averagingCount i = none → (∀ a d, i ≠ .waitReadyRetry a d) → t.ctr = s.ctr
  ts : (∀ a d, i ≠ .waitReadyTimeout a d) → t.ts = s.ts
  frames : readsFrames i = false → t.shr = s.shr ∧ t.ie = s.ie ∧ t.sampleSel = s.sampleSel
  byt : readsFrames i = false → (∀ o, i ≠ .shiftIn o) → t.byt = s.byt
  t0 : delays i = false → t.t0 = s.t0
  slp : sleeps i = false → t.slp = s.slp
  sck : drivesClock i = false → t.sck = s.sck

theorem StepFrame.refl (i : Instr) (s : State) : StepFrame i s s := by
  constructor <;> simp

theorem StepFrame.trans {i : Instr} {s t u : State} (h : StepFrame i s t) (h' : StepFrame i t u) : StepFrame i s u where
  cfg := h'.cfg.trans h.cfg
  program := h'.program.trans h.program
  draws := h'.draws.trans h.draws
  drawCount := h'.drawCount.trans h.drawCount
  ctrs := h'.ctrs.trans h.ctrs
  dout := h'.dout.trans h.dout
  sel := h'.sel.trans h.sel
  wire := h.wire.trans h'.wire
  bound := fun a => ⟨(h'.bound a).1.trans (h.bound a).1, (h'.bound a).2.trans (h.bound a).2⟩
  offset := fun a b => (h'.offset a b).trans (h.offset a b)
  scale := fun a => (h'.scale a).trans (h.scale a)
  res := fun a => (h'.res a).trans (h.res a)
  acc := fun a => (h'.acc a).trans (h.acc a)
  ctr := fun a b => (h'.ctr a b).trans (h.ctr a b)
  ts := fun a => (h'.ts a).trans (h.ts a)
  frames := fun a => ⟨(h'.frames a).1.trans (h.frames a).1, (h'.frames a).2.1.trans (h.frames a).2.1,
    (h'.frames a).2.2.trans (h.frames a).2.2⟩
  byt := fun a b => (h'.byt a b).trans (h.byt a b)
  t0 := fun a => (h'.t0 a).trans (h.t0 a)
  slp := fun a => (h'.slp a).trans (h.slp a)
  sck := fun a => (h'.sck a).trans (h.sck a)

theorem StepFrame.goto (i j : Instr) (p : Pos) (s : State) : StepFrame i s (Machine.goto j p s) := by
  constructor <;> simp

theorem StepFrame.finish (i : Instr) (s : State) : StepFrame i s (Machine.finish s) := by
  constructor <;> simp

theorem StepFrame.returnValue (i : Instr) (v : Nat) (s : State) (h : returnsValue i = true) :
    StepFrame i s (Machine.returnValue v s) := by
  constructor <;> simp [h]

/-- A step of a procedure is a step of the command, where the registers it writes are the command's. -/
theorem ProcFrame.stepFrame {i : Instr} {s t : State} (h : ProcFrame s t)
    (frames : readsFrames i = false → t.shr = s.shr ∧ t.ie = s.ie ∧ t.sampleSel = s.sampleSel)
    (byt : readsFrames i = false → (∀ o, i ≠ .shiftIn o) → t.byt = s.byt) (t0 : delays i = false → t.t0 = s.t0)
    (slp : sleeps i = false → t.slp = s.slp) (sck : drivesClock i = false → t.sck = s.sck) : StepFrame i s t where
  cfg := h.cfg
  program := h.program
  draws := h.draws
  drawCount := h.drawCount
  ctrs := h.ctrs
  dout := h.dout
  sel := h.sel
  wire := h.wire
  bound := fun _ => ⟨h.bound, h.csel⟩
  offset := fun _ _ => h.offset
  scale := fun _ => h.scale
  res := fun _ => h.res
  acc := fun _ => h.acc
  ctr := fun _ _ => h.ctr
  ts := fun _ => h.ts
  frames := frames
  byt := byt
  t0 := t0
  slp := slp
  sck := sck

/-- A step of a procedure that the command calls, and what follows it. -/
theorem StepFrame.calling {π : Type} {i : Instr} {inside : π → Pos} {after : State → State} {s : State}
    {r : State × ProcOut π} (hr : StepFrame i s r.1) (ha : StepFrame i r.1 (after r.1)) :
    StepFrame i s (Machine.calling i inside after r).1 := by
  rcases r with ⟨u, _ | _ | _⟩
  · exact hr.trans (StepFrame.goto _ _ _ _)
  · exact hr.trans (StepFrame.goto _ _ _ _)
  · exact hr.trans ha

theorem of_true_eq_false {b : Prop} (h : true = false) : b := Bool.noConfusion h

theorem of_readsFrames {i : Instr} (h : readsFrames i = true) :
    delays i = true ∧ sleeps i = true ∧ drivesClock i = true := by
  cases i <;> first | exact ⟨rfl, rfl, rfl⟩ | cases h

/-- A step of a read in a command that makes one. -/
theorem readStep_stepFrame {i : Instr} (hi : readsFrames i = true) (r : ReadPos) (s : State) :
    StepFrame i s (readStep r s).1 := by
  obtain ⟨h1, h2, h3⟩ := of_readsFrames hi
  exact (readStep_frame r s).stepFrame (fun h => of_true_eq_false (hi.symm.trans h))
    (fun h => of_true_eq_false (hi.symm.trans h)) (fun h => of_true_eq_false (h1.symm.trans h))
    (fun h => of_true_eq_false (h2.symm.trans h)) (fun h => of_true_eq_false (h3.symm.trans h))

theorem waitReadyStep_stepFrame {i : Instr} (hi : sleeps i = true) (d : Word) (w : WaitPos) (s : State) :
    StepFrame i s (waitReadyStep d w s).1 := by
  obtain ⟨v, x, h, hx⟩ := waitReadyStep_state d w s
  rw [h]
  constructor <;> simp [hi, hx]

theorem sleepStep_stepFrame {i : Instr} (hi : sleeps i = true) (d : Word) (p : SleepPos) (s : State) :
    StepFrame i s (sleepStep d p s).1 := by
  obtain ⟨v, h⟩ := sleepStep_state d p s
  rw [h]
  constructor <;> simp [hi]

theorem averageSteps_stepFrame {i : Instr} {n : Word} {after : State → State} (hi : averagingCount i = some n)
    (hr : readsFrames i = true) (ha : ∀ u, StepFrame i u (after u)) (p : Pos) (s : State) :
    StepFrame i s (averageSteps i after p s).1 := by
  cases p with
  | read r =>
    refine StepFrame.calling (readStep_stepFrame hr r s) ?_
    have h1 : ∀ (u : State) (a : BitVec 64) (c : BitVec 32), StepFrame i u { u with acc := a, ctr := c } := by
      intro u a c
      constructor <;> simp [hi]
    dsimp only
    split
    · exact (h1 _ _ _).trans (ha _)
    · exact (h1 _ _ _).trans (StepFrame.goto _ _ _ _)
  | _ => exact StepFrame.refl _ _

/-- What one step of a command leaves alone. -/
theorem stepsOf_frame (i : Instr) (p : Pos) (s : State) : StepFrame i s (stepsOf i p s).1 := by
  cases i with
  | clkInit c =>
    cases p with
    | act => constructor <;> simp [stepsOf, clkInitSteps, oneStep]
    | _ => exact StepFrame.refl _ _
  | delayUs n =>
    cases p with
    | delay d =>
      obtain ⟨v, h⟩ := delayStep_state (counterOperand s.cfg n) d s
      refine StepFrame.calling ?_ (StepFrame.finish _ _)
      rw [h]
      constructor <;> first | exact of_true_eq_false | simp
    | _ => exact StepFrame.refl _ _
  | nowUs =>
    cases p with
    | act => exact StepFrame.returnValue _ _ _ rfl
    | _ => exact StepFrame.refl _ _
  | nowMs =>
    cases p with
    | act => exact StepFrame.returnValue _ _ _ rfl
    | _ => exact StepFrame.refl _ _
  | shiftIn o =>
    cases p with
    | shift p =>
      simp only [stepsOf, shiftInSteps]
      split
      · rename_i order _
        refine StepFrame.calling ?_ (StepFrame.returnValue _ _ _ rfl)
        obtain ⟨h, h1, h2, h3, h4⟩ := shiftInStep_frame order p s
        exact h.stepFrame (fun _ => ⟨h2, h1, h4⟩) (fun _ a => absurd rfl (a o)) of_true_eq_false
          (fun _ => h3) of_true_eq_false
      · exact StepFrame.refl _ _
    | _ => exact StepFrame.refl _ _
  | configure g =>
    cases p with
    | act =>
      refine StepFrame.trans ?_ (StepFrame.goto _ _ _ _)
      exact (pinWrite_procFrame false s).stepFrame of_true_eq_false of_true_eq_false of_true_eq_false
        of_true_eq_false of_true_eq_false
    | read r => exact StepFrame.calling (readStep_stepFrame rfl r s) (StepFrame.finish _ _)
    | _ => exact StepFrame.refl _ _
  | isReady =>
    cases p with
    | act =>
      refine StepFrame.trans (t := noteCheck s) ?_ (StepFrame.returnValue _ _ _ rfl)
      constructor <;> simp
    | _ => exact StepFrame.refl _ _
  | waitReady d =>
    cases p with
    | wait w => exact StepFrame.calling (waitReadyStep_stepFrame rfl d w s) (StepFrame.finish _ _)
    | _ => exact StepFrame.refl _ _
  | waitReadyRetry a d =>
    have hc : StepFrame (.waitReadyRetry a d) s (noteCheck s) := by constructor <;> simp
    cases p with
    | wait w =>
      cases w with
      | check =>
        simp only [stepsOf, waitReadyRetrySteps]
        split
        · exact hc.trans (StepFrame.returnValue _ _ _ rfl)
        · exact hc.trans (StepFrame.goto _ _ _ _)
      | sleep p =>
        refine StepFrame.calling (sleepStep_stepFrame rfl d p s) ?_
        have h1 : ∀ (u : State) (c : BitVec 32), StepFrame (.waitReadyRetry a d) u { u with ctr := c } := by
          intro u c
          constructor <;> simp
        simp only [retryTest]
        split
        · exact (h1 _ _).trans (StepFrame.goto _ _ _ _)
        · exact (h1 _ _).trans (StepFrame.returnValue _ _ _ rfl)
    | _ => exact StepFrame.refl _ _
  | waitReadyTimeout a d =>
    have hc : StepFrame (.waitReadyTimeout a d) s (noteCheck s) := by constructor <;> simp
    cases p with
    | act =>
      refine StepFrame.trans (t := { s with ts := s.nowMs }) ?_ (StepFrame.goto _ _ _ _)
      constructor <;> simp
    | timeTest =>
      simp only [stepsOf, waitReadyTimeoutSteps]
      split
      · exact StepFrame.goto _ _ _ _
      · exact StepFrame.returnValue _ _ _ rfl
    | wait w =>
      cases w with
      | check =>
        simp only [stepsOf, waitReadyTimeoutSteps]
        split
        · exact hc.trans (StepFrame.returnValue _ _ _ rfl)
        · exact hc.trans (StepFrame.goto _ _ _ _)
      | sleep p => exact StepFrame.calling (sleepStep_stepFrame rfl d p s) (StepFrame.goto _ _ _ _)
    | _ => exact StepFrame.refl _ _
  | read =>
    cases p with
    | read r => exact StepFrame.calling (readStep_stepFrame rfl r s) (StepFrame.returnValue _ _ _ rfl)
    | _ => exact StepFrame.refl _ _
  | powerDown =>
    cases p with
    | act =>
      exact StepFrame.trans ((pinWrite_procFrame true s).stepFrame (fun _ => ⟨rfl, rfl, rfl⟩) (fun _ _ => rfl)
        (fun _ => rfl) (fun _ => rfl) of_true_eq_false) (StepFrame.finish _ _)
    | _ => exact StepFrame.refl _ _
  | powerUp =>
    cases p with
    | act =>
      exact StepFrame.trans ((pinWrite_procFrame false s).stepFrame (fun _ => ⟨rfl, rfl, rfl⟩) (fun _ _ => rfl)
        (fun _ => rfl) (fun _ => rfl) of_true_eq_false) (StepFrame.finish _ _)
    | _ => exact StepFrame.refl _ _
  | readAverage n => exact averageSteps_stepFrame rfl rfl (fun u => StepFrame.returnValue _ _ _ rfl) p s
  | getValue n => exact averageSteps_stepFrame rfl rfl (fun u => StepFrame.returnValue _ _ _ rfl) p s
  | getUnits n => exact averageSteps_stepFrame rfl rfl (fun u => StepFrame.returnValue _ _ _ rfl) p s
  | tare n =>
    refine averageSteps_stepFrame rfl rfl (fun u => ?_) p s
    refine StepFrame.trans (t := { u with offset := offsetOfMean (u.average n) }) ?_ (StepFrame.finish _ _)
    constructor <;> simp
  | setScale a b =>
    cases p with
    | act => constructor <;> simp [stepsOf, setScaleSteps, oneStep]
    | _ => exact StepFrame.refl _ _
  | getScale => exact StepFrame.refl _ _
  | setOffset v =>
    cases p with
    | act => constructor <;> simp [stepsOf, setOffsetSteps, oneStep]
    | _ => exact StepFrame.refl _ _
  | getOffset => exact StepFrame.refl _ _

/-- After a step a command is in progress still, or has ended without a fault (R12, R27). -/
def Course (i : Instr) (s t : State) : Prop :=
  ((∃ q, t.seq = .run i q) ∧ t.status = s.status) ∨ (t.seq = .idle ∧ t.status = statusWord 0 false)

theorem Course.calling {π : Type} {i : Instr} {inside : π → Pos} {after : State → State} {s : State}
    {r : State × ProcOut π} (hr : r.1.status = s.status) (ha : Course i s (after r.1)) :
    Course i s (Machine.calling i inside after r).1 := by
  rcases r with ⟨u, _ | _ | _⟩
  · exact .inl ⟨⟨_, rfl⟩, hr⟩
  · exact .inl ⟨⟨_, rfl⟩, hr⟩
  · exact ha

theorem averageSteps_course {i : Instr} {after : State → State} {p : Pos} {s : State} (hs : s.seq = .run i p)
    (ha : ∀ u, (after u).seq = .idle ∧ (after u).status = statusWord 0 false) :
    Course i s (averageSteps i after p s).1 := by
  cases p with
  | read r =>
    refine Course.calling (readStep_frame r s).status ?_
    dsimp only
    split
    · exact .inr (ha _)
    · exact .inl ⟨⟨_, rfl⟩, (readStep_frame r s).status⟩
  | _ => exact .inl ⟨⟨_, hs⟩, rfl⟩

/-- Where `SEQ` stands after a step of a command. -/
theorem stepsOf_course (i : Instr) (p : Pos) (s : State) (hs : s.seq = .run i p) : Course i s (stepsOf i p s).1 := by
  cases i with
  | clkInit c => cases p <;> first | exact .inr ⟨rfl, rfl⟩ | exact .inl ⟨⟨_, hs⟩, rfl⟩
  | delayUs n =>
    cases p with
    | delay d =>
      obtain ⟨v, h⟩ := delayStep_state (counterOperand s.cfg n) d s
      exact Course.calling (by rw [h]) (.inr ⟨rfl, rfl⟩)
    | _ => exact .inl ⟨⟨_, hs⟩, rfl⟩
  | nowUs => cases p <;> first | exact .inr ⟨rfl, rfl⟩ | exact .inl ⟨⟨_, hs⟩, rfl⟩
  | nowMs => cases p <;> first | exact .inr ⟨rfl, rfl⟩ | exact .inl ⟨⟨_, hs⟩, rfl⟩
  | shiftIn o =>
    cases p with
    | shift p =>
      simp only [stepsOf, shiftInSteps]
      split
      · rename_i order _
        exact Course.calling (shiftInStep_frame order p s).1.status (.inr ⟨rfl, rfl⟩)
      · exact .inl ⟨⟨_, hs⟩, rfl⟩
    | _ => exact .inl ⟨⟨_, hs⟩, rfl⟩
  | configure g =>
    cases p with
    | act => exact .inl ⟨⟨_, rfl⟩, rfl⟩
    | read r => exact Course.calling (readStep_frame r s).status (.inr ⟨rfl, rfl⟩)
    | _ => exact .inl ⟨⟨_, hs⟩, rfl⟩
  | isReady => cases p <;> first | exact .inr ⟨rfl, rfl⟩ | exact .inl ⟨⟨_, hs⟩, rfl⟩
  | waitReady d =>
    cases p with
    | wait w =>
      obtain ⟨v, x, h, _⟩ := waitReadyStep_state d w s
      exact Course.calling (by rw [h]) (.inr ⟨rfl, rfl⟩)
    | _ => exact .inl ⟨⟨_, hs⟩, rfl⟩
  | waitReadyRetry a d =>
    cases p with
    | wait w =>
      cases w with
      | check =>
        simp only [stepsOf, waitReadyRetrySteps]
        split
        · exact .inr ⟨rfl, rfl⟩
        · exact .inl ⟨⟨_, rfl⟩, rfl⟩
      | sleep p =>
        obtain ⟨v, h⟩ := sleepStep_state d p s
        refine Course.calling (by rw [h]) ?_
        simp only [retryTest]
        split
        · exact .inl ⟨⟨_, rfl⟩, by rw [h]; rfl⟩
        · exact .inr ⟨rfl, rfl⟩
    | _ => exact .inl ⟨⟨_, hs⟩, rfl⟩
  | waitReadyTimeout a d =>
    cases p with
    | act => exact .inl ⟨⟨_, rfl⟩, rfl⟩
    | timeTest =>
      simp only [stepsOf, waitReadyTimeoutSteps]
      split
      · exact .inl ⟨⟨_, rfl⟩, rfl⟩
      · exact .inr ⟨rfl, rfl⟩
    | wait w =>
      cases w with
      | check =>
        simp only [stepsOf, waitReadyTimeoutSteps]
        split
        · exact .inr ⟨rfl, rfl⟩
        · exact .inl ⟨⟨_, rfl⟩, rfl⟩
      | sleep p =>
        obtain ⟨v, h⟩ := sleepStep_state d p s
        exact Course.calling (by rw [h]) (.inl ⟨⟨_, rfl⟩, by rw [h]; rfl⟩)
    | _ => exact .inl ⟨⟨_, hs⟩, rfl⟩
  | read =>
    cases p with
    | read r => exact Course.calling (readStep_frame r s).status (.inr ⟨rfl, rfl⟩)
    | _ => exact .inl ⟨⟨_, hs⟩, rfl⟩
  | powerDown => cases p <;> first | exact .inr ⟨rfl, rfl⟩ | exact .inl ⟨⟨_, hs⟩, rfl⟩
  | powerUp => cases p <;> first | exact .inr ⟨rfl, rfl⟩ | exact .inl ⟨⟨_, hs⟩, rfl⟩
  | readAverage n => exact averageSteps_course hs fun u => ⟨rfl, rfl⟩
  | getValue n => exact averageSteps_course hs fun u => ⟨rfl, rfl⟩
  | getUnits n => exact averageSteps_course hs fun u => ⟨rfl, rfl⟩
  | tare n => exact averageSteps_course hs fun u => ⟨rfl, rfl⟩
  | setScale a b => cases p <;> first | exact .inr ⟨rfl, rfl⟩ | exact .inl ⟨⟨_, hs⟩, rfl⟩
  | getScale => exact .inl ⟨⟨_, hs⟩, rfl⟩
  | setOffset v => cases p <;> first | exact .inr ⟨rfl, rfl⟩ | exact .inl ⟨⟨_, hs⟩, rfl⟩
  | getOffset => exact .inl ⟨⟨_, hs⟩, rfl⟩

/-- What time and the steps of the command in progress keep, its run keeps. -/
theorem runSteps_of_course {P : State → Prop} (i : Instr) (time : ∀ s, P s → P (passTime s))
    (step : ∀ s p, s.seq = .run i p → P s → P (stepsOf i p s).1) :
    ∀ k s, P s → (s.seq = .idle ∨ ∃ p, s.seq = .run i p) →
      P (runSteps (stepsOf i) k s) ∧
        ((runSteps (stepsOf i) k s).seq = .idle ∨ ∃ p, (runSteps (stepsOf i) k s).seq = .run i p) := by
  intro k
  induction k with
  | zero => exact fun s h hq => ⟨h, hq⟩
  | succ k ih =>
    rintro s h (hs | ⟨p, hs⟩)
    · rw [runSteps_of_idle _ _ _ hs]
      exact ⟨h, .inl hs⟩
    · have hp : (passTime s).seq = .run i p := by simpa using hs
      have h2 := step (passTime s) p hp (time s h)
      have h3 : ((stepsOf i p (passTime s)).1).seq = .idle ∨ ∃ q, ((stepsOf i p (passTime s)).1).seq = .run i q := by
        rcases stepsOf_course i p _ hp with ⟨h3, _⟩ | ⟨h3, _⟩
        · exact .inr h3
        · exact .inl h3
      rcases hr : stepsOf i p (passTime s) with ⟨t, _ | _⟩ <;> rw [hr] at h2 h3
      · rw [runSteps_of_moves _ k s t i p hs hr]
        exact ih t h2 h3
      · rw [runSteps_of_waits _ k s t i p hs hr]
        exact ⟨h2, h3⟩

/-- What the issue of a command and its entry leave alone: every field but `SEQ` and `STATUS`, the selector of `CONFIGURE`,
the result of a command that returns one, and the loop registers a command clears before its first step. -/
theorem entry_keeps {α : Type} (f : State → α) (hseq : ∀ (u : State) a b, f { u with seq := a, status := b } = f u)
    (i : Instr) (s : State) (h1 : ∀ g, i = .configure g → ∀ u x, f { u with sel := x } = f u)
    (h2 : returnsValue i = true → ∀ u x, f { u with res := x } = f u)
    (h3 : averagingCount i ≠ none → ∀ u x y, f { u with acc := x, ctr := y } = f u)
    (h4 : ∀ a d, i = .waitReadyRetry a d → ∀ u x, f { u with ctr := x } = f u)
    (h5 : ∀ o, i = .shiftIn o → ∀ u x, f { u with byt := x } = f u) :
    f (entryOf i (hostIssue i s)) = f s := by
  have hg : ∀ j p u, f (goto j p u) = f u := fun j p u => hseq u _ u.status
  have hh : ∀ j u, f (hostIssue j u) = f u := fun j u => hseq u _ _
  have hr : ∀ c u, f (raise c u) = f u := fun c u => hseq u _ _
  have hrv : returnsValue i = true → ∀ v u, f (returnValue v u) = f u := fun h v u => by
    rw [show returnValue v u = { { u with res := v } with seq := .idle, status := statusWord 0 false } from rfl,
      hseq, h2 h]
  cases i <;>
    simp only [entryOf, clkInitEntry, delayUsEntry, nowUsEntry, nowMsEntry, shiftInEntry, configureEntry, isReadyEntry,
      waitReadyEntry, waitReadyRetryEntry, waitReadyTimeoutEntry, readEntry, powerDownEntry, powerUpEntry,
      readAverageEntry, getValueEntry, getUnitsEntry, tareEntry, setScaleEntry, getScaleEntry, setOffsetEntry,
      getOffsetEntry, argumentCheck, clockCheck, scaleCheck, averageStart, selectGain, retryTest]
  all_goals repeat' split
  all_goals try simp only [hg, hh, hr, id]
  all_goals try simp only [hrv rfl, hh]
  all_goals try simp only [h1 _ rfl, hh]
  all_goals try simp only [h3 (by simp [averagingCount]), hh]
  all_goals try simp only [h4 _ _ rfl, hh]
  all_goals try simp only [h5 _ rfl, hh]

/-- Which bit orders R73 knows. -/
theorem bitOrderOf_isSome (o : Word) : (bitOrderOf o).isSome = decide (o.toNat ≤ 1) := by
  unfold bitOrderOf
  by_cases h0 : o = 0
  · simp [h0]
  · by_cases h1 : o = 1
    · simp [h1]
    · have : ¬ o.toNat ≤ 1 := by
        intro h
        have : o.toNat = 0 ∨ o.toNat = 1 := by omega
        rcases this with h | h
        · exact h0 (BitVec.eq_of_toNat_eq (by simpa using h))
        · exact h1 (BitVec.eq_of_toNat_eq (by simpa using h))
      rw [if_neg h0, if_neg h1]; simpa using this

/-- Which gain codes R70 knows. -/
theorem legalGain_eq (g : Word) : legalGain g = (selectorOfGain g).isSome := by
  simp only [legalGain, selectorOfGain]
  by_cases h1 : g = 128
  · simp [h1]
  · by_cases h2 : g = 64
    · simp [h2]
    · by_cases h3 : g = 32
      · simp [h3]
      · have a1 : (g == 128) = false := by simpa using h1
        have a2 : (g == 64) = false := by simpa using h2
        have a3 : (g == 32) = false := by simpa using h3
        rw [if_neg h1, if_neg h2, if_neg h3, a1, a2, a3]; rfl

/-- The entry of a refused command raises the first fault in the order of R131. -/
theorem entry_refused (i : Instr) (s : State) (h : accepted i s = false) :
    entryOf i (hostIssue i s) = raise (if i.wellFormed s.cfg.nctr = false then .invalidArgument
        else if usesClock i = true ∧ s.bound = false then .clockUnbound else .invalidState) (hostIssue i s) := by
  cases i <;>
    simp only [entryOf, clkInitEntry, delayUsEntry, nowUsEntry, nowMsEntry, shiftInEntry, configureEntry, isReadyEntry,
      waitReadyEntry, waitReadyRetryEntry, waitReadyTimeoutEntry, readEntry, powerDownEntry, powerUpEntry,
      readAverageEntry, getValueEntry, getUnitsEntry, tareEntry, setScaleEntry, getScaleEntry, setOffsetEntry,
      getOffsetEntry, argumentCheck, clockCheck, scaleCheck, Instr.wellFormed, usesClock, hostIssue_fields,
      bitOrderOf_isSome, ← legalGain_eq]
  all_goals simp only [accepted, Instr.wellFormed, usesClock, scaleOk] at h
  all_goals cases hb : s.bound
  all_goals simp_all
  all_goals repeat' split
  all_goals try simp_all
  all_goals try omega

/-- The entry of an accepted command leads to its first step, or ends a command that has none. -/
theorem entry_accepted (i : Instr) (s : State) (h : accepted i s = true) :
    (∃ q, posOf i q = true ∧ (entryOf i (hostIssue i s)).seq = .run i q ∧
      (entryOf i (hostIssue i s)).status = statusWord 0 true) ∨
    ((entryOf i (hostIssue i s)).seq = .idle ∧ (entryOf i (hostIssue i s)).status = statusWord 0 false) := by
  cases i <;>
    simp only [entryOf, clkInitEntry, delayUsEntry, nowUsEntry, nowMsEntry, shiftInEntry, configureEntry, isReadyEntry,
      waitReadyEntry, waitReadyRetryEntry, waitReadyTimeoutEntry, readEntry, powerDownEntry, powerUpEntry,
      readAverageEntry, getValueEntry, getUnitsEntry, tareEntry, setScaleEntry, getScaleEntry, setOffsetEntry,
      getOffsetEntry, argumentCheck, clockCheck, scaleCheck, retryTest, hostIssue_fields, bitOrderOf_isSome,
      ← legalGain_eq]
  all_goals simp only [accepted, Instr.wellFormed, usesClock, scaleOk] at h
  all_goals simp_all
  all_goals first
    | rfl
    | exact .inr ⟨rfl, rfl⟩
    | exact .inl ⟨_, rfl, rfl, rfl⟩
    | exact ⟨_, rfl, rfl, rfl⟩
    | (split <;> first | exact .inr ⟨rfl, rfl⟩ | exact .inl ⟨_, rfl, rfl, rfl⟩)

/-- A field that time, the command's entry and its steps leave alone, the command leaves alone. -/
theorem exec_keeps {α : Type} (f : State → α) {i : Instr} {s t : State} (ht : ∀ u, f (passTime u) = f u)
    (he : f (entryOf i (hostIssue i s)) = f s) (hs : ∀ p u, f (stepsOf i p u).1 = f u) (h : exec i s = .next t) :
    f t = f s := by
  rcases exec_next_cases i s t h with ⟨_, rfl⟩ | ⟨_, p, _, _, rfl⟩
  · exact runSteps_preserves (P := fun u => f u = f s) _ (fun u hu => (ht u).trans hu)
      (fun u _ p _ hu => (hs p u).trans hu) _ _ he
  · exact runSteps_preserves (P := fun u => f u = f s) _ (fun u hu => (ht u).trans hu)
      (fun u _ p _ hu => (hs p u).trans hu) _ _ rfl

end Sys2Proof.Machine
end

