-- ==== Sys2Proof/Tests/Slice0.lean ====
section
/-!
SUPPORT. Tests: which operand values are ill formed, one word decoded for every command, vectors of 95_test_vectors.md
(one step each; V<n>, S<n> as there), and for every statement with hypotheses a state and operands that meet them.
Expected values are the vectors'.
-/

namespace Sys2Proof.Tests

open Sys2Proof Sys2Proof.Machine

-- The kernel evaluates the tests one after the other: many at once take more memory than a build may have.
set_option Elab.async false

/-! ## Helpers -/

/-- No tick passes; the chip drives this level. -/
def drive (level : Bool) : Draw := ⟨0, level⟩

/-- One bit on the line: the level at the sample, the opposite one at every other step of the bit. -/
def bitDraws (bit : Bool) : List Draw :=
  [drive !bit, drive !bit, drive !bit, drive bit, drive !bit, drive !bit, drive !bit]

/-- A chip that is ready and delivers `w` in a frame of `count` trailing pulses. -/
def frameDraws (w : SampleWord) (count : Nat) : List Draw :=
  drive false :: drive true :: (List.range 24).flatMap (fun p => bitDraws (w.getLsbD (23 - p)))
    ++ List.replicate (6 * count + 1) (drive true)

/-- A byte on the line, its bits in time order. -/
def byteDraws (bits : List Bool) : List Draw := bits.flatMap bitDraws

/-- An idle block with counter 0 bound (`SEL = A64`, `SCK` low), and what its environment does. -/
def bench (draws : List Draw) : State := { State.resetWith Config.defaults with draws := draws, bound := true }

/-- What a step leaves, where it goes on. -/
def after {α : Type} (o : Host.Outcome State Fault Refusal) (f : State → α) : Option α :=
  match o with
  | .next t => some (f t)
  | .fault _ => none
  | .refused _ => none

theorem exists_next {o : Host.Outcome State Fault Refusal} (h : (after o fun _ => ()).isSome = true) :
    ∃ t, o = .next t := by
  cases o with
  | next t => exact ⟨t, rfl⟩
  | fault _ => simp [after] at h
  | refused _ => simp [after] at h

/-! ## Ill-formed operands (R77): each check refuses one -/

theorem test_illformed_clkInit : (Instr.clkInit 1).wellFormed 1 = false := by decide
theorem test_illformed_shiftIn : (Instr.shiftIn 2).wellFormed 1 = false := by decide
theorem test_illformed_configure : (Instr.configure 0x180).wellFormed 1 = false := by decide
theorem test_illformed_readAverage : (Instr.readAverage 0).wellFormed 1 = false := by decide
theorem test_illformed_getValue : (Instr.getValue 0).wellFormed 1 = false := by decide
theorem test_illformed_getUnits : (Instr.getUnits 0).wellFormed 1 = false := by decide
theorem test_illformed_tare : (Instr.tare 0).wellFormed 1 = false := by decide

/-! ## Decoding: words written out from R65 and R66 -/

theorem test_decode_clkInit : decode 0x010000000100000000#72 = .ok (.clkInit 1) := by decide
theorem test_decode_delayUs : decode 0x020000000500000000#72 = .ok (.delayUs 5) := by decide
theorem test_decode_nowUs : decode 0x030000000000000000#72 = .ok .nowUs := by decide
theorem test_decode_nowMs : decode 0x040000000000000000#72 = .ok .nowMs := by decide
theorem test_decode_shiftIn : decode 0x100000000100000000#72 = .ok (.shiftIn 1) := by decide
theorem test_decode_configure : decode 0x2000000080FFFFFFFF#72 = .ok (.configure 128) := by decide
theorem test_decode_isReady : decode 0x21FFFFFFFFFFFFFFFF#72 = .ok .isReady := by decide
theorem test_decode_waitReady : decode 0x220000000500000000#72 = .ok (.waitReady 5) := by decide
theorem test_decode_waitReadyRetry : decode 0x230000000300000001#72 = .ok (.waitReadyRetry 3 1) := by decide
theorem test_decode_waitReadyTimeout : decode 0x24000000640000000A#72 = .ok (.waitReadyTimeout 100 10) := by decide
theorem test_decode_read : decode 0x25DEADBEEF12345678#72 = .ok .read := by decide
theorem test_decode_powerDown : decode 0x260000000000000000#72 = .ok .powerDown := by decide
theorem test_decode_powerUp : decode 0x270000000000000000#72 = .ok .powerUp := by decide
theorem test_decode_readAverage : decode 0x300000000300000000#72 = .ok (.readAverage 3) := by decide
theorem test_decode_getValue : decode 0x310000000100000000#72 = .ok (.getValue 1) := by decide
theorem test_decode_getUnits : decode 0x320000000100000000#72 = .ok (.getUnits 1) := by decide
theorem test_decode_tare : decode 0x330000000300000000#72 = .ok (.tare 3) := by decide
theorem test_decode_setScale : decode 0x344000000000000001#72 = .ok (.setScale 0x40000000 1) := by decide
theorem test_decode_getScale : decode 0x350000000000000000#72 = .ok .getScale := by decide
theorem test_decode_setOffset : decode 0x36FFFFFFFB00000000#72 = .ok (.setOffset 0xFFFFFFFB) := by decide
theorem test_decode_getOffset : decode 0x370000000000000000#72 = .ok .getOffset := by decide
theorem test_decode_illegal : decode 0xFF123456789ABCDEF0#72 = .error (.invalidCommand 0xFF) := by decide
theorem test_decode_table : decodeTableWord 72 0x300000000300000000 = some (.readAverage 3) := by decide

/-! ## Microsecond Clock (V1 to V12) -/

theorem test_clkInit_binds :
    after (exec (.clkInit 0) { bench [drive false] with bound := false }) (fun t => (t.bound, t.csel, t.status)) =
      some (true, 0, 0) := by decide +kernel
theorem test_clkInit_no_counter :
    after (exec (.clkInit 1) { bench [] with bound := false }) (fun t => (t.bound, t.status)) = some (false, 0x02) := by
  decide +kernel

/-- V7 at its last two polls: 3 ticks are not enough, one more ends the delay; the counter has wrapped between. -/
def delaying (ticks : Nat) : State :=
  { bench [⟨ticks, false⟩] with
    ctrs := [1], t0 := 0xFFFFFFFE, status := 1, seq := .run (.delayUs 5) (.delay .poll) }

theorem test_delayUs_waits : after (exec (.delayUs 5) (delaying 0)) State.busy = some true := by decide +kernel
theorem test_delayUs_ends : after (exec (.delayUs 5) (delaying 1)) (fun t => (t.status, t.ctrs)) = some (0, [2]) := by
  decide +kernel

theorem test_nowUs : after (exec .nowUs { bench [drive false] with ctrs := [0xFFFFFFFF] }) State.res = some 0xFFFFFFFF :=
  by decide +kernel
theorem test_nowUs_wraps : after (exec .nowUs { bench [⟨1, false⟩] with ctrs := [0xFFFFFFFF] }) State.res = some 0 := by
  decide +kernel
theorem test_nowMs : after (exec .nowMs { bench [drive false] with ctrs := [0xFFFFFFFF] }) State.res = some 0x00418937 :=
  by decide +kernel
theorem test_nowMs_truncates : after (exec .nowMs { bench [drive false] with ctrs := [1999] }) State.res = some 1 := by
  decide +kernel

/-! ## Serial Bit Channel (V13 to V18, V30) -/

theorem test_shiftIn_msb :
    after (exec (.shiftIn 1) (bench (byteDraws [true, false, true, true, false, false, true, false])))
      (fun t => (t.res, t.sck, t.wire.count .rise, t.wire.count .fall)) = some (0xB2, false, 8, 8) := by decide +kernel
/-- V18, with the samples of V13 in the other order. -/
theorem test_shiftIn_lsb_clock_high :
    after (exec (.shiftIn 0)
        { bench (byteDraws [true, false, true, true, false, false, true, false]) with sck := true, garbageNext := false })
      (fun t => (t.res, t.wire.count .rise, t.wire.count .fall, t.garbageNext, t.status)) =
      some (0x4D, 7, 8, true, 0) := by decide +kernel

/-! ## Reader (V19 to V29) -/

/-- V26. -/
theorem test_configure :
    after (exec (.configure 64) { bench (drive true :: frameDraws 0x123456 3) with sel := .a128 })
      (fun t => ((t.sel, t.shr, t.res, t.status), t.wire.count .rise, t.chipSel, t.sck, t.ie)) =
      some ((.a64, 0x123456, 0, 0), 27, .armed .a64, false, true) := by decide +kernel
theorem test_configure_low_byte_only :
    after (exec (.configure 0x180) { bench [] with sel := .a128, bound := false })
      (fun t => (t.sel, t.wire, t.status)) = some (.a128, [], 0x02) := by decide +kernel

theorem test_isReady_low : after (exec .isReady { bench [drive false] with bound := false }) State.res = some 1 := by
  decide +kernel
theorem test_isReady_high : after (exec .isReady (bench [drive true])) State.res = some 0 := by decide +kernel

/-- V25: a sleep of 5 ms ends with the 5000th tick. -/
def sleeping (ticks : Nat) : State :=
  { bench [⟨0, true⟩, ⟨ticks, true⟩, ⟨0, false⟩] with
    bound := false, status := 1, seq := .run (.waitReady 5) (.wait (.sleep .load)) }

theorem test_waitReady_sleeps : after (exec (.waitReady 5) (sleeping 4999)) State.busy = some true := by decide +kernel
theorem test_waitReady_ends :
    after (exec (.waitReady 5) (sleeping 5000)) (fun t => (t.status, t.wire)) = some (0, [.checked false]) := by
  decide +kernel

theorem test_waitReadyRetry_none :
    after (exec (.waitReadyRetry 0 5) (bench [])) (fun t => (t.res, t.wire, t.status)) = some (0, [], 0) := by
  decide +kernel
/-- V22: the third sleep of `3, 1`. -/
theorem test_waitReadyRetry_last :
    after (exec (.waitReadyRetry 3 1)
        { bench [⟨1000, false⟩] with
          ctr := 2, slp := 1000, res := 7, status := 1, seq := .run (.waitReadyRetry 3 1) (.wait (.sleep .poll)) })
      (fun t => (t.ctr, t.res, t.status)) = some (3, 0, 0) := by decide +kernel

theorem test_waitReadyTimeout_zero :
    after (exec (.waitReadyTimeout 0 10) (bench [drive false, drive false])) (fun t => (t.res, t.wire, t.status)) =
      some (0, [], 0) := by decide +kernel
/-- V24: the millisecond view has wrapped during the first sleep. -/
theorem test_waitReadyTimeout_wrap :
    after (exec (.waitReadyTimeout 100 10)
        { bench [⟨10000, false⟩, drive false] with
          ctrs := [4294967000], ts := 4294967, slp := 10000, res := 7, status := 1
          seq := .run (.waitReadyTimeout 100 10) (.wait (.sleep .poll)) })
      (fun t => (t.res, t.ctrs, t.wire, t.status)) = some (0, [9704], [], 0) := by decide +kernel

/-- V20, V21. -/
theorem test_read :
    after (exec .read (bench (frameDraws 0xB24D01 3)))
      (fun t => (t.res, t.shr, t.wire.length, t.wire.count .rise, t.status)) =
      some (0xFFB24D01, 0xB24D01, 79, 27, 0) := by decide +kernel
/-- V29: 200 ticks before every step, of which only 59 pass in a high phase. -/
theorem test_read_stays_powered :
    after (exec .read { bench ((frameDraws 1 3).map fun d => ⟨200, d.dout⟩) with garbageNext := true })
      (fun t => (t.chipPd, t.garbageNext, t.chipSel)) = some (false, false, .armed .a64) := by decide +kernel

/-- V28. -/
theorem test_powerDown :
    after (exec .powerDown { bench [drive true] with chipSel := .armed .a64, garbageNext := false })
      (fun t => (t.sck, t.chipSel, t.garbageNext, (elapse 59 t).chipPd, (elapse 60 t).chipPd)) =
      some (true, .unknown, true, false, true) := by decide +kernel
theorem test_powerUp :
    after (exec .powerUp { bench [drive true] with sck := true, chipPd := true }) (fun t => (t.sck, t.chipPd)) =
      some (false, false) := by decide +kernel

/-! ## Calibration (V31 to V36) -/

/-- Frames that deliver the samples, one after the other. -/
def samples (l : List Int) : List Draw := l.flatMap fun v => frameDraws (BitVec.ofInt 24 v) 3

theorem test_readAverage_truncates :
    after (exec (.readAverage 3) (bench (samples [-10, -11, -13]))) (fun t => (t.res, t.ctr)) = some (0xFFFFFFF5, 0) := by
  decide +kernel
theorem test_readAverage_toward_zero :
    after (exec (.readAverage 2) (bench (samples [-1, -2]))) State.res = some 0xFFFFFFFF := by decide +kernel
theorem test_getValue :
    after (exec (.getValue 1) { bench (samples [11]) with offset := 0xFFFFFFFB }) State.res = some 0x41800000 := by
  decide +kernel
theorem test_getValue_no_overflow :
    after (exec (.getValue 1) { bench (samples [-8388608]) with offset := 0x7FFFFFFF }) State.res = some 0xCF008000 := by
  decide +kernel
theorem test_getUnits :
    after (exec (.getUnits 1) { bench (samples [21]) with offset := 11, scale := 0xC0000000 }) State.res =
      some 0xC0A00000 := by decide +kernel
theorem test_getUnits_negative_zero :
    after (exec (.getUnits 1) { bench [] with scale := 0x80000000 }) (fun t => (t.wire, t.status)) = some ([], 0x04) := by
  decide +kernel
theorem test_tare :
    after (exec (.tare 3) { bench (samples [-10, -11, -12]) with res := 7 }) (fun t => (t.offset, t.res)) =
      some (0xFFFFFFF5, 7) := by decide +kernel
theorem test_tare_none :
    after (exec (.tare 0) { bench [] with offset := 5 }) (fun t => (t.offset, t.status)) = some (5, 0x02) := by
  decide +kernel
theorem test_setScale :
    after (exec (.setScale 0x7FC00001 0xFFFFFFFF) { bench [drive true] with bound := false }) State.scale =
      some 0x7FC00001 := by decide +kernel
theorem test_getScale : after (exec .getScale { bench [] with scale := 0x40000000 }) State.res = some 0x40000000 := by
  decide +kernel
theorem test_setOffset :
    after (exec (.setOffset 0xFFFFFFFB) { bench [drive true] with bound := false }) (fun t => (t.offset, t.status)) =
      some (0xFFFFFFFB, 0) := by decide +kernel
/-- V35 at `RW = 64`. -/
theorem test_getOffset_wide :
    after (exec .getOffset { bench [] with cfg := { Config.defaults with xw := 64 }, offset := 0x80000000 }) State.res =
      some 0xFFFFFFFF80000000 := by decide +kernel

/-! ## Faults (V37, V38) and the step -/

/-- An unbound block with one command waiting. -/
def waitingFor (w : CmdWord) : State := { bench [drive false] with bound := false, program := [w] }

theorem test_step_illegal :
    after (step (waitingFor 0xFF123456789ABCDEF0)) (fun t => (t.program, t.status)) = some ([], 0x08) := by
  decide +kernel
theorem test_step_argument_first :
    after (step (waitingFor 0x320000000000000000)) State.status = some 0x02 := by decide +kernel
theorem test_step_clock_next : after (step (waitingFor 0x320000000100000000)) State.status = some 0x06 := by
  decide +kernel
theorem test_step_not_sticky :
    after (step { waitingFor 0x210000000000000000 with status := 0x08 }) (fun t => (t.status, t.res)) = some (0, 1) := by
  decide +kernel
/-- `withFetchWord` places the command the next step runs. -/
theorem test_step_fetched :
    after (step ((bench []).withFetchWord 72 0x350000000000000000)) (fun t => (t.program, t.status)) = some ([], 0) := by
  decide +kernel

/-! ## Witnesses: states and operands that meet the hypotheses of each statement, by its name -/

theorem witness_UnusedOperandsIgnored :
    (0x25 : Byte).toNat ∈ [0x03, 0x04, 0x21, 0x25, 0x26, 0x27, 0x35, 0x37] ∧
      (0x22 : Byte).toNat ∉ [0x23, 0x24, 0x34] := by decide

theorem witness_IllegalOpcodes :
    (waitingFor 0x050000000000000000).AtRest ∧
      (waitingFor 0x050000000000000000).program = [0x050000000000000000] ∧
      ∀ n ∈ [0x00, 0x05, 0x0F, 0x11, 0x1F, 0x28, 0x2F, 0x38, 0xFF],
        ∃ op : Byte, op.toNat = n ∧ decode (cmdWord op 0 0) = .error (.invalidCommand op) := by
  refine ⟨by decide, by decide, fun n h => ⟨BitVec.ofNat 8 n, ?_⟩⟩
  fin_cases h <;> decide

theorem witness_StepRunsTheDecodedCommand :
    ((waitingFor 0x250000000000000000).busy = false ∧
      (waitingFor 0x250000000000000000).program = 0x250000000000000000 :: [] ∧
      decode 0x250000000000000000 = .ok .read) ∧
    (delaying 0).Running (.delayUs 5) (.delay .poll) := by decide

theorem witness_IdleBlockDoesNothing : (bench []).AtRest ∧ (bench []).program = [] := by decide

theorem witness_ResetMeetsInvariant : Config.defaults.Valid := by decide

theorem bench_inv (draws : List Draw) : (bench draws).Inv where
  parameters := (by decide : Config.defaults.Valid)
  widths := {
    counters := rfl
    counterWidth := (by decide : ∀ c ∈ [0], c < 2 ^ 32)
    t0 := (by decide : 0 < 2 ^ 32)
    ts := (by decide : 0 < 2 ^ 32)
    res := (by decide : 0 < 2 ^ 32)
    scale := (by decide : 0 < 2 ^ 32) }
  control := (rfl : (bench []).busy = false)
  fault := (by decide : (bench []).faultField.toNat ≤ 4)
  bound := fun _ => Nat.one_pos
  masked := rfl
  frame := fun h => absurd rfl h
  line := fun _ h => nomatch h
  pulse := fun h => nomatch h

/-- In the first read of `READ_AVERAGE 2`: the sample step of bit 3 of the second byte. -/
def midFrame : State :=
  { bench [drive true, drive true] with
    status := 1, seq := .run (.readAverage 2) (.read (.byte 1 ⟨3, .sample⟩))
    ctr := 2, ie := false, sck := true, frame := .whole }

theorem midFrame_inv : midFrame.Inv where
  parameters := (by decide : Config.defaults.Valid)
  widths := {
    counters := rfl
    counterWidth := (by decide : ∀ c ∈ [0], c < 2 ^ 32)
    t0 := (by decide : 0 < 2 ^ 32)
    ts := (by decide : 0 < 2 ^ 32)
    res := (by decide : 0 < 2 ^ 32)
    scale := (by decide : 0 < 2 ^ 32) }
  control := (by decide : midFrame.busy = true ∧ midFrame.faultField = 0 ∧
    posOf (.readAverage 2) (.read (.byte 1 ⟨3, .sample⟩)) = true ∧ accepted (.readAverage 2) midFrame = true)
  fault := (by decide : midFrame.faultField.toNat ≤ 4)
  bound := fun _ => Nat.one_pos
  masked := rfl
  frame := fun _ => rfl
  line := (by decide : ∀ v, lineAt midFrame.seq = some v → midFrame.sck = v)
  pulse := fun _ => Nat.zero_le _

theorem witness_StepKeepsInvariant :
    ((bench [drive false]).Inv ∧ ∃ t, step (bench [drive false]) = .next t) ∧
      midFrame.Inv ∧ ∃ t, step midFrame = .next t :=
  ⟨⟨bench_inv _, exists_next (by decide +kernel)⟩, midFrame_inv, exists_next (by decide +kernel)⟩

theorem witness_StepKeepsAccumulatorBound :
    midFrame.Inv ∧ midFrame.AccOk ∧ ∃ t, step midFrame = .next t := by
  refine ⟨midFrame_inv, ?_, exists_next (by decide +kernel)⟩
  rintro n ⟨rfl⟩
  decide

theorem witness_StepAlwaysGoesOn : midFrame.Inv := midFrame_inv

theorem witness_StepIsARunOfAtomicSteps : midFrame.Inv ∧ ∃ t, step midFrame = .next t :=
  ⟨midFrame_inv, exists_next (by decide +kernel)⟩

theorem witness_SecondCallerRefused :
    (delaying 0).Running (.delayUs 5) (.delay .poll) ∧ Instr.delayUs 5 ≠ .read := by decide

theorem witness_ElapseIsRepeatedTick : ∀ c ∈ (delaying 0).ctrs, c < 2 ^ (delaying 0).cfg.cw := by decide

theorem witness_OnlyTimeMovesCounters :
    (∀ c ∈ (bench [drive true]).ctrs, c < 2 ^ (bench [drive true]).cfg.cw) ∧ sleeps .isReady = false ∧
      ∃ t, exec .isReady (bench [drive true]) = .next t :=
  ⟨by decide, rfl, exists_next (by decide +kernel)⟩

theorem witness_DelayIsNeverShort :
    (1 ≤ 1 ∧ 1 < 2 ^ Config.defaults.cw) ∧ (1 ≤ 2 ^ 32 - 1 ∧ 2 ^ 32 - 1 < 2 ^ Config.defaults.cw) ∧
      (bench []).csel < (bench []).ctrs.length ∧ (bench []).t0 = (bench []).cntRead ∧
      (delayStep 1 .poll (elapse 0 (bench []))).2 = .done := by decide

theorem witness_TimeoutAcrossCounterWrap :
    let s := { bench [] with ts := 4294967, ctrs := [9704] }
    s.ts < 2 ^ s.cfg.cw ∧ s.nowMs < s.ts := by decide

/-- One refused command for each of the three faults. -/
theorem witness_FaultsInOrderOfPriority :
    let unbound := { bench [] with bound := false }
    (bench []).AtRest ∧ unbound.AtRest ∧ accepted (.getUnits 0) unbound = false ∧
      accepted (.getUnits 1) unbound = false ∧ accepted (.getUnits 1) (bench []) = false := by decide

theorem witness_AcceptedCommandsReportNoFault :
    ((bench []).AtRest ∧ accepted .read (bench []) = true) ∧
      midFrame.Inv ∧ midFrame.Running (.readAverage 2) (.read (.byte 1 ⟨3, .sample⟩)) :=
  ⟨by decide, midFrame_inv, by decide⟩

theorem witness_EarlierFaultLeavesNoTrace : { bench [] with status := 0x08 }.seq = .idle := by decide

theorem witness_ClkInitBindsTheCounter :
    (bench [drive true]).AtRest ∧ (bench [drive true]).cfg.nctr ≤ (1 : Word).toNat ∧
      (0 : Word).toNat < (bench [drive true]).cfg.nctr ∧ (∀ a, Instr.isReady ≠ .clkInit a) ∧
      ∃ t, exec .isReady (bench [drive true]) = .next t :=
  ⟨by decide, by decide, by decide, fun _ => nofun, exists_next (by decide +kernel)⟩

theorem witness_DelayUsLatchesAndPolls :
    (bench []).AtRest ∧ (bench []).bound = true ∧ (delaying 0).Running (.delayUs 5) (.delay .poll) := by decide

theorem witness_NowUsReturnsTheCounter :
    (bench []).AtRest ∧ (bench []).bound = true ∧ { bench [] with bound := false }.AtRest ∧
      { bench [] with bound := false }.bound = false ∧ (bench []).csel < (bench []).ctrs.length := by decide

theorem witness_NowMsReturnsMilliseconds :
    (bench []).AtRest ∧ (bench []).bound = true ∧ { bench [] with bound := false }.AtRest ∧
      { bench [] with bound := false }.bound = false ∧
      (∀ c ∈ (delaying 0).ctrs, c < 2 ^ (delaying 0).cfg.cw) ∧
      { bench [] with ctrs := [0xFFFFFFFF] }.csel < { bench [] with ctrs := [0xFFFFFFFF] }.ctrs.length ∧
      { bench [] with ctrs := [0xFFFFFFFF] }.cntRead = 2 ^ (bench []).cfg.cw - 1 := by decide

theorem witness_ShiftInTakesEightSamples :
    (bench []).AtRest ∧ (bench []).bound = true ∧ ((0 : Word) = 0 ∨ (0 : Word) = 1) ∧ ((1 : Word) = 0 ∨ (1 : Word) = 1) ∧
      (bench []).frame = .outside := by decide

theorem witness_ShiftInRoundTrip : (bench []).AtRest ∧ (bench []).bound = true := by decide

theorem witness_IsReadyReadsTheLine : (bench []).AtRest := by decide

/-- A command in progress at its sleep, whose counter stands at 0. -/
def asleep (i : Instr) (inside : WaitPos → Pos) (p : SleepPos) (draws : List Draw) : State :=
  { bench draws with status := 1, seq := .run i (inside (.sleep p)) }

/-- Inside a `Read`. -/
abbrev reading (w : WaitPos) : Pos := .read (.wait w)

/-- An averaging command in its last read, and in its first. -/
theorem witness_SleepIsLoadedFirst :
    let average := { asleep (.readAverage 2) reading .load [] with ctr := 1 }
    let tare := { asleep (.tare 2) reading .load [] with ctr := 2 }
    ((asleep (.waitReady 5) .wait .load []).frame = .outside ∧
      (asleep (.waitReady 5) .wait .load []).Running (.waitReady 5) (.wait (.sleep .load))) ∧
    (average.frame = .outside ∧ (0 : Word) = average.cfg.readPollDelay ∧ readsFrames (.readAverage 2) = true ∧
      0 < average.ctr.toNat ∧ average.ctr.toNat ≤ (2 : Word).toNat ∧
      average.Running (.readAverage 2) (reading (.sleep .load))) ∧
    (tare.frame = .outside ∧ 0 < tare.ctr.toNat ∧ tare.ctr.toNat ≤ (2 : Word).toNat ∧
      tare.Running (.tare 2) (reading (.sleep .load))) := by decide

theorem witness_WaitReadyChecksAndSleeps :
    (bench []).AtRest ∧ (asleep (.waitReady 5) .wait .poll []).Running (.waitReady 5) (.wait (.sleep .poll)) := by decide

theorem witness_WaitReadyRetryStarts : (bench []).AtRest ∧ 0 < (1 : Word).toNat := by decide

theorem witness_WaitReadyRetryCounts :
    (asleep (.waitReadyRetry 3 1) .wait .poll []).Running (.waitReadyRetry 3 1) (.wait (.sleep .poll)) := by decide

theorem witness_WaitReadyTimeoutStarts : (bench []).AtRest ∧ (bench []).bound = true := by decide

theorem witness_WaitReadyTimeoutGoesOn :
    (asleep (.waitReadyTimeout 100 10) .wait .poll []).Running (.waitReadyTimeout 100 10) (.wait (.sleep .poll)) := by
  decide

/-- A chip that stays not ready for three draws. -/
def never : List Draw := [drive true, drive true, drive true]

theorem witness_UnboundedWaitsNeverEnd :
    (∃ d w, Instr.waitReady 5 = .waitReady d ∧
      (asleep (.waitReady 5) .wait .poll never).Running (.waitReady 5) (.wait w)) ∧
    (∀ i ∈ [.read, .configure 64, .readAverage 2], readsFrames i = true ∧
      (asleep i reading .load never).Running i (reading (.sleep .load))) ∧
    ∀ j < 3 * 1, ((asleep .read reading .load never).drawAt j).dout = true :=
  ⟨⟨5, .sleep .poll, rfl, by decide⟩, by decide, by decide⟩

theorem witness_SampleAssembly : 24 ≤ Config.defaults.xw ∧ 24 ≤ { Config.defaults with xw := 24 }.xw := by decide

/-- Hypotheses of `ReadReturnsTheSample`, `ReadDrivesTheFrame` and `ReadArmsTheNextSelection`, with `SCK` low and high. -/
theorem witness_ReadReturnsTheSample :
    let s := bench (frameDraws 0xB24D01 3)
    s.cfg.Valid ∧ s.AtRest ∧ s.bound = true ∧ s.frame = .outside ∧ s.Delivers 0 0xB24D01 := by decide +kernel

theorem witness_ReadDrivesTheFrame :
    let s := bench (frameDraws 0x800000 3)
    s.AtRest ∧ s.bound = true ∧ s.frame = .outside ∧ s.Delivers 0 0x800000 ∧ s.sck = false ∧ s.wire = [] := by
  decide +kernel

theorem witness_ReadArmsTheNextSelection :
    let s := bench (frameDraws 0x000001 3)
    s.AtRest ∧ s.bound = true ∧ s.frame = .outside ∧ s.Delivers 0 0x000001 ∧ s.sck = false ∧
      s.cfg.tHighMax < pdTimeout := by decide +kernel

theorem witness_ReadArmsTheNextSelection_clock_high :
    let s := { bench (frameDraws 0x000001 3) with sck := true }
    s.AtRest ∧ s.bound = true ∧ s.frame = .outside ∧ s.Delivers 0 0x000001 ∧ s.sck = true := by decide +kernel

/-- A frame whose clock is high for 60 ticks from the given draw on. -/
def stretched (start : Nat) : State :=
  let draws := (frameDraws 0x000001 3).set start ⟨60, false⟩
  { bench draws with cfg := { Config.defaults with tHighMax := 60 } }

/-- The limit is reached in the first bit, and in the third trailing pulse. -/
theorem witness_ReadArmsTheNextSelection_stretched :
    ∀ start ∈ [3, 183], let s := stretched start
      s.AtRest ∧ s.bound = true ∧ s.frame = .outside ∧ s.Delivers 0 0x000001 ∧ pdTimeout ≤ s.cfg.tHighMax ∧
        ((∃ p < 24, pdTimeout ≤ s.ticksFrom (3 + 7 * p) 4) ∨
          (∃ k < pulses s.sel, pdTimeout ≤ s.ticksFrom (171 + 6 * k) 3)) := by decide +kernel

/-- The limit is reached by the 60th tick, not by the 59th. -/
theorem witness_ReadArmsTheNextSelection_tick :
    let s := { midFrame with highTicks := 59 }
    let s' := { midFrame with highTicks := 58 }
    (s.frame ≠ .outside ∧ s.sck = true ∧ 0 < 1 ∧ pdTimeout ≤ s.highTicks + 1) ∧
      s'.frame ≠ .outside ∧ s'.sck = true ∧ s'.highTicks + 1 < pdTimeout := by decide

/-- One state for each of the six clauses. -/
theorem witness_ReadWaitsForReady :
    let unready := bench [drive true, drive true]
    let early := { asleep .read reading .poll [drive true] with slp := 1 }
    let late := asleep (.tare 2) reading .poll [drive true, drive true]
    let served := fun i => asleep i reading .poll (drive true :: frameDraws 0x7FFFFF 3)
    (unready.AtRest ∧ unready.bound = true ∧ (unready.drawAt 0).dout = true) ∧
    (selectorOfGain 32 = some .b32 ∧ (unready.drawAt 1).dout = true) ∧
    (readsFrames .read = true ∧ averagingCount .read ≠ some 0 ∧ early.Running .read (reading (.sleep .poll)) ∧
      (passTime early).slp ≠ 0) ∧
    (readsFrames (.tare 2) = true ∧ averagingCount (.tare 2) ≠ some 0 ∧
      late.Running (.tare 2) (reading (.sleep .poll)) ∧ (passTime late).slp = 0 ∧ (late.drawAt 1).dout = true) ∧
    ∀ i ∈ [.read, .configure 64], (served i).cfg.Valid ∧ (served i).Running i (reading (.sleep .poll)) ∧
      (served i).frame = .outside ∧ (passTime (served i)).slp = 0 ∧ (served i).Delivers 1 0x7FFFFF := by decide +kernel

theorem witness_ConfigureReadsOneFrame :
    let s := bench (drive true :: frameDraws 0x123456 1)
    selectorOfGain 128 = some .a128 ∧ s.AtRest ∧ s.bound = true ∧ s.frame = .outside ∧ s.Delivers 1 0x123456 ∧
      s.cfg.tHighMax < pdTimeout := by decide +kernel

theorem witness_SelectionTakesEffectAfterOneRead :
    let s := bench (drive true :: (frameDraws 0x123456 2 ++ frameDraws 0x800001 2))
    selectorOfGain 32 = some .b32 ∧ s.cfg.Valid ∧ s.AtRest ∧ s.bound = true ∧ s.frame = .outside ∧
      s.cfg.tHighMax < pdTimeout ∧ s.Delivers 1 0x123456 ∧ s.Delivers (1 + frameSteps .b32) 0x800001 := by decide +kernel

theorem witness_PowerDownHoldsClockHigh :
    (bench []).AtRest ∧ (bench []).sck = false ∧ (bench []).frame = .outside := by decide

theorem witness_PowerUpHoldsClockLow : (bench []).AtRest ∧ (bench []).frame = .outside := by decide

/-- Two frames and a third, for the averaging commands: samples 3, -8 and -2. -/
def words (f : Nat) : SampleWord := if f = 0 then 3 else if f = 1 then 0xFFFFF8 else 0xFFFFFE

def averaging : State := bench (samples [3, -8, -2])

/-- Hypotheses of `ReadAverageReturnsTheMean`, `GetValueSubtractsTheOffset` and `TareStoresTheMean`. -/
theorem witness_ReadAverageReturnsTheMean :
    (2 : Word) ≠ 0 ∧ averaging.cfg.Valid ∧ averaging.AtRest ∧ averaging.bound = true ∧ averaging.frame = .outside ∧
      ∀ f < (2 : Word).toNat, averaging.Delivers (f * frameSteps averaging.sel) (words f) := by decide +kernel

/-- A chip that is ready for the first read and not for the second; `READ_AVERAGE 2` is issued. -/
theorem witness_AveragingWaitsForReady_issued :
    let s := bench (samples [3] ++ [drive true])
    averagingCount (.readAverage 2) = some 2 ∧ s.cfg.Valid ∧ s.frame = .outside ∧ 1 < (2 : Word).toNat ∧ s.AtRest ∧
      accepted (.readAverage 2) s = true ∧ (∀ f < 1, s.Delivers (f * frameSteps s.sel) (words f)) ∧
      (s.drawAt (1 * frameSteps s.sel)).dout = true := by decide +kernel

/-- A sleep that is over after one read of three: the second is delivered, and the third is not, or is. -/
theorem witness_AveragingWaitsForReady_resumed :
    let asleepOnce := fun draws =>
      { asleep (.getUnits 3) reading .poll (drive true :: draws) with ctr := 2, acc := BitVec.ofInt 64 (sampleSum words 1) }
    let s := asleepOnce (samples [-8] ++ [drive true])
    let s' := asleepOnce (samples [-8, -2])
    (averagingCount (.getUnits 3) = some 3 ∧ s.cfg.Valid ∧ s.frame = .outside ∧ 1 < (3 : Word).toNat ∧
      s.Running (.getUnits 3) (reading (.sleep .poll)) ∧ (passTime s).slp = 0 ∧ s.ctr.toNat = (3 : Word).toNat - 1 ∧
      (∀ f < 1, s.Delivers (1 + f * frameSteps s.sel) (words (1 + f))) ∧ 1 + 1 < (3 : Word).toNat ∧
      (s.drawAt (1 + 1 * frameSteps s.sel)).dout = true) ∧
    s'.Running (.getUnits 3) (reading (.sleep .poll)) ∧ (passTime s').slp = 0 ∧
      (∀ f < 2, s'.Delivers (1 + f * frameSteps s'.sel) (words (1 + f))) ∧ 1 + 2 = (3 : Word).toNat := by decide +kernel

theorem witness_GetUnitsDividesByTheScale :
    let s := { averaging with scale := 0x3F800000 }
    (2 : Word) ≠ 0 ∧ s.cfg.Valid ∧ s.AtRest ∧ s.bound = true ∧ s.frame = .outside ∧
      floatIsZero s.cfg.fmt s.scale = false ∧
      ∀ f < (2 : Word).toNat, s.Delivers (f * frameSteps s.sel) (words f) := by decide +kernel

theorem witness_TareLaw :
    (2 : Word) ≠ 0 ∧ averaging.cfg.Valid ∧ averaging.cfg.fmt = .binary32 ∧ averaging.AtRest ∧
      averaging.bound = true ∧ averaging.frame = .outside ∧
      (∀ f < (2 : Word).toNat, averaging.Delivers (f * frameSteps averaging.sel) (words f)) ∧
      averaging.Delivers ((2 : Word).toNat * frameSteps averaging.sel) (words 2) ∧
      (words 2).toInt = (sampleSum words (2 : Word).toNat).tdiv (2 : Word).toNat := by decide +kernel

theorem witness_MeanTruncatesTowardZero :
    Config.defaults.Valid ∧ (2 : Word) ≠ 0 ∧
      (∀ f < (2 : Word).toNat, -8 ≤ (words f).toInt ∧ (words f).toInt ≤ 3) ∧ 0 < 2 ∧
      (0 : Int) ≤ 0 ∧ sampleSum words 2 < 0 := by decide +kernel

theorem witness_Binary32IntegersAreExact :
    (2 ^ 24 : Int).natAbs ≤ 2 ^ 24 ∧ (-(2 ^ 24) : Int).natAbs ≤ 2 ^ 24 ∧ (0 : Int).natAbs ≤ 2 ^ 24 := by decide

theorem witness_ScaleAccessors : (bench []).AtRest ∧ 0 < (bench []).cfg.fw := by decide

theorem witness_OffsetAccessors : (bench []).AtRest := by decide

/-- `IS_READY` is the writer of none of the registers that outlive a command. -/
theorem witness_ControlRegistersHaveTheirWriters :
    (∀ g, Instr.isReady ≠ .configure g) ∧ (∀ c, Instr.isReady ≠ .clkInit c) ∧ (∀ v, Instr.isReady ≠ .setOffset v) ∧
      (∀ n, Instr.isReady ≠ .tare n) ∧ (∀ a b, Instr.isReady ≠ .setScale a b) ∧
      ∃ t, exec .isReady (bench [drive true]) = .next t :=
  ⟨nofun, nofun, nofun, nofun, nofun, exists_next (by decide +kernel)⟩

/-- `SET_OFFSET` is the writer of none of the working registers. -/
theorem witness_WorkingRegistersHaveTheirWriters :
    returnsValue (.setOffset 1) = false ∧ readsFrames (.setOffset 1) = false ∧ (∀ o, Instr.setOffset 1 ≠ .shiftIn o) ∧
      averagingCount (.setOffset 1) = none ∧ (∀ a d, Instr.setOffset 1 ≠ .waitReadyRetry a d) ∧
      delays (.setOffset 1) = false ∧ (∀ a d, Instr.setOffset 1 ≠ .waitReadyTimeout a d) ∧
      drivesClock (.setOffset 1) = false ∧ ∃ t, exec (.setOffset 1) (bench [drive true]) = .next t :=
  ⟨rfl, rfl, nofun, rfl, nofun, rfl, nofun, rfl, exists_next (by decide +kernel)⟩

theorem ends_next {o : Host.Outcome State Fault Refusal} {p : State → Bool} (h : after o p = some true) :
    ∃ t, o = .next t ∧ p t = true := by
  cases o with
  | next t => exact ⟨t, rfl, by simpa [after] using h⟩
  | fault _ => simp [after] at h
  | refused _ => simp [after] at h

/-- An accepted command that drives `SCK`, one that does not, and a refused one. -/
theorem witness_LinesWhenACommandEnds :
    (bench [drive true]).Inv ∧ drivesClock .powerDown = true ∧ drivesClock .isReady = false ∧
      (∃ t, exec .powerDown (bench [drive true]) = .next t ∧
        (decide (t.seq = .idle) && decide (t.faultField = 0)) = true) ∧
      (∃ t, exec .isReady (bench [drive true]) = .next t ∧ decide (t.seq = .idle) = true) ∧
      (∃ t, exec (.shiftIn 2) (bench [drive true]) = .next t ∧
        (decide (t.seq = .idle) && decide (t.faultField ≠ 0)) = true) :=
  ⟨bench_inv _, rfl, rfl, ends_next (by decide +kernel), ends_next (by decide +kernel), ends_next (by decide +kernel)⟩

theorem witness_RegistersFitTheirWidths :
    (bench []).Inv ∧ (bench []).register 0 = some 0 ∧ (bench []).register 3 = some 1 ∧ (bench []).bound = true ∧
      (bench []).register 14 = some 0 :=
  ⟨bench_inv _, rfl, rfl, rfl, rfl⟩

end Sys2Proof.Tests
end

section
/-!
PROOFS. The passing of time (00_scope.md R13 to R15): ticks add up, what they leave of an open frame and of the bound of
R15, and what `step` makes of an idle and of a running block.
-/

namespace Sys2Proof.Machine

/-! ## Ticks add up -/

/-- Only an open frame is broken (R42). -/
theorem breaksFrame_of_outside (m : Nat) (s : State) (h : s.frame = .outside) : s.breaksFrame m = false := by
  simp [State.breaksFrame, h]

/-- No tick opens or closes a frame (R42). -/
theorem elapse_frame_outside (m : Nat) (s : State) : (elapse m s).frame = .outside ↔ s.frame = .outside := by
  constructor
  · intro h
    by_contra hf
    cases hb : s.breaksFrame m <;> simp [hb, hf] at h
  · intro h
    simp [breaksFrame_of_outside m s h, h]

theorem elapse_frame_ne_outside (m : Nat) (s : State) :
    ((elapse m s).frame != .outside) = (s.frame != .outside) := by
  rw [Bool.eq_iff_iff, bne_iff_ne, bne_iff_ne, Ne, elapse_frame_outside]

/-- Time neither begins nor ends a masked pulse (R15). -/
@[simp] theorem elapse_inMaskedPulse (m : Nat) (s : State) : (elapse m s).inMaskedPulse = s.inMaskedPulse := by
  rw [State.inMaskedPulse, elapse_frame_ne_outside]
  rfl

/-- The chip passes its limit in one of two intervals, or in the two together, where the second is not empty (R41). -/
theorem trips_add (m n : Nat) (s : State) : (s.trips m || (elapse m s).trips n) = s.trips (m + n) := by
  cases hsck : s.sck
  · simp [State.trips, hsck]
  · simp only [State.trips, elapse_fields, hsck, Bool.true_and, if_true]
    rw [Bool.eq_iff_iff]
    simp only [Bool.or_eq_true, Bool.and_eq_true, decide_eq_true_eq]
    omega

theorem breaksFrame_add (m n : Nat) (s : State) :
    (s.breaksFrame m || (elapse m s).breaksFrame n) = s.breaksFrame (m + n) := by
  simp only [State.breaksFrame, elapse_frame_ne_outside, ← trips_add m n, Bool.and_or_distrib_right]

/-- What is lost in one of two intervals is lost in the two together. -/
theorem lost_twice {α : Type} (a b : Bool) (lost kept : α) :
    (if b = true then lost else if a = true then lost else kept) = if (a || b) = true then lost else kept := by
  cases a <;> simp

/-- What counts the ticks of two intervals counts those of the two together. -/
theorem counted_twice (counts : Bool) (start m n : Nat) :
    (if counts = true then (if counts = true then start + m else start) + n
      else if counts = true then start + m else start) = if counts = true then start + (m + n) else start := by
  cases counts <;> simp [Nat.add_assoc]

/-- `m` ticks and then `n` are `m + n` (R15). -/
theorem elapse_elapse (m n : Nat) (s : State) : elapse n (elapse m s) = elapse (m + n) s := by
  have hfields := elapse_fields m s
  have hmasked := elapse_inMaskedPulse m s
  have htrips := trips_add m n s
  have hbreaks := breaksFrame_add m n s
  have hslp : (BitVec.ofNat 42 (s.slp.toNat - m)).toNat = s.slp.toNat - m :=
    Nat.mod_eq_of_lt (by have := s.slp.isLt; omega)
  generalize elapse m s = u at *
  simp only [elapse, State.mk.injEq]
  simp only [hfields, hmasked, ← htrips, ← hbreaks, hslp, List.map_map, Function.comp_def, addMod_addMod,
    Bool.or_assoc, Nat.sub_sub, true_and, and_true]
  exact ⟨lost_twice .., counted_twice .., lost_twice .., counted_twice ..⟩

/-- One `TICK`, as the rules state it, is an interval of one tick. -/
theorem tick_eq_elapse (s : State) : tick s = elapse 1 s := by
  have hslp : (if s.slp = 0 then 0 else s.slp - 1) = BitVec.ofNat 42 (s.slp.toNat - 1) := by
    split <;> bv_omega
  have hlimit : (s.sck && decide (pdTimeout ≤ if s.sck then s.highTicks + 1 else s.highTicks)) = s.trips 1 := by
    cases h : s.sck <;> simp [State.trips, h]
  simp only [tick, hslp, hlimit]
  rfl

/-- No ticks change nothing, where the counters fit their width (R30). -/
theorem elapse_zero (s : State) (h : ∀ c ∈ s.ctrs, c < 2 ^ s.cfg.cw) : elapse 0 s = s := by
  have hctrs : s.ctrs.map (fun c => addMod s.cfg.cw c 0) = s.ctrs :=
    (List.map_congr_left fun c hc => addMod_zero _ c (h c hc)).trans (List.map_id' _)
  simp [elapse, hctrs, State.breaksFrame, State.trips]

/-- Settles O14, by induction on the number of ticks. -/
theorem elapseIsRepeatedTick : Obligations.ElapseIsRepeatedTick := by
  intro m s h
  induction m with
  | zero => exact (elapse_zero s h).symm
  | succ m ih => rw [Function.iterate_succ_apply', ih, tick_eq_elapse, elapse_elapse]

/-! ## The time before a step -/

/-- Inside a masked pulse no more ticks are allowed than were asked for, and than keep to the bound (R15). -/
theorem allowedTicks_of_masked (s : State) (m : Nat) (h : s.inMaskedPulse = true) (hp : s.pulseTicks ≤ s.cfg.tHighMax) :
    s.allowedTicks m ≤ m ∧ s.pulseTicks + s.allowedTicks m ≤ s.cfg.tHighMax := by
  rw [State.allowedTicks, if_pos h]
  omega

theorem passTime_agree (s : State) : Agree s (passTime s) := by
  constructor <;> simp

/-- Settles O15: the ticks that pass are those the bound of R15 allows of the draw's. -/
theorem timeBeforeAStep : Obligations.TimeBeforeAStep := by
  intro s
  refine ⟨passTime_agree s, rfl, rfl, rfl, rfl, rfl, rfl, rfl, rfl, rfl, passTime_drawAt s,
    s.allowedTicks (s.drawAt 0).ticks, rfl, ?_, fun h => ?_, allowedTicks_of_masked s _⟩
  · have := s.slp.isLt
    simp only [passTime_fields, BitVec.toNat_ofNat]
    omega
  · simp [State.allowedTicks, h]

/-! ## What a step is -/

/-- A command in progress goes on (R14). -/
theorem step_of_running (s : State) (i : Instr) (pos : Pos) (h : s.Running i pos) : step s = exec i s := by
  simp [step, h.1, h.2]

/-- An idle block issues the command its next word decodes to (R14). -/
theorem step_of_command (s : State) (w : CmdWord) (rest : List CmdWord) (i : Instr) (hb : s.busy = false)
    (hp : s.program = w :: rest) (hd : decode w = .ok i) : step s = exec i (takeCommand rest s) := by
  simp [step, hb, hp, hd]

/-- Settles O5. -/
theorem stepRunsTheDecodedCommand : Obligations.StepRunsTheDecodedCommand :=
  ⟨step_of_command, step_of_running⟩

/-- Settles O13: `exec` finds another command latched, and `host_issue` is not enabled. -/
theorem secondCallerRefused : Obligations.SecondCallerRefused := by
  rintro i j pos s ⟨hb, hs⟩ hne
  rw [exec_eq_runCommand, runCommand]
  simp [hb, hs, hne]

end Sys2Proof.Machine
end

section
/-!
PROOFS. Values fit their widths (00_scope.md R8, 10_state.md R22 to R34): what the format `F` computes, what a command
returns, and what a state holds.
-/

namespace Sys2Proof.Machine

/-! ## The format `F` -/

theorem f32Sign_le (neg : Bool) : f32Sign neg ≤ 2 ^ 31 := by
  cases neg <;> decide

theorem f32Inf_lt (neg : Bool) : f32Inf neg < 2 ^ 32 := by
  cases neg <;> decide

theorem f32Nan_lt (a b : Nat) : f32Nan a b < 2 ^ 32 := by
  have hsign := f32Sign_le ((Config.nanBits a b).testBit 31)
  have hpayload : Config.nanBits a b % (2 ^ 23 - 1) < 2 ^ 23 - 1 := Nat.mod_lt _ (by norm_num)
  unfold f32Nan
  omega

/-- The last step of rounding: a number too large is an infinity. -/
theorem f32Pack_lt (neg : Bool) (bits : Nat) :
    (if 0x7F800000 ≤ bits then f32Inf neg else f32Sign neg + bits) < 2 ^ 32 := by
  have hsign := f32Sign_le neg
  have hinf := f32Inf_lt neg
  split <;> omega

/-- A rounded number is a pattern below that of the infinities, with its sign, or an infinity. -/
theorem f32Round_lt (neg : Bool) (m : Nat) (e : Int) : f32Round neg m e < 2 ^ 32 := by
  unfold f32Round
  split
  · exact (f32Sign_le neg).trans_lt (by norm_num)
  · exact f32Pack_lt neg _

theorem ite_lt_of_lt {c : Prop} [Decidable c] {a b n : Nat} (ha : a < n) (hb : b < n) : (if c then a else b) < n := by
  split <;> assumption

theorem f32Sub_lt (a b : Nat) : f32Sub a b < 2 ^ 32 := by
  unfold f32Sub
  split
  · exact f32Nan_lt a b
  · exact f32Nan_lt a b
  · split
    · exact f32Nan_lt a b
    · exact f32Inf_lt _
  · exact f32Inf_lt _
  · exact f32Inf_lt _
  · exact ite_lt_of_lt ((f32Sign_le _).trans_lt (by norm_num)) (f32Round_lt _ _ _)

theorem f32Div_lt (a b : Nat) : f32Div a b < 2 ^ 32 := by
  unfold f32Div
  split
  · exact f32Nan_lt a b
  · exact f32Nan_lt a b
  · exact f32Nan_lt a b
  · exact f32Inf_lt _
  · exact (f32Sign_le _).trans_lt (by norm_num)
  · split
    · split
      · exact f32Nan_lt a b
      · exact f32Inf_lt _
    · exact f32Round_lt _ _ _

/-- A difference in `F` is a pattern of `FW` bits (R116). -/
theorem floatSub_lt (f : FloatFormat) (a b : Nat) : floatSub f a b < 2 ^ f.width := by
  cases f with
  | binary32 => exact f32Sub_lt a b
  | other w => exact Nat.mod_lt _ (Nat.two_pow_pos w)

/-- A quotient in `F` is a pattern of `FW` bits (R116). -/
theorem floatDiv_lt (f : FloatFormat) (a b : Nat) : floatDiv f a b < 2 ^ f.width := by
  cases f with
  | binary32 => exact f32Div_lt a b
  | other w => exact Nat.mod_lt _ (Nat.two_pow_pos w)

/-! ## What a state holds -/

/-- `RES` is wide enough for every result (R8, decision D26). -/
theorem lt_resultWidth {p : Params} {n v : Nat} (hn : n ≤ p.rw) (hv : v < 2 ^ n) : v < 2 ^ p.rw :=
  hv.trans_le (Nat.pow_le_pow_right (by norm_num) hn)

theorem word_le_resultWidth (p : Params) : 32 ≤ p.rw := by
  unfold Params.rw; omega

theorem counter_le_resultWidth (p : Params) : p.cw ≤ p.rw := by
  unfold Params.rw; omega

theorem float_le_resultWidth (p : Params) : p.fmt.width ≤ p.rw := by
  unfold Params.rw Params.fw; omega

theorem boolResult_lt (p : Params) (b : Bool) : boolResult b < 2 ^ p.rw :=
  lt_resultWidth (word_le_resultWidth p) (by cases b <;> decide)

/-- The parts of the invariant that do not speak of `SEQ`, `STATUS` and the lines. -/
def State.ValuesOk (s : State) : Prop :=
  s.cfg.Valid ∧ s.ctrs.length = s.cfg.nctr ∧ (∀ c ∈ s.ctrs, c < 2 ^ s.cfg.cw) ∧ s.t0 < 2 ^ s.cfg.cw ∧
    s.ts < 2 ^ s.cfg.cw ∧ s.res < 2 ^ s.cfg.rw ∧ s.scale < 2 ^ s.cfg.fw ∧ (s.bound = true → s.csel < s.cfg.nctr)

section
variable {s : State} (h : s.ValuesOk)
include h

/-- What `CntRead` gives is a `CW`-bit value, also where `CSEL` names no counter. -/
theorem State.ValuesOk.cntRead_lt : s.cntRead < 2 ^ s.cfg.cw := by
  obtain ⟨-, -, hctrs, -⟩ := h
  rw [State.cntRead, List.getD_eq_getElem?_getD]
  cases hc : s.ctrs[s.csel]? with
  | none => exact Nat.two_pow_pos _
  | some c => exact hctrs c (List.mem_of_getElem? hc)

theorem State.ValuesOk.nowMs_lt : s.nowMs < 2 ^ s.cfg.cw :=
  (Nat.div_le_self _ _).trans_lt h.cntRead_lt

theorem State.ValuesOk.withT0 {v : Nat} (hv : v < 2 ^ s.cfg.cw) : { s with t0 := v }.ValuesOk := by
  obtain ⟨hcfg, hlen, hctrs, -, hts, hres, hscale, hbound⟩ := h
  exact ⟨hcfg, hlen, hctrs, hv, hts, hres, hscale, hbound⟩

theorem State.ValuesOk.withTs {v : Nat} (hv : v < 2 ^ s.cfg.cw) : { s with ts := v }.ValuesOk := by
  obtain ⟨hcfg, hlen, hctrs, ht0, -, hres, hscale, hbound⟩ := h
  exact ⟨hcfg, hlen, hctrs, ht0, hv, hres, hscale, hbound⟩

theorem State.ValuesOk.withRes {v : Nat} (hv : v < 2 ^ s.cfg.rw) : { s with res := v }.ValuesOk := by
  obtain ⟨hcfg, hlen, hctrs, ht0, hts, -, hscale, hbound⟩ := h
  exact ⟨hcfg, hlen, hctrs, ht0, hts, hv, hscale, hbound⟩

theorem State.ValuesOk.withScale {v : Nat} (hv : v < 2 ^ s.cfg.fw) : { s with scale := v }.ValuesOk := by
  obtain ⟨hcfg, hlen, hctrs, ht0, hts, hres, -, hbound⟩ := h
  exact ⟨hcfg, hlen, hctrs, ht0, hts, hres, hv, hbound⟩

theorem State.ValuesOk.withClock {c : Nat} (hc : c < s.cfg.nctr) : { s with csel := c, bound := true }.ValuesOk := by
  obtain ⟨hcfg, hlen, hctrs, ht0, hts, hres, hscale, -⟩ := h
  exact ⟨hcfg, hlen, hctrs, ht0, hts, hres, hscale, fun _ => hc⟩

theorem State.ValuesOk.passTime : (passTime s).ValuesOk := by
  obtain ⟨hcfg, hlen, -, ht0, hts, hres, hscale, hbound⟩ := h
  refine ⟨hcfg, (List.length_map ..).trans hlen, fun c hc => ?_, ht0, hts, hres, hscale, hbound⟩
  obtain ⟨a, -, rfl⟩ := List.mem_map.1 hc
  exact addMod_lt _ _ _

/-- What no step of a procedure writes keeps its width, and `T0` is written with a counter's value (R86). -/
theorem State.ValuesOk.of_procFrame {t : State} (hf : ProcFrame s t) (ht0 : t.t0 = s.t0 ∨ t.t0 = s.cntRead) :
    t.ValuesOk := by
  have hlt : t.t0 < 2 ^ s.cfg.cw := by
    rcases ht0 with e | e
    · obtain ⟨-, -, -, ht0, -⟩ := h
      exact e ▸ ht0
    · exact e ▸ h.cntRead_lt
  have hv := h.withT0 hlt
  simp only [State.ValuesOk] at hv ⊢
  rwa [hf.cfg, hf.ctrs, hf.ts, hf.res, hf.scale, hf.bound, hf.csel]

end

/-! ## `T0` -/

/-- `Delay` writes nothing to `T0` but the bound counter's value (R86). -/
theorem delayStep_t0 (n : Nat) (d : DelayPos) (s : State) :
    (delayStep n d s).1.t0 = s.t0 ∨ (delayStep n d s).1.t0 = s.cntRead := by
  cases d with
  | latch => exact .inr rfl
  | poll => exact .inl (by rcases delayStep_poll_cases n s with ⟨-, e⟩ | ⟨-, e⟩ <;> rw [e])

theorem shiftInStep_t0 (o : BitOrder) (p : ShiftPos) (s : State) :
    (shiftInStep o p s).1.t0 = s.t0 ∨ (shiftInStep o p s).1.t0 = s.cntRead := by
  rcases p with ⟨b, _ | d | _ | _ | d⟩
  · refine .inl ?_
    simp only [shiftInStep]
    split <;> rfl
  · exact delayStep_t0 1 d s
  · exact .inl rfl
  · exact .inl rfl
  · exact delayStep_t0 1 d s

theorem pulseStep_t0 (p : PulsePos) (s : State) :
    (pulseStep p s).1.t0 = s.t0 ∨ (pulseStep p s).1.t0 = s.cntRead := by
  cases p with
  | high => exact .inl rfl
  | highDelay d => exact delayStep_t0 1 d s
  | low => exact .inl rfl
  | lowDelay d => exact delayStep_t0 1 d s

theorem byteOut_t0 (j : Fin 3) (x : State × ProcOut ShiftPos) : (byteOut j x).1.t0 = x.1.t0 := by
  rcases x with ⟨s, _ | _ | _⟩
  · rfl
  · rfl
  · simp only [byteOut]
    split <;> rfl

theorem readStep_t0 (r : ReadPos) (s : State) : (readStep r s).1.t0 = s.t0 ∨ (readStep r s).1.t0 = s.cntRead := by
  cases r with
  | wait w =>
    obtain ⟨v, x, e, -⟩ := waitReadyStep_state s.cfg.readPollDelay w s
    exact .inl (show (waitReadyStep s.cfg.readPollDelay w s).1.t0 = s.t0 by rw [e])
  | mask => exact .inl rfl
  | byte j p =>
    rw [readStep_byte, byteOut_t0]
    split
    · exact shiftInStep_t0 _ p (openFrame s)
    · exact shiftInStep_t0 _ p s
  | pulse k count p => exact pulseStep_t0 p s
  | unmask => exact .inl rfl

end Sys2Proof.Machine
end

section
/-!
PROOFS. The invariant of the machine (`State.Inv`) is kept by every step. It is taken apart into what does not speak of
`SEQ` (`State.ValuesOk`), the command in progress (`State.Carries`), and the lines (`LinesAt`); each atomic step of a
procedure says which lines it leaves at the position it leads to, and a command's step follows from its procedure's.
-/

namespace Sys2Proof.Machine

/-! ## The parts of the invariant -/

/-- The command `i` is in progress, and was accepted (R27, R29). -/
def State.Carries (i : Instr) (s : State) : Prop := s.busy = true ∧ s.faultField = 0 ∧ accepted i s = true

/-- The bound of R15 on the high part of a masked pulse. -/
def State.PulseOk (s : State) : Prop := s.inMaskedPulse = true → s.pulseTicks ≤ s.cfg.tHighMax

/-- The lines of `s` are as they have to be where `SEQ` is `q` (R15, R35, R42, R43, R93, R94). -/
def LinesAt (q : Seq) (s : State) : Prop :=
  s.ie = !inCriticalSection q ∧ (s.frame ≠ .outside → inCriticalSection q = true) ∧
    (∀ v, lineAt q = some v → s.sck = v) ∧ s.PulseOk

/-- Interruption is enabled and no frame is open, as everywhere outside the critical section (R35, R42, R43). -/
def State.Unmasked (s : State) : Prop := s.ie = true ∧ s.frame = .outside

/-- What every step of the command `i` keeps, wherever `SEQ` stands. -/
def State.Fit (i : Instr) (s : State) : Prop := s.ValuesOk ∧ s.Carries i

theorem inv_iff (s : State) :
    s.Inv ↔ s.ValuesOk ∧ s.ControlOk ∧ s.faultField.toNat ≤ 4 ∧ LinesAt s.seq s := by
  constructor
  · rintro ⟨hcfg, ⟨hlen, hctrs, ht0, hts, hres, hscale⟩, hcontrol, hfault, hbound, hmasked, hframe, hline, hpulse⟩
    exact ⟨⟨hcfg, hlen, hctrs, ht0, hts, hres, hscale, hbound⟩, hcontrol, hfault, hmasked, hframe, hline, hpulse⟩
  · rintro ⟨⟨hcfg, hlen, hctrs, ht0, hts, hres, hscale, hbound⟩, hcontrol, hfault, hmasked, hframe, hline, hpulse⟩
    exact ⟨hcfg, ⟨hlen, hctrs, ht0, hts, hres, hscale⟩, hcontrol, hfault, hbound, hmasked, hframe, hline, hpulse⟩

/-- The invariant of a block that runs `i`, at `p`. -/
theorem inv_iff_of_running {s : State} {i : Instr} {p : Pos} (hs : s.seq = .run i p) :
    s.Inv ↔ s.Fit i ∧ posOf i p = true ∧ LinesAt (.run i p) s := by
  rw [inv_iff, State.ControlOk, hs]
  constructor
  · rintro ⟨hv, ⟨hb, hf, hp, ha⟩, -, hl⟩
    exact ⟨⟨hv, hb, hf, ha⟩, hp, hl⟩
  · rintro ⟨⟨hv, hb, hf, ha⟩, hp, hl⟩
    exact ⟨hv, ⟨hb, hf, hp, ha⟩, by rw [hf]; decide, hl⟩

/-- Where no frame can be open and no level is fixed, the lines are right when interruption is enabled. -/
theorem linesAt_iff_unmasked {q : Seq} {s : State} (hq : inCriticalSection q = false) (hline : lineAt q = none) :
    LinesAt q s ↔ s.Unmasked := by
  simp only [LinesAt, hq, hline, State.Unmasked, State.PulseOk, State.inMaskedPulse]
  constructor
  · rintro ⟨hie, hframe, -⟩
    exact ⟨hie, by_contra fun h => Bool.false_ne_true (hframe h)⟩
  · rintro ⟨hie, hframe⟩
    exact ⟨hie, fun h => absurd hframe h, nofun, by simp [hframe]⟩

/-- The invariant of an idle block. -/
theorem inv_iff_of_idle {s : State} (hs : s.seq = .idle) :
    s.Inv ↔ s.ValuesOk ∧ s.busy = false ∧ s.faultField.toNat ≤ 4 ∧ s.Unmasked := by
  rw [inv_iff, State.ControlOk, hs, linesAt_iff_unmasked rfl rfl]

/-- An idle block is one whose `BUSY` is 0 (R27, R29). -/
theorem seq_eq_idle {s : State} (h : s.Inv) (hb : s.busy = false) : s.seq = .idle := by
  cases hs : s.seq with
  | idle => rfl
  | run i p =>
    obtain ⟨⟨-, hbusy, -⟩, -⟩ := (inv_iff_of_running hs).1 h
    exact Bool.noConfusion (hb.symm.trans hbusy)

/-- A masked pulse needs the clock high. -/
theorem pulseOk_of_low {s : State} (h : s.sck = false) : s.PulseOk := fun hm => by
  simp [State.inMaskedPulse, h] at hm

/-- A masked pulse needs an open frame. -/
theorem pulseOk_of_outside {s : State} (h : s.frame = .outside) : s.PulseOk := fun hm => by
  simp [State.inMaskedPulse, h] at hm

/-! ## The operations that lead from one position to another -/

theorem State.Fit.goto_inv {s : State} {i : Instr} {p : Pos} (h : s.Fit i) (hp : posOf i p = true)
    (hl : LinesAt (.run i p) s) : (goto i p s).Inv :=
  (inv_iff_of_running rfl).2 ⟨h, hp, hl⟩

/-- Outside the critical section, where no level is fixed. -/
theorem State.Fit.goto_inv_of_unmasked {s : State} {i : Instr} {p : Pos} (h : s.Fit i) (hp : posOf i p = true)
    (hq : inCriticalSection (.run i p) = false) (hline : lineAt (.run i p) = none) (hu : s.Unmasked) :
    (goto i p s).Inv :=
  h.goto_inv hp ((linesAt_iff_unmasked hq hline).2 hu)

theorem finish_inv {s : State} (hv : s.ValuesOk) (hu : s.Unmasked) : (finish s).Inv :=
  (inv_iff_of_idle rfl).2 ⟨hv, finish_busy s, by rw [finish_faultField]; decide, hu⟩

theorem returnValue_inv {s : State} {v : Nat} (hv : s.ValuesOk) (hu : s.Unmasked) (hlt : v < 2 ^ s.cfg.rw) :
    (returnValue v s).Inv :=
  finish_inv (s := { s with res := v }) (hv.withRes hlt) hu

theorem faultCode_le (f : FaultCode) : f.code.toNat ≤ 4 := by
  cases f <;> decide

theorem raise_inv {s : State} (f : FaultCode) (hv : s.ValuesOk) (hu : s.Unmasked) : (raise f s).Inv :=
  (inv_iff_of_idle rfl).2 ⟨hv, raise_busy f s, by rw [raise_faultField]; exact faultCode_le f, hu⟩

/-- Whether a command is accepted depends on the binding, the scale and the parameters alone (R77, R85, R118). -/
theorem accepted_congr {i : Instr} {s t : State} (hcfg : t.cfg = s.cfg) (hbound : t.bound = s.bound)
    (hscale : t.scale = s.scale) : accepted i t = accepted i s := by
  simp only [accepted, scaleOk, hcfg, hbound, hscale]

/-- A step of a procedure, which writes `T0` with a counter's value or not at all. -/
theorem State.Fit.of_procFrame {i : Instr} {s t : State} (h : s.Fit i) (hf : ProcFrame s t)
    (ht0 : t.t0 = s.t0 ∨ t.t0 = s.cntRead) : t.Fit i := by
  obtain ⟨hv, hb, hfault, ha⟩ := h
  refine ⟨hv.of_procFrame hf ht0, ?_, ?_, (accepted_congr hf.cfg hf.bound hf.scale).trans ha⟩
  · rw [State.busy, hf.status]; exact hb
  · rw [State.faultField, hf.status]; exact hfault

/-- A command none of whose tests fails is accepted (R77, R85, R118). -/
theorem accepted_of_tests {i : Instr} {s : State} (hw : i.wellFormed s.cfg.nctr = true)
    (hb : usesClock i = false ∨ s.bound = true) (hz : scaleOk i s = true) : accepted i s = true := by
  rcases hb with hb | hb <;> simp [accepted, hw, hb, hz]

/-! ## Time -/

theorem passTime_pulseOk {s : State} (h : s.PulseOk) : (passTime s).PulseOk := by
  intro hm
  have hs : s.inMaskedPulse = true := (elapse_inMaskedPulse _ (dropDraw s)).symm.trans hm
  have hticks : (passTime s).pulseTicks = s.pulseTicks + s.allowedTicks (s.drawAt 0).ticks := if_pos hs
  rw [hticks]
  exact (allowedTicks_of_masked s _ hs (h hs)).2

theorem passTime_frame_outside (s : State) : (passTime s).frame = .outside ↔ s.frame = .outside :=
  elapse_frame_outside _ (dropDraw s)

/-- Time keeps the invariant (R15). -/
theorem passTime_inv {s : State} (h : s.Inv) : (passTime s).Inv := by
  obtain ⟨hv, hc, hf, hie, hframe, hline, hpulse⟩ := (inv_iff s).1 h
  exact (inv_iff _).2 ⟨hv.passTime, hc, hf, hie, fun ho => hframe fun e => ho ((passTime_frame_outside s).2 e), hline,
    passTime_pulseOk hpulse⟩

/-! ## The procedures -/

/-- What a procedure says of the place it leads to: `inside` of its next position, `after` where it has ended. -/
def ProcOut.Leads {π : Type} (inside : π → Prop) (after : Prop) : ProcOut π → Prop
  | .at_ p => inside p
  | .waiting p => inside p
  | .done => after

theorem ProcOut.Leads.imp {π : Type} {inside inside' : π → Prop} {after after' : Prop} {o : ProcOut π}
    (h : o.Leads inside after) (hinside : ∀ p, inside p → inside' p) (hafter : after → after') :
    o.Leads inside' after' := by
  cases o with
  | at_ p => exact hinside p h
  | waiting p => exact hinside p h
  | done => exact hafter h

/-- A procedure called by the command `i` keeps the invariant, where it leaves the lines right. -/
theorem calling_inv {π : Type} {i : Instr} {inside : π → Pos} {after : State → State} {r : State × ProcOut π}
    (hfit : r.1.Fit i) (hpos : ∀ p, posOf i (inside p) = true)
    (hr : r.2.Leads (fun p => LinesAt (.run i (inside p)) r.1) (after r.1).Inv) : (calling i inside after r).1.Inv := by
  rcases r with ⟨u, p | p | _⟩
  · exact hfit.goto_inv (hpos p) hr
  · exact hfit.goto_inv (hpos p) hr
  · exact hr

/-- A procedure outside the critical section at whose positions no level is fixed. -/
theorem calling_inv_of_unmasked {π : Type} {i : Instr} {inside : π → Pos} {after : State → State}
    {r : State × ProcOut π} (hfit : r.1.Fit i) (hpos : ∀ p, posOf i (inside p) = true)
    (hq : ∀ p, inCriticalSection (.run i (inside p)) = false) (hline : ∀ p, lineAt (.run i (inside p)) = none)
    (hu : r.1.Unmasked) (hafter : (after r.1).Inv) : (calling i inside after r).1.Inv := by
  rcases r with ⟨u, p | p | _⟩
  · exact hfit.goto_inv_of_unmasked (hpos p) (hq p) (hline p) hu
  · exact hfit.goto_inv_of_unmasked (hpos p) (hq p) (hline p) hu
  · exact hafter

theorem delayStep_procFrame (n : Nat) (d : DelayPos) (s : State) : ProcFrame s (delayStep n d s).1 := by
  obtain ⟨v, e⟩ := delayStep_state n d s
  rw [e]
  constructor <;> rfl

/-- A delay touches no line (R86). -/
theorem delayStep_unmasked (n : Nat) (d : DelayPos) {s : State} (h : s.Unmasked) : (delayStep n d s).1.Unmasked := by
  obtain ⟨v, e⟩ := delayStep_state n d s
  rw [e]
  exact h

/-- A wait touches no line (R99). -/
theorem waitReadyStep_unmasked (d : Word) (w : WaitPos) {s : State} (h : s.Unmasked) :
    (waitReadyStep d w s).1.Unmasked := by
  obtain ⟨v, x, e, -⟩ := waitReadyStep_state d w s
  rw [e]
  exact h

/-- The level of `SCK` at a step of a shift-in, its first rising edge taken as the others (R94). -/
def bitLevel : BitPos → Bool
  | .high => false
  | .settle _ => true
  | .sample => true
  | .low => true
  | .hold _ => false

theorem bitLevel_of_bitLine {first : Bool} {p : BitPos} {v : Bool} (h : bitLine first p = some v) : bitLevel p = v := by
  cases p with
  | high =>
    cases first
    · exact Option.some.inj h
    · cases h
  | _ => exact Option.some.inj h

theorem bitLine_of_ne_high {first : Bool} {p : BitPos} (h : p ≠ .high) : bitLine first p = some (bitLevel p) := by
  cases p with
  | high => exact absurd rfl h
  | _ => rfl

/-- `Delay(1)` changes no line and waits for nothing: it stands at its poll, or has ended (R86 (b)). -/
theorem delayStep_one_cases (d : DelayPos) (s : State) :
    (∃ v, delayStep 1 d s = ({ s with t0 := v }, .at_ .poll)) ∨ delayStep 1 d s = (s, .done) := by
  cases d with
  | latch => exact .inl ⟨_, rfl⟩
  | poll => exact .inr (delayStep_one_poll s)

/-- The clock, step by step of a shift-in (R94). -/
theorem shiftInStep_line (o : BitOrder) (p : ShiftPos) (s : State) (h : p.at_ ≠ .high → s.sck = bitLevel p.at_) :
    (shiftInStep o p s).2.Leads (fun q => (shiftInStep o p s).1.sck = bitLevel q.at_)
      ((shiftInStep o p s).1.sck = false) := by
  rcases p with ⟨b, _ | d | _ | _ | d⟩
  · rfl
  · have hs : s.sck = true := h nofun
    rcases delayStep_one_cases d s with ⟨v, e⟩ | e <;> simp only [shiftInStep, e] <;> exact hs
  · exact h nofun
  · rfl
  · have hs : s.sck = false := h nofun
    rcases delayStep_one_cases d s with ⟨v, e⟩ | e <;> simp only [shiftInStep, e, ProcOut.within]
    · exact hs
    · split <;> exact hs

/-- A shift-in masks nothing (R96). -/
theorem shiftInStep_ie (o : BitOrder) (p : ShiftPos) (s : State) : (shiftInStep o p s).1.ie = s.ie :=
  (shiftInStep_frame o p s).2.1

/-- Nor does a pulse (R93). -/
theorem pulseStep_ie (p : PulsePos) (s : State) : (pulseStep p s).1.ie = s.ie :=
  (pulseStep_frame p s).2.1

/-- What one step of a shift-in makes of the state: a rising edge, or one of the other steps (R94). -/
theorem shiftInStep_state (o : BitOrder) (p : ShiftPos) (s : State) :
    (p.at_ = .high ∧
      ((shiftInStep o p s).1 = pinWrite true s ∨ (shiftInStep o p s).1 = pinWrite true (beginShift s))) ∨
    (p.at_ ≠ .high ∧
      ((∃ v, (shiftInStep o p s).1 = { s with t0 := v }) ∨ (∃ b, (shiftInStep o p s).1 = { noteSample s with byt := b }) ∨
        (shiftInStep o p s).1 = pinWrite false s)) := by
  rcases p with ⟨b, _ | d | _ | _ | d⟩
  · refine .inl ⟨rfl, ?_⟩
    simp only [shiftInStep]
    split
    · exact .inr rfl
    · exact .inl rfl
  · exact .inr ⟨nofun, .inl (delayStep_state 1 d s)⟩
  · exact .inr ⟨nofun, .inr (.inl ⟨_, rfl⟩)⟩
  · exact .inr ⟨nofun, .inr (.inr rfl)⟩
  · exact .inr ⟨nofun, .inl (delayStep_state 1 d s)⟩

/-- The bound of R15 begins anew with each rising edge. -/
theorem pinWrite_pulseOk {v : Bool} {s : State} : (pinWrite v s).PulseOk := by
  cases v with
  | true => exact fun _ => Nat.zero_le _
  | false => exact pulseOk_of_low rfl

theorem shiftInStep_pulseOk (o : BitOrder) (p : ShiftPos) (s : State) (h : p.at_ ≠ .high → s.PulseOk) :
    (shiftInStep o p s).1.PulseOk := by
  rcases shiftInStep_state o p s with ⟨-, e | e⟩ | ⟨hp, ⟨v, e⟩ | ⟨b, e⟩ | e⟩ <;> rw [e]
  · exact pinWrite_pulseOk
  · exact pinWrite_pulseOk
  · exact h hp
  · exact h hp
  · exact pinWrite_pulseOk

/-- A shift-in outside every frame opens none (R42). -/
theorem shiftInStep_unmasked (o : BitOrder) (p : ShiftPos) {s : State} (h : s.Unmasked) :
    (shiftInStep o p s).1.Unmasked := by
  rcases shiftInStep_state o p s with ⟨-, e | e⟩ | ⟨-, ⟨v, e⟩ | ⟨b, e⟩ | e⟩ <;> rw [e]
  · exact h
  · exact ⟨h.1, by simp [h.2]⟩
  · exact h
  · exact h
  · exact h

/-- The clock, step by step of a pulse (R93). -/
theorem pulseStep_line (p : PulsePos) (s : State) (h : s.sck = pulseLine p) :
    (pulseStep p s).2.Leads (fun q => (pulseStep p s).1.sck = pulseLine q) ((pulseStep p s).1.sck = false) := by
  cases p with
  | high => rfl
  | highDelay d => rcases delayStep_one_cases d s with ⟨v, e⟩ | e <;> simp only [pulseStep, e] <;> exact h
  | low => rfl
  | lowDelay d => rcases delayStep_one_cases d s with ⟨v, e⟩ | e <;> simp only [pulseStep, e] <;> exact h

/-- What one step of a pulse makes of the state (R93). -/
theorem pulseStep_state (p : PulsePos) (s : State) :
    (∃ v, (pulseStep p s).1 = pinWrite v s) ∨ (∃ v, (pulseStep p s).1 = { s with t0 := v }) := by
  cases p with
  | high => exact .inl ⟨_, rfl⟩
  | highDelay d => exact .inr (delayStep_state 1 d s)
  | low => exact .inl ⟨_, rfl⟩
  | lowDelay d => exact .inr (delayStep_state 1 d s)

theorem pulseStep_pulseOk (p : PulsePos) {s : State} (h : s.PulseOk) : (pulseStep p s).1.PulseOk := by
  rcases pulseStep_state p s with ⟨v, e⟩ | ⟨v, e⟩ <;> rw [e]
  · exact pinWrite_pulseOk
  · exact h

/-- The lines inside the shift-in of `SHIFT_IN`, which masks nothing (R94, R96). -/
theorem linesAt_shift {i : Instr} {p : ShiftPos} {s : State} (hu : s.Unmasked) (hsck : s.sck = bitLevel p.at_) :
    LinesAt (.run i (.shift p)) s :=
  ⟨hu.1, fun hf => absurd hu.2 hf, fun _ hv => hsck.trans (bitLevel_of_bitLine hv), pulseOk_of_outside hu.2⟩

/-! ## `Read` -/

/-- The lines inside the shift-in of byte `j` (R94, R103). -/
theorem linesAt_byte_iff {i : Instr} {j : Fin 3} {p : ShiftPos} {s : State} :
    LinesAt (.run i (.read (.byte j p))) s ↔
      s.ie = false ∧ (∀ v, bitLine (j == 0 && p.bit == 0) p.at_ = some v → s.sck = v) ∧ s.PulseOk := by
  simp [LinesAt, inCriticalSection, lineAt]

theorem linesAt_byte {i : Instr} {j : Fin 3} {p : ShiftPos} {s : State} (hie : s.ie = false)
    (hsck : s.sck = bitLevel p.at_) (hpulse : s.PulseOk) : LinesAt (.run i (.read (.byte j p))) s :=
  linesAt_byte_iff.2 ⟨hie, fun _ hv => hsck.trans (bitLevel_of_bitLine hv), hpulse⟩

/-- The lines inside a trailing pulse (R93, R103). -/
theorem linesAt_pulse_iff {i : Instr} {k count : Nat} {p : PulsePos} {s : State} :
    LinesAt (.run i (.read (.pulse k count p))) s ↔ s.ie = false ∧ s.sck = pulseLine p ∧ s.PulseOk := by
  simp [LinesAt, inCriticalSection, lineAt]

/-- The lines before `IE <- 1` (R103). -/
theorem linesAt_unmask_iff {i : Instr} {s : State} :
    LinesAt (.run i (.read .unmask)) s ↔ s.ie = false ∧ s.sck = false ∧ s.PulseOk := by
  simp [LinesAt, inCriticalSection, lineAt]

/-- After a step of the shift-in of byte `j`, and the storing of the byte where it was the last one (R103). -/
theorem byteOut_lines {i : Instr} (j : Fin 3) (x : State × ProcOut ShiftPos) (hie : x.1.ie = false)
    (hline : x.2.Leads (fun q => x.1.sck = bitLevel q.at_) (x.1.sck = false)) (hpulse : x.1.PulseOk) (after : Prop) :
    (byteOut j x).2.Leads (fun r => LinesAt (.run i (.read r)) (byteOut j x).1) after := by
  rcases x with ⟨s, q | q | _⟩
  · exact linesAt_byte hie hline hpulse
  · exact linesAt_byte hie hline hpulse
  · simp only [byteOut]
    split
    · exact linesAt_pulse_iff.2 ⟨hie, hline, hpulse⟩
    · exact linesAt_byte hie hline hpulse

/-- After a step of a trailing pulse. -/
theorem pulseOut_lines {i : Instr} (k count : Nat) (x : State × ProcOut PulsePos) (hie : x.1.ie = false)
    (hline : x.2.Leads (fun q => x.1.sck = pulseLine q) (x.1.sck = false)) (hpulse : x.1.PulseOk) (after : Prop) :
    (x.2.within (.pulse k count) (if k < count then .at_ (.pulse (k + 1) count .high) else .at_ .unmask)).Leads
      (fun r => LinesAt (.run i (.read r)) x.1) after := by
  rcases x with ⟨s, q | q | _⟩
  · exact linesAt_pulse_iff.2 ⟨hie, hline, hpulse⟩
  · exact linesAt_pulse_iff.2 ⟨hie, hline, hpulse⟩
  · simp only [ProcOut.within]
    split
    · exact linesAt_pulse_iff.2 ⟨hie, hline, hpulse⟩
    · exact linesAt_unmask_iff.2 ⟨hie, hline, hpulse⟩

/-- After a step of the wait of a read: the next step of the wait, or `IE <- 0`, neither of which fixes a level. -/
theorem waitOut_lines {i : Instr} {s : State} (o : ProcOut WaitPos) (hu : s.Unmasked) (after : Prop) :
    (o.within ReadPos.wait (.at_ .mask)).Leads (fun r => LinesAt (.run i (.read r)) s) after := by
  cases o with
  | at_ w => exact (linesAt_iff_unmasked rfl rfl).2 hu
  | waiting w => exact (linesAt_iff_unmasked rfl rfl).2 hu
  | done => exact (linesAt_iff_unmasked rfl rfl).2 hu

/-- A step of `Read` leaves the lines right where it leads to, and at its end interruption is enabled and the frame is
closed (R35, R42, R43, R103). -/
theorem readStep_lines {i : Instr} (r : ReadPos) (s : State) (h : LinesAt (.run i (.read r)) s) :
    (readStep r s).2.Leads (fun r' => LinesAt (.run i (.read r')) (readStep r s).1) (readStep r s).1.Unmasked := by
  cases r with
  | wait w =>
    have hu := (linesAt_iff_unmasked rfl rfl).1 h
    exact waitOut_lines _ (waitReadyStep_unmasked _ w hu) _
  | mask =>
    have hu := (linesAt_iff_unmasked rfl rfl).1 h
    exact linesAt_byte_iff.2 ⟨rfl, nofun, pulseOk_of_outside hu.2⟩
  | byte j p =>
    obtain ⟨hie, hline, hpulse⟩ := linesAt_byte_iff.1 h
    rw [readStep_byte]
    have hlevel : p.at_ ≠ .high → s.sck = bitLevel p.at_ := fun hp => hline _ (bitLine_of_ne_high hp)
    split
    · rename_i hfirst
      obtain ⟨-, rfl⟩ := hfirst
      exact byteOut_lines j _ ((shiftInStep_ie _ _ (openFrame s)).trans hie)
        (shiftInStep_line _ shiftStart (openFrame s) fun hp => (hp rfl).elim)
        (shiftInStep_pulseOk _ shiftStart (openFrame s) fun hp => (hp rfl).elim) _
    · exact byteOut_lines j _ ((shiftInStep_ie _ _ _).trans hie) (shiftInStep_line _ _ _ hlevel)
        (shiftInStep_pulseOk _ _ _ fun _ => hpulse) _
  | pulse k count p =>
    obtain ⟨hie, hline, hpulse⟩ := linesAt_pulse_iff.1 h
    exact pulseOut_lines k count _ ((pulseStep_ie p s).trans hie) (pulseStep_line p s hline)
      (pulseStep_pulseOk p hpulse) _
  | unmask => exact ⟨rfl, rfl⟩

/-! ## The steps of a command -/

/-- The commands with positions inside a read are those that make one (R27, R103). -/
theorem posOf_read_eq (i : Instr) (r : ReadPos) : posOf i (.read r) = readsFrames i := by
  cases i <;> rfl

theorem posOf_read {i : Instr} {r r' : ReadPos} (h : posOf i (.read r) = true) : posOf i (.read r') = true := by
  rw [posOf_read_eq] at h ⊢
  exact h

theorem readsFrames_of_posOf {i : Instr} {r : ReadPos} (h : posOf i (.read r) = true) : readsFrames i = true :=
  (posOf_read_eq i r).symm.trans h

/-- After a read of an averaging command: the next read, or the command's end (R113). -/
theorem averageNext_inv {i : Instr} {s : State} (hpos : posOf i (.read readStart) = true) (h : s.Fit i)
    (hu : s.Unmasked) (hend : ∀ u : State, u.Fit i → u.Unmasked → (averageEnd i u).Inv) :
    (averageNext i (averageEnd i) s).Inv := by
  simp only [averageNext]
  split
  · exact hend _ h hu
  · exact State.Fit.goto_inv_of_unmasked (s := { s with acc := _, ctr := _ }) h hpos rfl rfl hu

/-- What follows the last step of a read ends the command or begins its next read (R104, R106, R113). -/
theorem afterRead_inv {i : Instr} {s : State} (hpos : posOf i (.read readStart) = true) (h : s.Fit i)
    (hu : s.Unmasked) : (afterRead i s).Inv := by
  cases i with
  | read => exact returnValue_inv h.1 hu (signedPattern_lt _ _)
  | configure g => exact finish_inv h.1 hu
  | readAverage n =>
    exact averageNext_inv hpos h hu fun u hf hu => returnValue_inv hf.1 hu (signedPattern_lt _ _)
  | getValue n =>
    exact averageNext_inv hpos h hu fun u hf hu =>
      returnValue_inv hf.1 hu (lt_resultWidth (float_le_resultWidth _) (floatSub_lt _ _ _))
  | getUnits n =>
    exact averageNext_inv hpos h hu fun u hf hu =>
      returnValue_inv hf.1 hu (lt_resultWidth (float_le_resultWidth _) (floatDiv_lt _ _ _))
  | tare n =>
    exact averageNext_inv hpos h hu fun u hf hu => finish_inv (s := { u with offset := _ }) hf.1 hu
  | _ => cases hpos

/-- A step inside a read, of any command that makes one. -/
theorem read_step_inv {i : Instr} {r : ReadPos} {s : State} (h : s.Fit i) (hp : posOf i (.read r) = true)
    (hl : LinesAt (.run i (.read r)) s) : (stepsOf i (.read r) s).1.Inv := by
  rw [stepsOf_read (readsFrames_of_posOf hp)]
  have hfit := h.of_procFrame (readStep_frame r s) (readStep_t0 r s)
  exact calling_inv hfit (fun _ => posOf_read hp)
    ((readStep_lines r s hl).imp (fun _ => id) (afterRead_inv (posOf_read hp) hfit))

/-- A step inside a delay. -/
theorem delay_step_inv {i : Instr} {d : DelayPos} {s : State} (h : s.Fit i) (hp : posOf i (.delay d) = true)
    (hl : LinesAt (.run i (.delay d)) s) : (stepsOf i (.delay d) s).1.Inv := by
  have hu := (linesAt_iff_unmasked rfl rfl).1 hl
  cases i with
  | delayUs n =>
    have hfit := h.of_procFrame (delayStep_procFrame (counterOperand s.cfg n) d s) (delayStep_t0 _ d s)
    have hu' := delayStep_unmasked (counterOperand s.cfg n) d hu
    exact calling_inv_of_unmasked hfit (fun _ => rfl) (fun _ => rfl) (fun _ => rfl) hu' (finish_inv hfit.1 hu')
  | _ => cases hp

/-- An accepted `SHIFT_IN` has a legal order (R73, R77). -/
theorem bitOrderOf_of_accepted {o : Word} {s : State} (h : accepted (.shiftIn o) s = true) :
    ∃ order, bitOrderOf o = some order := by
  simp only [accepted, Instr.wellFormed, Bool.and_eq_true, ← bitOrderOf_isSome] at h
  obtain ⟨⟨horder, -⟩, -⟩ := h
  exact Option.isSome_iff_exists.1 horder

/-- A step of the shift-in of `SHIFT_IN`. -/
theorem shift_step_inv {i : Instr} {p : ShiftPos} {s : State} (h : s.Fit i) (hp : posOf i (.shift p) = true)
    (hl : LinesAt (.run i (.shift p)) s) : (stepsOf i (.shift p) s).1.Inv := by
  cases i with
  | shiftIn o =>
    obtain ⟨hie, hframe, hline, -⟩ := id hl
    have hu : s.Unmasked := ⟨hie, by_contra fun hf => Bool.false_ne_true (hframe hf)⟩
    obtain ⟨-, -, -, ha⟩ := id h
    obtain ⟨order, horder⟩ := bitOrderOf_of_accepted ha
    have hfit := h.of_procFrame (shiftInStep_frame order p s).1 (shiftInStep_t0 order p s)
    have hu' := shiftInStep_unmasked order p hu
    have hlevel := shiftInStep_line order p s fun hne => hline _ (bitLine_of_ne_high hne)
    simp only [stepsOf, shiftInSteps, horder]
    exact calling_inv hfit (fun _ => rfl) (hlevel.imp (fun _ => linesAt_shift hu') fun _ =>
      returnValue_inv hfit.1 hu' (lt_resultWidth (word_le_resultWidth _) ((BitVec.isLt _).trans_le (by norm_num))))
  | _ => cases hp

/-- A sleep writes nothing that the invariant speaks of (R87). -/
theorem sleepStep_fit {i : Instr} (d : Word) (p : SleepPos) {s : State} (h : s.Fit i) (hu : s.Unmasked) :
    (sleepStep d p s).1.Fit i ∧ (sleepStep d p s).1.Unmasked := by
  obtain ⟨v, e⟩ := sleepStep_state d p s
  rw [e]
  exact ⟨h, hu⟩

/-- Nor does a wait (R99). -/
theorem waitReadyStep_fit {i : Instr} (d : Word) (w : WaitPos) {s : State} (h : s.Fit i) (hu : s.Unmasked) :
    (waitReadyStep d w s).1.Fit i ∧ (waitReadyStep d w s).1.Unmasked := by
  obtain ⟨v, x, e, -⟩ := waitReadyStep_state d w s
  rw [e]
  exact ⟨h, hu⟩

/-- The loop test of `WAIT_READY_RETRY` (R101). -/
theorem retryTest_inv {a d : Word} {s : State} (h : s.Fit (.waitReadyRetry a d)) (hu : s.Unmasked) :
    (retryTest a d s).Inv := by
  simp only [retryTest]
  split
  · exact h.goto_inv_of_unmasked rfl rfl rfl hu
  · exact returnValue_inv h.1 hu (boolResult_lt _ _)

/-- A step of a wait loop (R99, R101, R102). -/
theorem wait_step_inv {i : Instr} {w : WaitPos} {s : State} (h : s.Fit i) (hp : posOf i (.wait w) = true)
    (hl : LinesAt (.run i (.wait w)) s) : (stepsOf i (.wait w) s).1.Inv := by
  have hu := (linesAt_iff_unmasked rfl rfl).1 hl
  cases i with
  | waitReady d =>
    obtain ⟨hfit, hu'⟩ := waitReadyStep_fit d w h hu
    exact calling_inv_of_unmasked hfit (fun _ => rfl) (fun _ => rfl) (fun _ => rfl) hu' (finish_inv hfit.1 hu')
  | waitReadyRetry a d =>
    cases w with
    | check =>
      simp only [stepsOf, waitReadyRetrySteps]
      split
      · exact returnValue_inv (s := noteCheck s) h.1 hu (boolResult_lt _ _)
      · exact State.Fit.goto_inv_of_unmasked (s := noteCheck s) h rfl rfl rfl hu
    | sleep p =>
      obtain ⟨hfit, hu'⟩ := sleepStep_fit d p h hu
      exact calling_inv_of_unmasked hfit (fun _ => rfl) (fun _ => rfl) (fun _ => rfl) hu'
        (retryTest_inv (s := { (sleepStep d p s).1 with ctr := _ }) hfit hu')
  | waitReadyTimeout a d =>
    cases w with
    | check =>
      simp only [stepsOf, waitReadyTimeoutSteps]
      split
      · exact returnValue_inv (s := noteCheck s) h.1 hu (boolResult_lt _ _)
      · exact State.Fit.goto_inv_of_unmasked (s := noteCheck s) h rfl rfl rfl hu
    | sleep p =>
      obtain ⟨hfit, hu'⟩ := sleepStep_fit d p h hu
      exact calling_inv_of_unmasked hfit (fun _ => rfl) (fun _ => rfl) (fun _ => rfl) hu'
        (hfit.goto_inv_of_unmasked rfl rfl rfl hu')
  | _ => cases hp

/-- The elapsed-time test (R102). -/
theorem timeTest_step_inv {i : Instr} {s : State} (h : s.Fit i) (hp : posOf i .timeTest = true)
    (hl : LinesAt (.run i .timeTest) s) : (stepsOf i .timeTest s).1.Inv := by
  have hu := (linesAt_iff_unmasked rfl rfl).1 hl
  cases i with
  | waitReadyTimeout a d =>
    simp only [stepsOf, waitReadyTimeoutSteps]
    split
    · exact h.goto_inv_of_unmasked rfl rfl rfl hu
    · exact returnValue_inv h.1 hu (boolResult_lt _ _)
  | _ => cases hp

/-- The one step a command makes outside every procedure. -/
theorem act_step_inv {i : Instr} {s : State} (h : s.Fit i) (hp : posOf i .act = true)
    (hl : LinesAt (.run i .act) s) : (stepsOf i .act s).1.Inv := by
  have hu := (linesAt_iff_unmasked rfl rfl).1 hl
  obtain ⟨hv, -, -, ha⟩ := id h
  cases i with
  | clkInit c =>
    have hc : c.toNat < s.cfg.nctr := by
      simpa [accepted, Instr.wellFormed, usesClock, scaleOk] using ha
    exact finish_inv (s := { s with csel := c.toNat, bound := true }) (hv.withClock hc) hu
  | nowUs => exact returnValue_inv hv hu (lt_resultWidth (counter_le_resultWidth _) hv.cntRead_lt)
  | nowMs => exact returnValue_inv hv hu (lt_resultWidth (counter_le_resultWidth _) hv.nowMs_lt)
  | configure g => exact State.Fit.goto_inv_of_unmasked (s := pinWrite false s) h rfl rfl rfl hu
  | isReady => exact returnValue_inv (s := noteCheck s) hv hu (boolResult_lt _ _)
  | waitReadyTimeout a d =>
    exact State.Fit.goto_inv_of_unmasked (s := { s with ts := s.nowMs }) ⟨hv.withTs hv.nowMs_lt, h.2⟩ rfl rfl rfl hu
  | powerDown => exact finish_inv (s := pinWrite true s) hv hu
  | powerUp => exact finish_inv (s := pinWrite false s) hv hu
  | setScale a b =>
    exact finish_inv (s := { s with scale := scaleOperand s.cfg a b })
      (hv.withScale (Nat.mod_lt _ (Nat.two_pow_pos _))) hu
  | setOffset v => exact finish_inv (s := { s with offset := v }) hv hu
  | _ => cases hp

/-- Every atomic step of the command in progress keeps the invariant. -/
theorem stepsOf_inv {i : Instr} {p : Pos} {s : State} (hs : s.seq = .run i p) (h : s.Inv) :
    (stepsOf i p s).1.Inv := by
  obtain ⟨hfit, hp, hl⟩ := (inv_iff_of_running hs).1 h
  cases p with
  | act => exact act_step_inv hfit hp hl
  | delay d => exact delay_step_inv hfit hp hl
  | shift p => exact shift_step_inv hfit hp hl
  | wait w => exact wait_step_inv hfit hp hl
  | timeTest => exact timeTest_step_inv hfit hp hl
  | read r => exact read_step_inv hfit hp hl

/-! ## The issue of a command -/

/-- A command has just been issued, its tests still to come. -/
def State.Issued (s : State) : Prop := s.ValuesOk ∧ s.Unmasked ∧ s.busy = true ∧ s.faultField = 0

theorem hostIssue_issued (i : Instr) {s : State} (h : s.Inv) (hs : s.seq = .idle) : (hostIssue i s).Issued := by
  obtain ⟨hv, -, -, hu⟩ := (inv_iff_of_idle hs).1 h
  exact ⟨hv, hu, hostIssue_busy i s, hostIssue_faultField i s⟩

section
variable {s : State} (h : s.Issued)
include h

theorem State.Issued.values : s.ValuesOk := h.1

theorem State.Issued.unmasked : s.Unmasked := h.2.1

theorem State.Issued.fit {i : Instr} (ha : accepted i s = true) : s.Fit i := by
  obtain ⟨hv, -, hb, hf⟩ := h
  exact ⟨hv, hb, hf, ha⟩

/-- An accepted command goes to its first step, where no level is fixed. -/
theorem State.Issued.goto_inv {i : Instr} {p : Pos} (ha : accepted i s = true) (hp : posOf i p = true)
    (hq : inCriticalSection (.run i p) = false) (hline : lineAt (.run i p) = none) : (goto i p s).Inv :=
  (h.fit ha).goto_inv_of_unmasked hp hq hline h.unmasked

/-- Or stands there already. -/
theorem State.Issued.act_inv {i : Instr} (hs : s.seq = .run i .act) (ha : accepted i s = true)
    (hp : posOf i .act = true) : s.Inv :=
  (inv_iff_of_running hs).2 ⟨h.fit ha, hp, (linesAt_iff_unmasked rfl rfl).2 h.unmasked⟩

theorem argumentCheck_inv {legal : Bool} {rest : State → State} (hrest : legal = true → (rest s).Inv) :
    (argumentCheck legal rest s).Inv := by
  cases legal with
  | true => exact hrest rfl
  | false => exact raise_inv _ h.values h.unmasked

theorem clockCheck_inv {rest : State → State} (hrest : s.bound = true → (rest s).Inv) : (clockCheck rest s).Inv := by
  simp only [clockCheck]
  split
  · exact hrest ‹_›
  · exact raise_inv _ h.values h.unmasked

theorem scaleCheck_inv {rest : State → State} (hrest : floatIsZero s.cfg.fmt s.scale = false → (rest s).Inv) :
    (scaleCheck rest s).Inv := by
  simp only [scaleCheck]
  split
  · exact raise_inv _ h.values h.unmasked
  · exact hrest (Bool.eq_false_of_not_eq_true ‹_›)

theorem averageStart_inv {i : Instr} {n : Word} (ha : accepted i s = true) (hp : posOf i (.read readStart) = true) :
    (averageStart i n s).Inv :=
  State.Issued.goto_inv (s := { s with acc := 0, ctr := n }) h ha hp rfl rfl

/-- The entry of a command just issued keeps the invariant: it raises a fault, ends the command, or leads to its first
step with every test passed. -/
theorem entryOf_inv {i : Instr} (hs : s.seq = .run i .act) : (entryOf i s).Inv := by
  cases i with
  | clkInit c =>
    exact argumentCheck_inv h fun hc => h.act_inv hs (accepted_of_tests hc (.inl rfl) rfl) rfl
  | delayUs n =>
    exact clockCheck_inv h fun hb => h.goto_inv (accepted_of_tests rfl (.inr hb) rfl) rfl rfl rfl
  | nowUs => exact clockCheck_inv h fun hb => h.act_inv hs (accepted_of_tests rfl (.inr hb) rfl) rfl
  | nowMs => exact clockCheck_inv h fun hb => h.act_inv hs (accepted_of_tests rfl (.inr hb) rfl) rfl
  | shiftIn o =>
    refine argumentCheck_inv h fun ho => clockCheck_inv h fun hb => ?_
    rw [bitOrderOf_isSome] at ho
    exact State.Issued.goto_inv (s := { s with byt := 0 }) h
      (accepted_of_tests ho (.inr hb) rfl) rfl rfl rfl
  | configure g =>
    refine argumentCheck_inv h fun hg => clockCheck_inv h fun hb => ?_
    rw [← legalGain_eq] at hg
    exact State.Issued.act_inv (s := selectGain g s) h hs (accepted_of_tests hg (.inr hb) rfl) rfl
  | isReady => exact h.act_inv hs rfl rfl
  | waitReady d => exact h.goto_inv rfl rfl rfl rfl
  | waitReadyRetry a d =>
    exact retryTest_inv (s := { s with ctr := 0 }) (h.fit (i := .waitReadyRetry a d) rfl) h.unmasked
  | waitReadyTimeout a d =>
    exact clockCheck_inv h fun hb => h.act_inv hs (accepted_of_tests rfl (.inr hb) rfl) rfl
  | read => exact clockCheck_inv h fun hb => h.goto_inv (accepted_of_tests rfl (.inr hb) rfl) rfl rfl rfl
  | powerDown => exact h.act_inv hs rfl rfl
  | powerUp => exact h.act_inv hs rfl rfl
  | readAverage n =>
    exact argumentCheck_inv h fun hn => clockCheck_inv h fun hb =>
      averageStart_inv h (accepted_of_tests hn (.inr hb) rfl) rfl
  | getValue n =>
    exact argumentCheck_inv h fun hn => clockCheck_inv h fun hb =>
      averageStart_inv h (accepted_of_tests hn (.inr hb) rfl) rfl
  | getUnits n =>
    exact argumentCheck_inv h fun hn => clockCheck_inv h fun hb => scaleCheck_inv h fun hz =>
      averageStart_inv h (accepted_of_tests hn (.inr hb) (congrArg not hz)) rfl
  | tare n =>
    exact argumentCheck_inv h fun hn => clockCheck_inv h fun hb =>
      averageStart_inv h (accepted_of_tests hn (.inr hb) rfl) rfl
  | setScale a b => exact h.act_inv hs rfl rfl
  | getScale =>
    obtain ⟨-, -, -, -, -, -, hscale, -⟩ := h.values
    exact returnValue_inv h.values h.unmasked (lt_resultWidth (float_le_resultWidth _) hscale)
  | setOffset v => exact h.act_inv hs rfl rfl
  | getOffset => exact returnValue_inv h.values h.unmasked (signedPattern_lt _ _)

end

/-! ## The step -/

/-- Where a command stands when it has been issued (R14). -/
theorem entry_seq (i : Instr) (s : State) :
    (entryOf i (hostIssue i s)).seq = .idle ∨ ∃ p, (entryOf i (hostIssue i s)).seq = .run i p := by
  cases ha : accepted i s with
  | true =>
    rcases entry_accepted i s ha with ⟨q, -, hq, -⟩ | ⟨hq, -⟩
    · exact .inr ⟨q, hq⟩
    · exact .inl hq
  | false => exact .inl (by rw [entry_refused i s ha]; rfl)

/-- What a step can do (R14): a command in progress goes on, the next command is issued and runs, an illegal word ends at
once, or time passes. -/
theorem step_next_cases {s t : State} (h : step s = .next t) :
    (∃ i p, s.busy = true ∧ s.seq = .run i p ∧ t = runSteps (stepsOf i) (stepBudget i) s) ∨
    (s.busy = false ∧
      ((∃ w rest i, decode w = .ok i ∧
          t = runSteps (stepsOf i) (stepBudget i) (entryOf i (hostIssue i (takeCommand rest s)))) ∨
        (∃ w rest e, decode w = .error e ∧ t = invalidCommand (takeCommand rest s)) ∨ t = passTime s)) := by
  unfold step at h
  split at h
  · rename_i hb
    split at h
    · rename_i i p hs
      rcases exec_next_cases i s t h with ⟨hb', -⟩ | ⟨-, q, hq, -, ht⟩
      · exact Bool.noConfusion (hb'.symm.trans hb)
      · exact .inl ⟨i, q, hb, hq, ht⟩
    · cases h
  · rename_i hb
    have hb : s.busy = false := by simpa using hb
    refine .inr ⟨hb, ?_⟩
    split at h
    · exact .inr (.inr (Host.Outcome.next.inj h).symm)
    · rename_i w rest _
      split at h
      · rename_i i hi
        rcases exec_next_cases i _ t h with ⟨-, ht⟩ | ⟨hb', -⟩
        · exact .inl ⟨w, rest, i, hi, ht⟩
        · exact Bool.noConfusion (hb.symm.trans hb')
      · rename_i e he
        exact .inr (.inl ⟨w, rest, e, he, (Host.Outcome.next.inj h).symm⟩)

/-- What time, the steps of a command, its issue, and an illegal word keep, every step keeps. -/
theorem step_preserves {P : State → Prop} (time : ∀ s, P s → P (passTime s))
    (steps : ∀ s i p, s.seq = .run i p → P s → P (stepsOf i p s).1)
    (issue : ∀ s w rest i, s.busy = false → decode w = .ok i → P s → P (entryOf i (hostIssue i (takeCommand rest s))))
    (illegal : ∀ s w rest e, s.busy = false → decode w = .error e → P s → P (invalidCommand (takeCommand rest s)))
    {s t : State} (hs : P s) (h : step s = .next t) : P t := by
  have run : ∀ i k u, P u → (u.seq = .idle ∨ ∃ p, u.seq = .run i p) → P (runSteps (stepsOf i) k u) :=
    fun i k u hu hq => (runSteps_of_course i time (fun u p hp hu => steps u i p hp hu) k u hu hq).1
  rcases step_next_cases h with ⟨i, p, -, hp, rfl⟩ | ⟨hb, ⟨w, rest, i, hi, rfl⟩ | ⟨w, rest, e, he, rfl⟩ | rfl⟩
  · exact run i _ s hs (.inr ⟨p, hp⟩)
  · exact run i _ _ (issue s w rest i hb hi hs) (entry_seq i _)
  · exact illegal s w rest e hb he hs
  · exact time s hs

/-- A command issued on an idle block (R14). -/
theorem issue_inv (rest : List CmdWord) (i : Instr) {s : State} (hb : s.busy = false) (h : s.Inv) :
    (entryOf i (hostIssue i (takeCommand rest s))).Inv :=
  entryOf_inv (s := hostIssue i (takeCommand rest s)) (hostIssue_issued (s := s) i h (seq_eq_idle h hb)) rfl

/-- An illegal word on an idle block (R76). -/
theorem invalidCommand_inv (rest : List CmdWord) {s : State} (hb : s.busy = false) (h : s.Inv) :
    (invalidCommand (takeCommand rest s)).Inv := by
  obtain ⟨hv, -, -, hu⟩ := (inv_iff_of_idle (seq_eq_idle h hb)).1 h
  exact raise_inv (s := takeCommand rest s) _ hv hu

/-- Settles O9: time, the issue of a command and every atomic step of `SEQ` keep the invariant. -/
theorem stepKeepsInvariant : Obligations.StepKeepsInvariant := fun _ _ hs h =>
  step_preserves (P := State.Inv) (fun _ => passTime_inv) (fun _ _ _ hp h => stepsOf_inv hp h)
    (fun _ _ rest i hb _ h => issue_inv rest i hb h) (fun _ _ rest _ hb _ h => invalidCommand_inv rest hb h) hs h

end Sys2Proof.Machine
end

section
/-!
PROOFS. Every step of the model is a run of the atomic steps of 00_scope.md R14. The block (`State.block`) is the state
without the host's queue and the environment's choices; no operation of the block looks at these, so each commutes with
`block`, and what the model does at once is put together from moves.
-/

namespace Sys2Proof.Machine

/-! ## The block goes its way without the queues -/

@[simp] theorem block_cfg (s : State) : s.block.cfg = s.cfg := rfl

/-- The block after a step of a procedure, and where the procedure stands. -/
def onBlock {ρ : Type} (r : State × ρ) : State × ρ := (r.1.block, r.2)

theorem delayStep_block (n : Nat) (d : DelayPos) (s : State) : delayStep n d s.block = onBlock (delayStep n d s) := by
  cases d with
  | latch => rfl
  | poll =>
    simp only [delayStep, apply_ite onBlock]
    rfl

theorem sleepStep_block (d : Word) (p : SleepPos) (s : State) : sleepStep d p s.block = onBlock (sleepStep d p s) := by
  cases p with
  | load => rfl
  | poll =>
    simp only [sleepStep, apply_ite onBlock]
    rfl

theorem waitReadyStep_block (d : Word) (w : WaitPos) (s : State) :
    waitReadyStep d w s.block = onBlock (waitReadyStep d w s) := by
  cases w with
  | check => rfl
  | sleep p => simp only [waitReadyStep, sleepStep_block, onBlock]

theorem shiftInStep_block (o : BitOrder) (p : ShiftPos) (s : State) :
    shiftInStep o p s.block = onBlock (shiftInStep o p s) := by
  rcases p with ⟨b, _ | d | _ | _ | d⟩
  · simp only [shiftInStep]
    split <;> rfl
  · simp only [shiftInStep, delayStep_block, onBlock]
  · rfl
  · rfl
  · simp only [shiftInStep, delayStep_block, onBlock]

theorem pulseStep_block (p : PulsePos) (s : State) : pulseStep p s.block = onBlock (pulseStep p s) := by
  cases p with
  | high => rfl
  | highDelay d => simp only [pulseStep, delayStep_block, onBlock]
  | low => rfl
  | lowDelay d => simp only [pulseStep, delayStep_block, onBlock]

theorem byteOut_block (j : Fin 3) (x : State × ProcOut ShiftPos) : byteOut j (onBlock x) = onBlock (byteOut j x) := by
  rcases x with ⟨s, _ | _ | _⟩
  · rfl
  · rfl
  · simp only [byteOut, onBlock]
    split <;> rfl

theorem readStep_block (r : ReadPos) (s : State) : readStep r s.block = onBlock (readStep r s) := by
  cases r with
  | wait w => simp only [readStep, block_cfg, waitReadyStep_block, onBlock]
  | mask => rfl
  | byte j p =>
    rw [readStep_byte, readStep_byte, ← byteOut_block, ← shiftInStep_block]
    split <;> rfl
  | pulse k count p => simp only [readStep, pulseStep_block, onBlock]
  | unmask => rfl

theorem calling_block {π : Type} (i : Instr) (inside : π → Pos) {after : State → State} (r : State × ProcOut π)
    (hafter : ∀ s : State, after s.block = (after s).block) :
    (calling i inside after (onBlock r)).1 = (calling i inside after r).1.block := by
  rcases r with ⟨s, _ | _ | _⟩
  · rfl
  · rfl
  · exact hafter s

theorem retryTest_block (a d : Word) (s : State) : retryTest a d s.block = (retryTest a d s).block := by
  rw [retryTest, retryTest, apply_ite State.block]
  rfl

theorem averageNext_block {i : Instr} {after : State → State} (hafter : ∀ s : State, after s.block = (after s).block)
    (s : State) : averageNext i after s.block = (averageNext i after s).block := by
  rw [averageNext, averageNext, apply_ite State.block, ← hafter]
  rfl

theorem averageEnd_block (i : Instr) (s : State) : averageEnd i s.block = (averageEnd i s).block := by
  cases i <;> rfl

theorem afterRead_block (i : Instr) (s : State) : afterRead i s.block = (afterRead i s).block := by
  cases i with
  | read => rfl
  | configure g => rfl
  | _ => exact averageNext_block (averageEnd_block _) s

/-- Every atomic step of a command is a step of the block. -/
theorem stepsOf_block {i : Instr} {p : Pos} (hp : posOf i p = true) (s : State) :
    (stepsOf i p s.block).1 = (stepsOf i p s).1.block := by
  cases p with
  | act => cases i <;> rfl
  | delay d =>
    cases i with
    | delayUs n =>
      simp only [stepsOf, delayUsSteps, block_cfg, delayStep_block]
      exact calling_block _ _ _ fun _ => rfl
    | _ => cases hp
  | shift p =>
    cases i with
    | shiftIn o =>
      simp only [stepsOf, shiftInSteps]
      split
      · rw [shiftInStep_block]
        exact calling_block _ _ _ fun _ => rfl
      · rfl
    | _ => cases hp
  | wait w =>
    cases i with
    | waitReady d =>
      simp only [stepsOf, waitReadySteps, waitReadyStep_block]
      exact calling_block _ _ _ fun _ => rfl
    | waitReadyRetry a d =>
      cases w with
      | check =>
        simp only [stepsOf, waitReadyRetrySteps, apply_ite Prod.fst, apply_ite State.block]
        rfl
      | sleep p =>
        simp only [stepsOf, waitReadyRetrySteps, sleepStep_block]
        exact calling_block _ _ _ fun u => retryTest_block a d { u with ctr := u.ctr + 1 }
    | waitReadyTimeout a d =>
      cases w with
      | check =>
        simp only [stepsOf, waitReadyTimeoutSteps, apply_ite Prod.fst, apply_ite State.block]
        rfl
      | sleep p =>
        simp only [stepsOf, waitReadyTimeoutSteps, sleepStep_block]
        exact calling_block _ _ _ fun _ => rfl
    | _ => cases hp
  | timeTest =>
    cases i with
    | waitReadyTimeout a d =>
      simp only [stepsOf, waitReadyTimeoutSteps, apply_ite Prod.fst, apply_ite State.block]
      rfl
    | _ => cases hp
  | read r =>
    have hi := readsFrames_of_posOf hp
    rw [stepsOf_read hi, stepsOf_read hi, readStep_block]
    exact calling_block _ _ _ (afterRead_block i)

theorem argumentCheck_block (legal : Bool) {rest : State → State} (s : State)
    (hrest : rest s.block = (rest s).block) : argumentCheck legal rest s.block = (argumentCheck legal rest s).block := by
  cases legal with
  | true => exact hrest
  | false => rfl

theorem clockCheck_block {rest : State → State} (s : State) (hrest : rest s.block = (rest s).block) :
    clockCheck rest s.block = (clockCheck rest s).block := by
  rw [clockCheck, clockCheck, apply_ite State.block, ← hrest]
  rfl

theorem scaleCheck_block {rest : State → State} (s : State) (hrest : rest s.block = (rest s).block) :
    scaleCheck rest s.block = (scaleCheck rest s).block := by
  rw [scaleCheck, scaleCheck, apply_ite State.block, ← hrest]
  rfl

/-- The entry of a command is performed on the block. -/
theorem entryOf_block (i : Instr) (s : State) : entryOf i s.block = (entryOf i s).block := by
  cases i with
  | clkInit c => exact argumentCheck_block _ s rfl
  | delayUs n => exact clockCheck_block s rfl
  | nowUs => exact clockCheck_block s rfl
  | nowMs => exact clockCheck_block s rfl
  | shiftIn o => exact argumentCheck_block _ s (clockCheck_block s rfl)
  | configure g => exact argumentCheck_block _ s (clockCheck_block s rfl)
  | isReady => rfl
  | waitReady d => rfl
  | waitReadyRetry a d => exact retryTest_block a d { s with ctr := 0 }
  | waitReadyTimeout a d => exact clockCheck_block s rfl
  | read => exact clockCheck_block s rfl
  | powerDown => rfl
  | powerUp => rfl
  | readAverage n => exact argumentCheck_block _ s (clockCheck_block s rfl)
  | getValue n => exact argumentCheck_block _ s (clockCheck_block s rfl)
  | getUnits n => exact argumentCheck_block _ s (clockCheck_block s (scaleCheck_block s rfl))
  | tare n => exact argumentCheck_block _ s (clockCheck_block s rfl)
  | setScale a b => rfl
  | getScale => rfl
  | setOffset v => rfl
  | getOffset => rfl

/-! ## Moves -/

theorem performAll_append (ms ms' : List Move) (s : State) :
    performAll (ms ++ ms') s = (performAll ms s).bind (performAll ms') := by
  induction ms generalizing s with
  | nil => rfl
  | cons m ms ih =>
    simp only [List.cons_append, performAll]
    cases perform m s with
    | none => rfl
    | some u => exact ih u

/-- Some atomic steps, each enabled where it is made, lead the block from `s` to `t`. -/
def Reaches (s t : State) : Prop := ∃ moves, performAll moves s.block = some t.block

theorem Reaches.refl (s : State) : Reaches s s := ⟨[], rfl⟩

theorem Reaches.trans {s t u : State} (h : Reaches s t) (h' : Reaches t u) : Reaches s u := by
  obtain ⟨ms, hms⟩ := h
  obtain ⟨ms', hms'⟩ := h'
  exact ⟨ms ++ ms', by rw [performAll_append, hms]; exact hms'⟩

theorem Reaches.of_perform {s t : State} {m : Move} (h : perform m s.block = some t.block) : Reaches s t :=
  ⟨[m], by simp only [performAll, h]; rfl⟩

/-- A tick the bound of R15 allows. -/
theorem perform_tick {s : State} (h : s.inMaskedPulse = true → s.pulseTicks + 1 ≤ s.cfg.tHighMax) :
    perform .tick s = some (tick s) := by
  refine if_neg fun hc => ?_
  obtain ⟨hm, hp⟩ := Bool.and_eq_true_iff.1 hc
  have hp := of_decide_eq_true hp
  have := h hm
  omega

/-- Ticks in a row, all of which together the bound of R15 allows. -/
theorem performAll_ticks (m : Nat) (s : State) (h : s.inMaskedPulse = true → s.pulseTicks + m ≤ s.cfg.tHighMax) :
    performAll (List.replicate m .tick) s = some (tick^[m] s) := by
  induction m generalizing s with
  | zero => rfl
  | succ m ih =>
    have hmasked : (tick s).inMaskedPulse = s.inMaskedPulse := by rw [tick_eq_elapse, elapse_inMaskedPulse]
    have hfirst := perform_tick fun hm => (Nat.add_le_add_left (by omega) _).trans (h hm)
    have hrest := ih (tick s) fun hm => by
      have hm := hmasked ▸ hm
      have hticks : (tick s).pulseTicks = s.pulseTicks + 1 := if_pos hm
      have := h hm
      rw [hticks]
      show _ ≤ s.cfg.tHighMax
      omega
    rw [List.replicate_succ, performAll, hfirst, Function.iterate_succ_apply]
    exact hrest

/-- The time before a step of `SEQ` is a number of ticks, and a level the chip drives (R14, R15). -/
theorem reaches_passTime {s : State} (h : s.Inv) : Reaches s (passTime s) := by
  obtain ⟨m, hm⟩ : ∃ m, m = s.allowedTicks (s.drawAt 0).ticks := ⟨_, rfl⟩
  have hticks : performAll (List.replicate m .tick) s.block = some (elapse m s.block) := by
    rw [performAll_ticks m s.block fun hp => hm ▸ (allowedTicks_of_masked s _ hp (h.pulse hp)).2,
      elapseIsRepeatedTick m s.block h.widths.counterWidth]
  refine ⟨List.replicate m .tick ++ [.chipDrive (s.drawAt 0).dout], ?_⟩
  rw [performAll_append, hticks, hm]
  rfl

/-- A step of `SEQ` of the command in progress. -/
theorem reaches_seqStep {s : State} {i : Instr} {p : Pos} (h : s.Inv) (hs : s.seq = .run i p) :
    Reaches s (stepsOf i p s).1 := by
  obtain ⟨⟨-, hb, -⟩, hp, -⟩ := (inv_iff_of_running hs).1 h
  have hb : s.block.busy = true := hb
  have hs : s.block.seq = .run i p := hs
  exact Reaches.of_perform (m := .seqStep) (by simp only [perform, hb, hs, stepsOf_block hp])

/-- The issue of a command on an idle block. -/
theorem reaches_issue {s : State} {w : CmdWord} {i : Instr} (rest : List CmdWord) (hb : s.busy = false)
    (hw : decode w = .ok i) : Reaches s (entryOf i (hostIssue i (takeCommand rest s))) := by
  have hb : s.block.busy = false := hb
  have hentry := entryOf_block i (hostIssue i (takeCommand rest s))
  exact Reaches.of_perform (m := .hostIssue w) (by simp only [perform, hb, hw]; exact congrArg some hentry)

/-- An illegal word given to an idle block (R76). -/
theorem reaches_invalidCommand {s : State} {w : CmdWord} {e : DecodeError} (rest : List CmdWord) (hb : s.busy = false)
    (hw : decode w = .error e) : Reaches s (invalidCommand (takeCommand rest s)) := by
  have hb : s.block.busy = false := hb
  exact Reaches.of_perform (m := .hostIssue w) (by simp only [perform, hb, hw]; rfl)

/-- Settles O12: the states a step goes through meet the invariant, and the block reaches each of them by moves. -/
theorem stepIsARunOfAtomicSteps : Obligations.StepIsARunOfAtomicSteps := fun s _ hs h =>
  (step_preserves (P := fun u => u.Inv ∧ Reaches s u)
    (fun _ ⟨hu, hr⟩ => ⟨passTime_inv hu, hr.trans (reaches_passTime hu)⟩)
    (fun _ _ _ hp ⟨hu, hr⟩ => ⟨stepsOf_inv hp hu, hr.trans (reaches_seqStep hu hp)⟩)
    (fun _ _ rest i hb hw ⟨hu, hr⟩ => ⟨issue_inv rest i hb hu, hr.trans (reaches_issue rest hb hw)⟩)
    (fun _ _ rest _ hb hw ⟨hu, hr⟩ => ⟨invalidCommand_inv rest hb hu, hr.trans (reaches_invalidCommand rest hb hw)⟩)
    ⟨hs, Reaches.refl s⟩ h).2

end Sys2Proof.Machine
end

section
/-!
PROOFS. What a command leaves alone (10_state.md R20 to R36): each register is written by the commands the spec names,
and the counters move by time alone (R30, R46).
-/

namespace Sys2Proof.Machine

/-! ## The run of a command -/

/-- What time and the steps of a command keep, and its issue brings about on an idle block, holds when it answers. -/
theorem exec_preserves {P : State → Prop} {i : Instr} {s t : State} (time : ∀ u, P u → P (passTime u))
    (steps : ∀ u p, u.seq = .run i p → P u → P (stepsOf i p u).1)
    (issue : s.busy = false → P (entryOf i (hostIssue i s))) (resume : s.busy = true → P s)
    (h : exec i s = .next t) : P t := by
  rcases exec_next_cases i s t h with ⟨hb, rfl⟩ | ⟨hb, p, hs, -, rfl⟩
  · exact (runSteps_of_course i time steps _ _ (issue hb) (entry_seq i s)).1
  · exact (runSteps_of_course i time steps _ _ (resume hb) (.inr ⟨p, hs⟩)).1

/-! ## Registers and their writers -/

/-- What depends on nothing an entry writes, an entry keeps. -/
theorem entry_keeps_unwritten {α : Type} (f : State → α) (i : Instr) (s : State)
    (hf : ∀ (u : State) q st x r a c b,
      f { u with seq := q, status := st, sel := x, res := r, acc := a, ctr := c, byt := b } = f u := by
        intros; rfl) :
    f (entryOf i (hostIssue i s)) = f s :=
  entry_keeps f (fun u q st => hf u q st u.sel u.res u.acc u.ctr u.byt) i s
    (fun _ _ u x => hf u u.seq u.status x u.res u.acc u.ctr u.byt)
    (fun _ u x => hf u u.seq u.status u.sel x u.acc u.ctr u.byt)
    (fun _ u x y => hf u u.seq u.status u.sel u.res x y u.byt)
    (fun _ _ _ u x => hf u u.seq u.status u.sel u.res u.acc x u.byt)
    (fun _ _ u x => hf u u.seq u.status u.sel u.res u.acc u.ctr x)

/-- A field that no entry and not time writes, and that the steps of the command leave alone. -/
theorem exec_keeps_unwritten {α : Type} (f : State → α) {i : Instr} {s t : State} (h : exec i s = .next t)
    (hs : ∀ p u, f (stepsOf i p u).1 = f u)
    (hf : ∀ (u : State) q st x r a c b,
      f { u with seq := q, status := st, sel := x, res := r, acc := a, ctr := c, byt := b } = f u := by
        intros; rfl)
    (ht : ∀ u, f (passTime u) = f u := by intros; rfl) : f t = f s :=
  exec_keeps f ht (entry_keeps_unwritten f i s hf) hs h

section
variable {i : Instr} {s t : State} (h : exec i s = .next t)
include h

theorem exec_cfg : t.cfg = s.cfg :=
  exec_keeps_unwritten State.cfg h fun p u => (stepsOf_frame i p u).cfg

theorem exec_program : t.program = s.program :=
  exec_keeps_unwritten State.program h fun p u => (stepsOf_frame i p u).program

/-- `SEL` is written by the entry of `CONFIGURE` (R32, R106). -/
theorem exec_sel (hi : ∀ g, i ≠ .configure g) : t.sel = s.sel :=
  exec_keeps State.sel (fun _ => rfl)
    (entry_keeps State.sel (fun _ _ _ => rfl) i s (fun g e => absurd e (hi g)) (fun _ _ _ => rfl) (fun _ _ _ _ => rfl)
      (fun _ _ _ _ _ => rfl) (fun _ _ _ _ => rfl))
    (fun p u => (stepsOf_frame i p u).sel) h

/-- `BOUND` and `CSEL` are written by `CLK_INIT` (R31, R88). -/
theorem exec_bound (hi : ∀ c, i ≠ .clkInit c) : t.bound = s.bound :=
  exec_keeps_unwritten State.bound h fun p u => ((stepsOf_frame i p u).bound hi).1

theorem exec_csel (hi : ∀ c, i ≠ .clkInit c) : t.csel = s.csel :=
  exec_keeps_unwritten State.csel h fun p u => ((stepsOf_frame i p u).bound hi).2

/-- `OFFSET` is written by `SET_OFFSET` and `TARE` (R33, R121, R124). -/
theorem exec_offset (hset : ∀ v, i ≠ .setOffset v) (htare : ∀ n, i ≠ .tare n) : t.offset = s.offset :=
  exec_keeps_unwritten State.offset h fun p u => (stepsOf_frame i p u).offset hset htare

/-- `SCALE` is written by `SET_SCALE` (R34, R122). -/
theorem exec_scale (hi : ∀ a b, i ≠ .setScale a b) : t.scale = s.scale :=
  exec_keeps_unwritten State.scale h fun p u => (stepsOf_frame i p u).scale hi

/-- `RES` is written by the commands that return a value (R22). -/
theorem exec_res (hi : returnsValue i = false) : t.res = s.res :=
  exec_keeps State.res (fun _ => rfl)
    (entry_keeps State.res (fun _ _ _ => rfl) i s (fun _ _ _ _ => rfl)
      (fun hr => of_true_eq_false (hr.symm.trans hi)) (fun _ _ _ _ => rfl) (fun _ _ _ _ _ => rfl) (fun _ _ _ _ => rfl))
    (fun p u => (stepsOf_frame i p u).res hi) h

/-- `SHR` is written by the commands that read a frame (R20). -/
theorem exec_shr (hi : readsFrames i = false) : t.shr = s.shr :=
  exec_keeps_unwritten State.shr h fun p u => ((stepsOf_frame i p u).frames hi).1

/-- `IE` is written by the commands that read a frame (R35). -/
theorem exec_ie (hi : readsFrames i = false) : t.ie = s.ie :=
  exec_keeps_unwritten State.ie h fun p u => ((stepsOf_frame i p u).frames hi).2.1

theorem exec_sampleSel (hi : readsFrames i = false) : t.sampleSel = s.sampleSel :=
  exec_keeps_unwritten State.sampleSel h fun p u => ((stepsOf_frame i p u).frames hi).2.2

/-- `BYT` is written by the commands that read a frame, and by `SHIFT_IN`, which clears it on entry (R21). -/
theorem exec_byt (hi : readsFrames i = false) (hshift : ∀ o, i ≠ .shiftIn o) : t.byt = s.byt :=
  exec_keeps State.byt (fun _ => rfl)
    (entry_keeps State.byt (fun _ _ _ => rfl) i s (fun _ _ _ _ => rfl) (fun _ _ _ => rfl) (fun _ _ _ _ => rfl)
      (fun _ _ _ _ _ => rfl) (fun o e => absurd e (hshift o)))
    (fun p u => (stepsOf_frame i p u).byt hi hshift) h

/-- `ACC` is written by the averaging commands (R23). -/
theorem exec_acc (hi : averagingCount i = none) : t.acc = s.acc :=
  exec_keeps State.acc (fun _ => rfl)
    (entry_keeps State.acc (fun _ _ _ => rfl) i s (fun _ _ _ _ => rfl) (fun _ _ _ => rfl) (fun hn => absurd hi hn)
      (fun _ _ _ _ _ => rfl) (fun _ _ _ _ => rfl))
    (fun p u => (stepsOf_frame i p u).acc hi) h

/-- `CTR` is written by the averaging commands and `WAIT_READY_RETRY` (R26). -/
theorem exec_ctr (hi : averagingCount i = none) (hretry : ∀ a d, i ≠ .waitReadyRetry a d) : t.ctr = s.ctr :=
  exec_keeps State.ctr (fun _ => rfl)
    (entry_keeps State.ctr (fun _ _ _ => rfl) i s (fun _ _ _ _ => rfl) (fun _ _ _ => rfl) (fun hn => absurd hi hn)
      (fun a d e => absurd e (hretry a d)) (fun _ _ _ _ => rfl))
    (fun p u => (stepsOf_frame i p u).ctr hi hretry) h

/-- `T0` is written by the commands that delay (R24). -/
theorem exec_t0 (hi : delays i = false) : t.t0 = s.t0 :=
  exec_keeps_unwritten State.t0 h fun p u => (stepsOf_frame i p u).t0 hi

/-- `TS` is written by `WAIT_READY_TIMEOUT` (R25). -/
theorem exec_ts (hi : ∀ a d, i ≠ .waitReadyTimeout a d) : t.ts = s.ts :=
  exec_keeps_unwritten State.ts h fun p u => (stepsOf_frame i p u).ts hi

/-- `SCK` is written by the commands that drive it (R36). -/
theorem exec_sck (hi : drivesClock i = false) : t.sck = s.sck :=
  exec_keeps_unwritten State.sck h fun p u => (stepsOf_frame i p u).sck hi

/-- No pin event is taken back (R59). -/
theorem exec_wire : s.wire <:+ t.wire := by
  have hissue : (entryOf i (hostIssue i s)).wire = s.wire :=
    entry_keeps_unwritten State.wire i s
  exact exec_preserves (P := fun u => s.wire <:+ u.wire) (fun _ hu => hu)
    (fun u p _ hu => hu.trans (stepsOf_frame i p u).wire) (fun _ => hissue ▸ List.suffix_rfl)
    (fun _ => List.suffix_rfl) h

end

/-- Settles O56, register by register. -/
theorem controlRegistersHaveTheirWriters : Obligations.ControlRegistersHaveTheirWriters := fun _ _ _ h =>
  ⟨exec_sel h, fun hi => ⟨exec_bound h hi, exec_csel h hi⟩, exec_offset h, exec_scale h, exec_cfg h, exec_program h⟩

/-- Settles O57, register by register. -/
theorem workingRegistersHaveTheirWriters : Obligations.WorkingRegistersHaveTheirWriters := fun _ _ _ h =>
  ⟨exec_res h, fun hi => ⟨exec_shr h hi, exec_ie h hi, exec_sampleSel h hi⟩, exec_byt h, exec_acc h, exec_ctr h,
    exec_t0 h, exec_ts h, exec_sck h, exec_wire h⟩

/-! ## The counters -/

theorem entry_ctrs (i : Instr) (s : State) : (entryOf i (hostIssue i s)).ctrs = s.ctrs :=
  entry_keeps_unwritten State.ctrs i s

theorem entry_slp (i : Instr) (s : State) : (entryOf i (hostIssue i s)).slp = s.slp :=
  entry_keeps_unwritten State.slp i s

theorem entry_cfg (i : Instr) (s : State) : (entryOf i (hostIssue i s)).cfg = s.cfg :=
  entry_keeps_unwritten State.cfg i s

/-- From `s` to `t` some number of ticks have passed, and nothing else has moved a counter; where nothing loads `SLP`, it
has counted down by as many (R30, R46). -/
def Ticked (loadsSleep : Bool) (s t : State) : Prop :=
  t.cfg = s.cfg ∧ ∃ m, t.ctrs = s.ctrs.map (fun c => addMod s.cfg.cw c m) ∧
    (loadsSleep = false → t.slp.toNat = s.slp.toNat - m)

/-- No tick leaves counters that fit their width as they were. -/
theorem Ticked.of_eq {b : Bool} {s t : State} (hs : ∀ c ∈ s.ctrs, c < 2 ^ s.cfg.cw) (hcfg : t.cfg = s.cfg)
    (hctrs : t.ctrs = s.ctrs) (hslp : t.slp = s.slp) : Ticked b s t := by
  have hmap : s.ctrs.map (fun c => addMod s.cfg.cw c 0) = s.ctrs := congrArg State.ctrs (elapse_zero s hs)
  exact ⟨hcfg, 0, hctrs.trans hmap.symm, fun _ => by rw [hslp]; rfl⟩

theorem Ticked.passTime {b : Bool} {s t : State} (h : Ticked b s t) : Ticked b s (passTime t) := by
  obtain ⟨hcfg, m, hctrs, hslp⟩ := h
  refine ⟨hcfg, m + t.allowedTicks (t.drawAt 0).ticks, ?_, fun hb => ?_⟩
  · simp only [passTime_fields, hctrs, hcfg, List.map_map, Function.comp_def, addMod_addMod]
  · have := t.slp.isLt
    have := hslp hb
    simp only [passTime_fields, BitVec.toNat_ofNat]
    omega

/-- A step of a command moves no counter, and `SLP` only where the command sleeps. -/
theorem Ticked.step {i : Instr} {s t : State} (h : Ticked (sleeps i) s t) (p : Pos) :
    Ticked (sleeps i) s (stepsOf i p t).1 := by
  obtain ⟨hcfg, m, hctrs, hslp⟩ := h
  have hf := stepsOf_frame i p t
  exact ⟨hf.cfg.trans hcfg, m, hf.ctrs.trans hctrs, fun hb => (congrArg BitVec.toNat (hf.slp hb)).trans (hslp hb)⟩

/-- A command is its entry and its steps, and of those only time moves a counter. -/
theorem exec_ticked {i : Instr} {s t : State} (hs : ∀ c ∈ s.ctrs, c < 2 ^ s.cfg.cw) (h : exec i s = .next t) :
    Ticked (sleeps i) s t :=
  exec_preserves (P := Ticked (sleeps i) s) (fun _ => Ticked.passTime) (fun _ p _ hu => hu.step p)
    (fun _ => .of_eq hs (entry_cfg i s) (entry_ctrs i s) (entry_slp i s)) (fun _ => .of_eq hs rfl rfl rfl) h

/-- Settles O16. -/
theorem onlyTimeMovesCounters : Obligations.OnlyTimeMovesCounters :=
  ⟨exec_eq_runCommand, fun i s => ⟨entry_ctrs i s, entry_slp i s⟩,
    fun i p s => ⟨(stepsOf_frame i p s).ctrs, (stepsOf_frame i p s).slp⟩, fun _ _ _ hs h => (exec_ticked hs h).2⟩

end Sys2Proof.Machine
end

section
/-!
PROOFS. The lines when a command ends (10_state.md R43, 41_shift.md R94, 42_reader.md R103, R107, R108): `IE` is 1, and
`SCK` stands where the command's last step leaves it.
-/

namespace Sys2Proof.Machine

/-! ## What a command's issue can do -/

/-- A command issued on an idle block, its tests made (R14). -/
theorem entry_inv (i : Instr) {s : State} (h : s.Inv) (hb : s.busy = false) : (entryOf i (hostIssue i s)).Inv :=
  entryOf_inv (hostIssue_issued i h (seq_eq_idle h hb)) rfl

/-- A command answers a state that meets the invariant, where it was given one. -/
theorem exec_inv {i : Instr} {s t : State} (hs : s.Inv) (h : exec i s = .next t) : t.Inv :=
  exec_preserves (P := State.Inv) (fun _ => passTime_inv) (fun _ _ hp hu => stepsOf_inv hp hu) (entry_inv i hs)
    (fun _ => hs) h

/-- A command that has ended before its first step was refused (R130). -/
def EndsRefused (s : State) : Prop := s.seq = .idle → s.faultField ≠ 0

theorem raise_endsRefused (f : FaultCode) (s : State) : EndsRefused (raise f s) := fun _ => by
  rw [raise_faultField]
  cases f <;> decide

theorem endsRefused_of_running {s : State} {i : Instr} {p : Pos} (h : s.seq = .run i p) : EndsRefused s :=
  fun hs => Seq.noConfusion (hs.symm.trans h)

theorem argumentCheck_endsRefused (legal : Bool) {rest : State → State} {s : State} (h : EndsRefused (rest s)) :
    EndsRefused (argumentCheck legal rest s) := by
  cases legal with
  | true => exact h
  | false => exact raise_endsRefused _ s

theorem clockCheck_endsRefused {rest : State → State} {s : State} (h : EndsRefused (rest s)) :
    EndsRefused (clockCheck rest s) := by
  simp only [clockCheck]
  split
  · exact h
  · exact raise_endsRefused _ s

theorem scaleCheck_endsRefused {rest : State → State} {s : State} (h : EndsRefused (rest s)) :
    EndsRefused (scaleCheck rest s) := by
  simp only [scaleCheck]
  split
  · exact raise_endsRefused _ s
  · exact h

/-- A command that drives `SCK` has a step to make, unless it is refused. -/
theorem entry_endsRefused {i : Instr} (hi : drivesClock i = true) (s : State) :
    EndsRefused (entryOf i (hostIssue i s)) := by
  have hact : EndsRefused (hostIssue i s) := endsRefused_of_running rfl
  cases i with
  | shiftIn o => exact argumentCheck_endsRefused _ (clockCheck_endsRefused (endsRefused_of_running rfl))
  | configure g =>
    exact argumentCheck_endsRefused _ (clockCheck_endsRefused (endsRefused_of_running (s := selectGain g _) rfl))
  | read => exact clockCheck_endsRefused (endsRefused_of_running rfl)
  | powerDown => exact hact
  | powerUp => exact hact
  | readAverage n => exact argumentCheck_endsRefused _ (clockCheck_endsRefused (endsRefused_of_running rfl))
  | getValue n => exact argumentCheck_endsRefused _ (clockCheck_endsRefused (endsRefused_of_running rfl))
  | getUnits n =>
    exact argumentCheck_endsRefused _ (clockCheck_endsRefused (scaleCheck_endsRefused (endsRefused_of_running rfl)))
  | tare n => exact argumentCheck_endsRefused _ (clockCheck_endsRefused (endsRefused_of_running rfl))
  | _ => cases hi

/-! ## The step that ends a command -/

/-- No step of an accepted command brings a fault (R130). -/
theorem stepsOf_faultField {i : Instr} {p : Pos} {s : State} (hs : s.seq = .run i p) (h : s.Inv) :
    (stepsOf i p s).1.faultField = 0 := by
  obtain ⟨⟨-, -, hfault, -⟩, -⟩ := (inv_iff_of_running hs).1 h
  rcases stepsOf_course i p s hs with ⟨-, e⟩ | ⟨-, e⟩
  · rw [State.faultField, e]; exact hfault
  · rw [State.faultField, e]; exact statusWord_fault 0 false

/-- A command that calls a procedure ends with the procedure's last step. -/
theorem calling_idle {π : Type} {i : Instr} {inside : π → Pos} {after : State → State} {r : State × ProcOut π}
    (h : (calling i inside after r).1.seq = .idle) : r.2 = .done ∧ (calling i inside after r).1 = after r.1 := by
  rcases r with ⟨u, p | p | _⟩
  · cases h
  · cases h
  · exact ⟨rfl, rfl⟩

/-- A `Read` ends with `IE <- 1`, its last step (R103). -/
theorem readStep_done {r : ReadPos} {s : State} (h : (readStep r s).2 = .done) : r = .unmask := by
  cases r with
  | wait w =>
    change (waitReadyStep s.cfg.readPollDelay w s).2.within ReadPos.wait (.at_ .mask) = .done at h
    cases hw : (waitReadyStep s.cfg.readPollDelay w s).2 <;> rw [hw] at h <;> cases h
  | mask => cases h
  | byte j p =>
    rw [readStep_byte] at h
    revert h
    rcases shiftInStep _ p _ with ⟨u, q | q | _⟩
    · exact nofun
    · exact nofun
    · simp only [byteOut]
      split <;> exact nofun
  | pulse k count p =>
    change (pulseStep p s).2.within (ReadPos.pulse k count) _ = .done at h
    cases hp : (pulseStep p s).2 <;> rw [hp] at h
    · cases h
    · cases h
    · simp only [ProcOut.within] at h
      split at h <;> cases h
  | unmask => rfl

/-- What follows the last step of a `Read` leaves `SCK` alone. -/
theorem afterRead_sck (i : Instr) (s : State) : (afterRead i s).sck = s.sck := by
  have hend : ∀ j u, (averageEnd j u).sck = u.sck := fun j u => by cases j <;> rfl
  have hnext : ∀ j, (averageNext j (averageEnd j) s).sck = s.sck := fun j => by
    simp only [averageNext]
    split
    · exact hend j _
    · rfl
  cases i <;> first | rfl | exact hnext _

/-- The clock after the last step of a `Read` (R93, R103). -/
theorem read_end_sck {i : Instr} {r : ReadPos} {s : State} (hi : readsFrames i = true)
    (hl : LinesAt (.run i (.read r)) s) (hend : (stepsOf i (.read r) s).1.seq = .idle) :
    (stepsOf i (.read r) s).1.sck = false := by
  rw [stepsOf_read hi] at hend ⊢
  obtain ⟨hdone, e⟩ := calling_idle hend
  obtain rfl := readStep_done hdone
  obtain ⟨-, hsck, -⟩ := linesAt_unmask_iff.1 hl
  rw [e, afterRead_sck]
  exact hsck

/-- The clock after the last step of `SHIFT_IN` (R94). -/
theorem shift_end_sck {o : Word} {p : ShiftPos} {s : State} (hs : s.seq = .run (.shiftIn o) (.shift p))
    (hl : LinesAt (.run (.shiftIn o) (.shift p)) s) (hend : (stepsOf (.shiftIn o) (.shift p) s).1.seq = .idle) :
    (stepsOf (.shiftIn o) (.shift p) s).1.sck = false := by
  obtain ⟨-, -, hline, -⟩ := hl
  simp only [stepsOf, shiftInSteps] at hend ⊢
  split at hend
  · rename_i order _
    obtain ⟨hdone, e⟩ := calling_idle hend
    have hlow := shiftInStep_line order p s fun hp => hline _ (bitLine_of_ne_high hp)
    rw [hdone] at hlow
    rw [e]
    exact hlow
  · exact Seq.noConfusion (hend.symm.trans hs)

/-- Where the last step of a command that drives `SCK` leaves the line (R94, R103, R107, R108). -/
theorem stepsOf_end_sck {i : Instr} {p : Pos} {s : State} (hs : s.seq = .run i p) (h : s.Inv)
    (hi : drivesClock i = true) (hend : (stepsOf i p s).1.seq = .idle) :
    (stepsOf i p s).1.sck = decide (i = .powerDown) := by
  obtain ⟨-, hp, hl⟩ := (inv_iff_of_running hs).1 h
  cases p with
  | act =>
    cases i with
    | configure g => cases hend
    | powerDown => rfl
    | powerUp => rfl
    | _ => first | exact of_true_eq_false hi.symm | exact of_true_eq_false hp.symm
  | shift p =>
    cases i with
    | shiftIn o => exact shift_end_sck hs hl hend
    | _ => cases hp
  | read r =>
    have hr := readsFrames_of_posOf hp
    rw [read_end_sck hr hl hend, decide_eq_false]
    rintro rfl
    cases hr
  | _ => cases i <;> first | exact of_true_eq_false hi.symm | exact of_true_eq_false hp.symm

/-! ## The end of a command -/

/-- How a run of `i` that began in `s` leaves `SCK`: as it was, where it ended with a fault, and where its last step put
it, where it ended without one. -/
def LineKept (i : Instr) (s t : State) : Prop :=
  (t.faultField ≠ 0 → t.sck = s.sck) ∧
    (drivesClock i = true → t.seq = .idle → t.faultField = 0 → t.sck = decide (i = .powerDown))

theorem LineKept.step {i : Instr} {p : Pos} {s t : State} (hp : t.seq = .run i p) (h : t.Inv) :
    LineKept i s (stepsOf i p t).1 :=
  ⟨fun hf => absurd (stepsOf_faultField hp h) hf, fun hi hend _ => stepsOf_end_sck hp h hi hend⟩

theorem LineKept.issue (i : Instr) (s : State) : LineKept i s (entryOf i (hostIssue i s)) :=
  ⟨fun _ => entry_keeps_unwritten State.sck i s,
    fun hi hend hf => absurd hf (entry_endsRefused hi s hend)⟩

theorem LineKept.resume (i : Instr) {s : State} (h : s.Inv) (hb : s.busy = true) : LineKept i s s := by
  refine ⟨fun _ => rfl, fun _ hs => ?_⟩
  obtain ⟨-, hidle, -⟩ := (inv_iff_of_idle hs).1 h
  exact Bool.noConfusion (hidle.symm.trans hb)

theorem exec_lineKept {i : Instr} {s t : State} (hs : s.Inv) (h : exec i s = .next t) : LineKept i s t :=
  (exec_preserves (P := fun u => u.Inv ∧ LineKept i s u) (fun _ ⟨hu, hl⟩ => ⟨passTime_inv hu, hl⟩)
    (fun _ _ hp ⟨hu, _⟩ => ⟨stepsOf_inv hp hu, .step hp hu⟩) (fun hb => ⟨entry_inv i hs hb, .issue i s⟩)
    (fun hb => ⟨hs, .resume i hs hb⟩) h).2

/-- Settles O58: an idle block that meets the invariant masks nothing, and `SCK` follows the run. -/
theorem linesWhenACommandEnds : Obligations.LinesWhenACommandEnds := by
  intro i s t hs h hend
  obtain ⟨-, -, -, hie, -⟩ := (inv_iff_of_idle hend).1 (exec_inv hs h)
  obtain ⟨hfault, hdriven⟩ := exec_lineKept hs h
  exact ⟨hie, exec_sck h, hfault, fun hi => hdriven hi hend⟩

end Sys2Proof.Machine
end

section
/-!
PROOFS. The accumulator's bound (10_state.md R23, 43_calibration.md R113): a sample is at most `2^23` in magnitude, an
averaging command adds one for each read it counts down, and so `ACC` keeps to `2^23` for each read done.
-/

namespace Sys2Proof.Machine

/-! ## The bound -/

/-- Of `n` reads, `CTR` are still to be made, one at least, and `ACC` keeps to the bound for the others (R23, R26). -/
def AccBound (n : Word) (s : State) : Prop :=
  0 < s.ctr.toNat ∧ s.ctr.toNat ≤ n.toNat ∧ s.acc.toInt.natAbs ≤ (n.toNat - s.ctr.toNat) * 2 ^ 23

theorem accOk_of_idle {s : State} (hs : s.seq = .idle) : s.AccOk := by
  simp [State.AccOk, hs]

theorem accOk_of_not_averaging {i : Instr} {p : Pos} {s : State} (hs : s.seq = .run i p)
    (hi : averagingCount i = none) : s.AccOk := by
  cases p <;> simp [State.AccOk, hs, hi]

theorem accOk_iff_of_averaging {i : Instr} {n : Word} {r : ReadPos} {s : State} (hs : s.seq = .run i (.read r))
    (hi : averagingCount i = some n) : s.AccOk ↔ AccBound n s := by
  simp [State.AccOk, hs, hi, AccBound]

/-- The bound speaks of `SEQ`, `ACC` and `CTR` alone. -/
theorem accOk_congr {s t : State} (hseq : t.seq = s.seq) (hacc : t.acc = s.acc) (hctr : t.ctr = s.ctr) :
    t.AccOk ↔ s.AccOk := by
  simp only [State.AccOk, hseq, hacc, hctr]

/-- One more sample, after `k`: the sum does not leave the 64 bits (R23, R69). -/
theorem accumulate_bound {p : Params} (hx : 24 ≤ p.xw) (acc : BitVec 64) (w : SampleWord) {k : Nat} (hk : k < 2 ^ 32)
    (hacc : acc.toInt.natAbs ≤ k * 2 ^ 23) : (accumulate p acc (sampleOf p w)).toInt.natAbs ≤ (k + 1) * 2 ^ 23 := by
  have hw := toInt24 w
  have hw64 : (BitVec.ofInt 64 w.toInt).toInt = w.toInt := by
    rw [BitVec.toInt_ofInt]
    exact Int.bmod_eq_of_le (by omega) (by omega)
  have hsum : (accumulate p acc (sampleOf p w)).toInt = acc.toInt + w.toInt := by
    rw [accumulate, sampleOf_value p hx, BitVec.toInt_add, hw64]
    exact Int.bmod_eq_of_le (by omega) (by omega)
  omega

/-! ## The steps -/

/-- Every position of an averaging command is inside a read (R113). -/
theorem read_of_averaging {i : Instr} {n : Word} {p : Pos} (hi : averagingCount i = some n) (hp : posOf i p = true) :
    ∃ r, p = .read r := by
  cases p with
  | read r => exact ⟨r, rfl⟩
  | _ => cases i <;> first | exact of_true_eq_false hp.symm | cases hi

theorem averageEnd_seq {i : Instr} {n : Word} (hi : averagingCount i = some n) (s : State) :
    (averageEnd i s).seq = .idle := by
  cases i <;> first | rfl | cases hi

theorem afterRead_of_averaging {i : Instr} {n : Word} (hi : averagingCount i = some n) (s : State) :
    afterRead i s = averageNext i (averageEnd i) s := by
  cases i <;> first | rfl | cases hi

/-- The sum and the count after a read: the command ends, or as many reads are left as the bound has it (R113). -/
theorem averageNext_accOk {i : Instr} {n : Word} {s : State} (hi : averagingCount i = some n) (hx : 24 ≤ s.cfg.xw)
    (h : AccBound n s) : (averageNext i (averageEnd i) s).AccOk := by
  obtain ⟨hpos, hle, hacc⟩ := h
  have hn := n.isLt
  simp only [averageNext]
  split
  · exact accOk_of_idle (averageEnd_seq hi _)
  · rename_i hne
    have hctr : (s.ctr - 1).toNat = s.ctr.toNat - 1 := by bv_omega
    have hleft : (s.ctr - 1).toNat ≠ 0 := fun h0 => hne (BitVec.eq_of_toNat_eq h0)
    have hsum := accumulate_bound hx s.acc s.shr (by omega) hacc
    refine (accOk_iff_of_averaging rfl hi).2 ⟨Nat.pos_of_ne_zero hleft, ?_, ?_⟩
    · show (s.ctr - 1).toNat ≤ n.toNat
      omega
    · show (accumulate s.cfg s.acc (sampleOf s.cfg s.shr)).toInt.natAbs ≤ (n.toNat - (s.ctr - 1).toNat) * 2 ^ 23
      rwa [hctr, show n.toNat - (s.ctr.toNat - 1) = n.toNat - s.ctr.toNat + 1 by omega]

/-- A step inside a read of an averaging command: no step of a read writes `ACC` or `CTR`, and what follows its last one
keeps the bound. -/
theorem read_step_accOk {i : Instr} {n : Word} {r : ReadPos} {s : State} (hi : averagingCount i = some n)
    (hx : 24 ≤ s.cfg.xw) (h : AccBound n s) : (stepsOf i (.read r) s).1.AccOk := by
  obtain ⟨-, -, hr⟩ := stepsOf_averaging hi
  rw [stepsOf_read hr]
  have hf := readStep_frame r s
  have hbound : AccBound n (readStep r s).1 := by simpa only [AccBound, hf.acc, hf.ctr] using h
  have hxw : 24 ≤ (readStep r s).1.cfg.xw := hf.cfg ▸ hx
  generalize readStep r s = x at hbound hxw
  rcases x with ⟨u, q | q | _⟩
  · exact (accOk_iff_of_averaging rfl hi).2 hbound
  · exact (accOk_iff_of_averaging rfl hi).2 hbound
  · show (afterRead i u).AccOk
    rw [afterRead_of_averaging hi]
    exact averageNext_accOk hi hxw hbound

/-- Every atomic step keeps the bound. -/
theorem stepsOf_accOk {i : Instr} {p : Pos} {s : State} (hs : s.seq = .run i p) (h : s.Inv) (ha : s.AccOk) :
    (stepsOf i p s).1.AccOk := by
  cases hi : averagingCount i with
  | none =>
    rcases stepsOf_course i p s hs with ⟨⟨q, hq⟩, -⟩ | ⟨hq, -⟩
    · exact accOk_of_not_averaging hq hi
    · exact accOk_of_idle hq
  | some n =>
    obtain ⟨-, hp, -⟩ := (inv_iff_of_running hs).1 h
    obtain ⟨r, rfl⟩ := read_of_averaging hi hp
    obtain ⟨-, hx, -⟩ := h.parameters
    exact read_step_accOk hi hx ((accOk_iff_of_averaging hs hi).1 ha)

/-! ## The issue of a command -/

/-- An averaging command that is accepted has a read to make (R77). -/
theorem averaging_ne_zero {i : Instr} {n : Word} {s : State} (hi : averagingCount i = some n)
    (ha : accepted i s = true) : n ≠ 0 := by
  simp only [accepted, Bool.and_eq_true] at ha
  obtain ⟨⟨hw, -⟩, -⟩ := ha
  cases i <;> first | (cases hi; exact bne_iff_ne.1 hw) | cases hi

/-- `ACC <- 0 ; CTR <- n` (R113). -/
theorem averageStart_accOk {i : Instr} {n : Word} (hi : averagingCount i = some n) (hn : n ≠ 0) (s : State) :
    (averageStart i n s).AccOk := by
  have hpos : 0 < n.toNat := Nat.pos_of_ne_zero fun h0 => hn (BitVec.eq_of_toNat_eq h0)
  exact (accOk_iff_of_averaging rfl hi).2 ⟨hpos, Nat.le_refl _, Nat.zero_le _⟩

/-- The issue of a command, whatever ran before it. -/
theorem entry_accOk (i : Instr) (s : State) : (entryOf i (hostIssue i s)).AccOk := by
  cases hi : averagingCount i with
  | none =>
    rcases entry_seq i s with hq | ⟨q, hq⟩
    · exact accOk_of_idle hq
    · exact accOk_of_not_averaging hq hi
  | some n =>
    cases ha : accepted i s with
    | true =>
      rw [entry_averaging hi ha]
      exact averageStart_accOk hi (averaging_ne_zero hi ha) _
    | false =>
      rw [entry_refused i s ha]
      exact accOk_of_idle rfl

/-- Settles O10: the bound is kept beside the invariant, which gives the positions of an averaging command and the width of
a sample. -/
theorem stepKeepsAccumulatorBound : Obligations.StepKeepsAccumulatorBound := fun _ _ hs ha h =>
  (step_preserves (P := fun u => u.Inv ∧ u.AccOk) (fun _ ⟨hu, hua⟩ => ⟨passTime_inv hu, (accOk_congr rfl rfl rfl).2 hua⟩)
    (fun _ _ _ hp ⟨hu, hua⟩ => ⟨stepsOf_inv hp hu, stepsOf_accOk hp hu hua⟩)
    (fun _ _ rest i hb _ ⟨hu, _⟩ => ⟨issue_inv rest i hb hu, entry_accOk i _⟩)
    (fun _ _ rest _ hb _ ⟨hu, _⟩ => ⟨invalidCommand_inv rest hb hu, accOk_of_idle rfl⟩) ⟨hs, ha⟩ h).2

end Sys2Proof.Machine
end

section
/-!
PROOFS. The state after reset (10_state.md R44), and the registers by number (R38).
-/

namespace Sys2Proof.Machine

/-! ## Reset -/

/-- Settles O7: reset writes each value out. -/
theorem resetValues : Obligations.ResetValues := fun _ =>
  ⟨rfl, rfl, rfl, rfl, rfl, rfl, rfl, rfl, rfl, rfl, rfl, rfl, List.length_replicate, rfl⟩

/-- The open parameters meet R8 by the way they are written. -/
theorem params_valid : Config.params.Valid :=
  ⟨Nat.le_add_left .., Nat.le_add_left .., Nat.le_add_left .., Nat.mod_lt _ (Nat.two_pow_pos _)⟩

/-- The values after reset fit their widths, 0 where the spec leaves them open (log 8). -/
theorem resetWith_values {p : Params} (hp : p.Valid) : (State.resetWith p).ValuesOk := by
  obtain ⟨-, -, -, hscale⟩ := id hp
  have hzero : ∀ n, 0 < 2 ^ n := Nat.two_pow_pos
  refine ⟨hp, List.length_replicate, fun c hc => ?_, hzero _, hzero _, hzero _, hscale, nofun⟩
  rw [List.eq_of_mem_replicate hc]
  exact hzero _

theorem resetWith_inv {p : Params} (hp : p.Valid) : (State.resetWith p).Inv :=
  have hbusy : BitVec.getLsbD (0 : BitVec 5) 0 = false := by decide
  have hfault : (BitVec.extractLsb' 1 4 (0 : BitVec 5)).toNat ≤ 4 := by decide
  (inv_iff_of_idle rfl).2 ⟨resetWith_values hp, hbusy, hfault, rfl, rfl⟩

theorem resetWith_accOk (p : Params) : (State.resetWith p).AccOk := accOk_of_idle rfl

/-- Settles O8: after reset the block is idle. -/
theorem resetMeetsInvariant : Obligations.ResetMeetsInvariant :=
  ⟨params_valid, resetWith_inv params_valid, resetWith_accOk _, fun p hp => ⟨resetWith_inv hp, resetWith_accOk p⟩⟩

/-! ## The registers by number -/

/-- There are fifteen (R38). -/
theorem register_isSome (s : State) (n : Nat) : (s.register n).isSome = decide (n < 15) := by
  match n with
  | 0 | 1 | 2 | 3 | 4 | 5 | 6 | 7 | 8 | 9 | 10 | 11 | 12 | 13 | 14 => rfl
  | k + 15 => exact (decide_eq_false (by omega)).symm

/-- `STATUS` is `BUSY` at bit 0 and `FAULT` above it (R29, R38). -/
theorem status_toNat (s : State) : s.status.toNat = 2 * s.faultField.toNat + s.busy.toNat := by
  have hword : ∀ w : BitVec 5, w.toNat = 2 * (w.extractLsb' 1 4).toNat + (w.getLsbD 0).toNat := by decide
  exact hword s.status

/-- A pattern is what its integer leaves modulo the period (R10). -/
theorem toNat_eq_toInt_emod {w : Nat} (v : BitVec w) : v.toNat = (v.toInt % 2 ^ w).toNat := by
  have hemod : v.toInt % (2 ^ w : Nat) = ((v.toNat % 2 ^ w : Nat) : Int) := by
    rw [BitVec.toInt_eq_toNat_bmod, Int.bmod_emod, Int.natCast_emod]
  have hpow : ((2 ^ w : Nat) : Int) = 2 ^ w := by norm_num
  rw [← hpow, hemod, Int.toNat_natCast, Nat.mod_eq_of_lt v.isLt]

/-- A bound `CLK` names a counter above its `BOUND` bit (R31, R38). -/
theorem register_clk_lt {s : State} (h : s.Inv) (hb : s.bound = true) : 2 * s.csel + s.bound.toNat < 2 * s.cfg.nctr := by
  have hcsel := h.bound hb
  rw [hb]
  show 2 * s.csel + 1 < _
  omega

/-- The three lines of `PINS` (R38). -/
theorem pins_lt (a b c : Bool) : a.toNat + 2 * b.toNat + 4 * c.toNat < 2 ^ 3 := by
  cases a <;> cases b <;> cases c <;> decide

/-- Settles O59. The widths are the invariant's where a parameter gives them, and the type's elsewhere. -/
theorem registersFitTheirWidths : Obligations.RegistersFitTheirWidths := by
  refine ⟨register_isSome, fun s => ?_, fun s n v h hv => ?_⟩
  · refine ⟨congrArg some (status_toNat s), rfl, rfl, rfl, ?_, congrArg some (toNat_eq_toInt_emod _), rfl, rfl, rfl, rfl,
      congrArg some (toNat_eq_toInt_emod _), rfl, rfl, rfl, rfl⟩
    show some (selectorCode s.sel).toNat = _
    cases s.sel <;> rfl
  · obtain ⟨hvalues, -⟩ := (inv_iff s).1 h
    obtain ⟨-, -, -, ht0, hts, hres, hscale, -⟩ := id hvalues
    match n, hv with
    | 0, rfl => exact ⟨nofun, fun _ => s.status.isLt⟩
    | 1, rfl => exact ⟨nofun, fun _ => hres⟩
    | 2, rfl => exact ⟨nofun, fun _ => hvalues.cntRead_lt⟩
    | 3, rfl => exact ⟨fun _ hb => register_clk_lt h hb, fun hn => absurd rfl hn⟩
    | 4, rfl => exact ⟨nofun, fun _ => (selectorCode s.sel).isLt⟩
    | 5, rfl => exact ⟨nofun, fun _ => s.offset.isLt⟩
    | 6, rfl => exact ⟨nofun, fun _ => hscale⟩
    | 7, rfl => exact ⟨nofun, fun _ => pins_lt _ _ _⟩
    | 8, rfl => exact ⟨nofun, fun _ => s.shr.isLt⟩
    | 9, rfl => exact ⟨nofun, fun _ => s.byt.isLt⟩
    | 10, rfl => exact ⟨nofun, fun _ => s.acc.isLt⟩
    | 11, rfl => exact ⟨nofun, fun _ => ht0⟩
    | 12, rfl => exact ⟨nofun, fun _ => hts⟩
    | 13, rfl => exact ⟨nofun, fun _ => s.ctr.isLt⟩
    | 14, rfl => exact ⟨nofun, fun _ => s.slp.isLt⟩
    | _ + 15, hv => cases hv

end Sys2Proof.Machine
end

section
/-!
PROOFS. `READ` on a chip that is ready (42_reader.md R103, R104), and the chip's selection after it (10_state.md R40 to
R42): the frame is the one `read_frame` describes, and `READ` ends with its last step.
-/

namespace Sys2Proof.Machine

/-! ## The chip's clock-high limit -/

/-- Ticks with the clock high reach the chip's limit exactly when the count does (R41, log 13). -/
theorem trips_of_high {m : Nat} {s : State} (hsck : s.sck = true) (hm : 0 < m) :
    s.trips m = decide (pdTimeout ≤ s.highTicks + m) := by
  simp [State.trips, hsck, hm]

/-- In an open frame they break it then (R42). -/
theorem breaksFrame_of_open {m : Nat} {s : State} (hf : s.frame ≠ .outside) : s.breaksFrame m = s.trips m := by
  simp [State.breaksFrame, hf]

/-- The limit reached inside an open frame (R41, R42). -/
theorem elapse_at_limit {m : Nat} {s : State} (hf : s.frame ≠ .outside) (ht : s.trips m = true) :
    (elapse m s).chipPd = true ∧ (elapse m s).frame = .broken ∧ (elapse m s).garbageNext = true ∧
      (elapse m s).chipSel = .unknown := by
  simp [breaksFrame_of_open hf, ht]

/-- Below the limit the chip's state stands. -/
theorem elapse_below_limit {m : Nat} {s : State} (ht : s.trips m = false) :
    (elapse m s).chipPd = s.chipPd ∧ (elapse m s).frame = s.frame ∧ (elapse m s).garbageNext = s.garbageNext ∧
      (elapse m s).chipSel = s.chipSel := by
  simp [State.breaksFrame, ht]

/-! ## `READ` -/

/-- One step of the model is enough for a frame. -/
theorem frameSteps_le_budget (sel : Selector) : frameSteps sel ≤ 200 := by
  cases sel <;> decide

/-- `READ` issued on an idle block whose clock is bound stands before its first check (R85, R104). -/
theorem entry_read {s : State} (hb : s.bound = true) :
    entryOf .read (hostIssue .read s) = goto .read (.read readStart) (hostIssue .read s) :=
  if_pos hb

/-- `READ` on a chip that is ready at its first check: the frame, and the value of its sample returned (R103, R104). -/
theorem exec_read_of_ready {s : State} (hs : s.busy = false) (hb : s.bound = true) (hf : s.frame = .outside)
    (hready : (s.drawAt 0).dout = false) :
    ∃ u, ReadDone (goto .read (.read readStart) (hostIssue .read s)) u ∧
      exec .read s = .next (returnValue (sampleResult u.cfg (sampleOf u.cfg u.shr)) u) := by
  obtain ⟨u, hu, hrun⟩ := read_frame (stepsOf_read (i := .read) rfl)
    (goto .read (.read readStart) (hostIssue .read s)) rfl hready hf
  refine ⟨u, hu, ?_⟩
  have hbudget : stepBudget .read = 200 - frameSteps s.sel + frameSteps s.sel :=
    (Nat.sub_add_cancel (frameSteps_le_budget s.sel)).symm
  rw [exec_of_idle .read s hs, entry_read hb, hbudget]
  exact congrArg _ ((hrun _).trans (runSteps_of_idle _ _ _ rfl))

/-- Settles O40. -/
theorem readArmsTheNextSelection : Obligations.ReadArmsTheNextSelection := by
  refine ⟨fun s w hs hb hf hw => ?_, fun m s hf hsck hm => ?_⟩
  · obtain ⟨u, hu, hexec⟩ := exec_read_of_ready hs.1 hb hf hw.1
    exact ⟨_, hexec, ⟨returnValue_busy _ u, rfl⟩, hu.sampleSel, hu.frame, hu.whole, hu.broken, hu.stretched⟩
  · have ht := trips_of_high hsck hm
    refine ⟨fun hlimit => elapse_at_limit hf (ht.trans (decide_eq_true hlimit)), fun hbelow => ?_⟩
    exact elapse_below_limit (ht.trans (decide_eq_false (by omega)))

end Sys2Proof.Machine
end

section
/-!
PROOFS. The command word (30_encoding.md R65), the opcode map (R66) and the illegal opcodes (R76): the decoder reads the
opcode, and of the operand fields those that the opcode's command uses.
-/

namespace Sys2Proof

open Laws (cmdWord_op cmdWord_operandA cmdWord_operandB)

/-! ## Decode and encode -/

/-- The decoder finds the opcode of each command in its place, and the operands in theirs. -/
theorem decode_encode (i : Instr) : decode (encode i) = .ok i := by
  cases i
  all_goals
    simp only [encode, decode, cmdWord_op, cmdWord_operandA, cmdWord_operandB]
    rfl

/-- The table numbers the bits of a command as its word does (log 19). -/
theorem decodeTableWord_toNat (w : CmdWord) : decodeTableWord 72 w.toNat = (decode w).toOption := by
  rw [decodeTableWord, Nat.mod_eq_of_lt w.isLt, BitVec.ofNat_toNat, BitVec.setWidth_eq]
  cases decode w <;> rfl

/-- Settles O1. -/
theorem decodeInvertsEncode : Obligations.DecodeInvertsEncode := fun i =>
  ⟨decode_encode i, by rw [decodeTableWord_toNat, decode_encode]; rfl⟩

/-- Settles O4: six closed evaluations of the decoder. -/
theorem sampleWordsDecode : Obligations.SampleWordsDecode := ⟨rfl, rfl, rfl, rfl, rfl, rfl⟩

/-! ## Operand fields -/

/-- The opcodes whose commands use no operand field (R65, R66). -/
def opcodesWithoutOperands : List Nat := [0x03, 0x04, 0x21, 0x25, 0x26, 0x27, 0x35, 0x37]

/-- The opcodes whose commands use both operand fields (R65, R66). -/
def opcodesWithBothOperands : List Nat := [0x23, 0x24, 0x34]

theorem not_both_of_without : ∀ n ∈ opcodesWithoutOperands, n ∉ opcodesWithBothOperands := by decide

/-- Words that agree in the opcode, and in the operand fields its command uses, decode alike (R65). -/
theorem decode_cmdWord_congr {op : Byte} {a a' b b' : Word} (ha : op.toNat ∉ opcodesWithoutOperands → a = a')
    (hb : op.toNat ∈ opcodesWithBothOperands → b = b') : decode (cmdWord op a b) = decode (cmdWord op a' b') := by
  simp only [decode, cmdWord_op, cmdWord_operandA, cmdWord_operandB]
  split
  all_goals
    rename_i hop
    simp_all [opcodesWithoutOperands, opcodesWithBothOperands]

/-- Settles O2. -/
theorem unusedOperandsIgnored : Obligations.UnusedOperandsIgnored :=
  ⟨fun _ hop _ _ _ _ => decode_cmdWord_congr (absurd hop) fun hboth => absurd hboth (not_both_of_without _ hop),
    fun _ hop _ _ _ => decode_cmdWord_congr (fun _ => rfl) fun hboth => absurd hboth hop⟩

/-! ## Illegal opcodes -/

/-- The opcodes that are not in the map, as R76 lists them. -/
def illegalOpcode (n : Nat) : Bool :=
  n == 0 || (0x05 ≤ n && n ≤ 0x0F) || (0x11 ≤ n && n ≤ 0x1F) || (0x28 ≤ n && n ≤ 0x2F) || (0x38 ≤ n && n ≤ 0xFF)

/-- What the decoder can answer: a command, or the illegal opcode by name (R76). -/
theorem decode_cases (w : CmdWord) :
    (illegalOpcode (CmdWord.op w).toNat = false ∧ ∃ i, decode w = .ok i) ∨
    (illegalOpcode (CmdWord.op w).toNat = true ∧ decode w = .error (.invalidCommand (CmdWord.op w))) := by
  simp only [decode]
  split
  case h_22 =>
    refine .inr ⟨?_, rfl⟩
    have hlt := (CmdWord.op w).isLt
    simp only [illegalOpcode, Bool.or_eq_true, Bool.and_eq_true, beq_iff_eq, decide_eq_true_eq, imp_false] at *
    omega
  all_goals
    rename_i hop
    exact .inl ⟨by rw [hop]; rfl, _, rfl⟩

theorem illegalOpcode_eq_false_iff (w : CmdWord) :
    illegalOpcode (CmdWord.op w).toNat = false ↔ ∃ i, decode w = .ok i := by
  rcases decode_cases w with ⟨hlegal, hok⟩ | ⟨hillegal, herr⟩
  · exact iff_of_true hlegal hok
  · exact iff_of_false (by simp [hillegal]) fun ⟨i, hi⟩ => by simp [herr] at hi

theorem decode_of_illegal {w : CmdWord} (h : illegalOpcode (CmdWord.op w).toNat = true) :
    decode w = .error (.invalidCommand (CmdWord.op w)) := by
  rcases decode_cases w with ⟨hlegal, -⟩ | ⟨-, herr⟩
  · exact absurd h (by simp [hlegal])
  · exact herr

end Sys2Proof
end

section
/-!
PROOFS. What an idle block does with a word that is no command (30_encoding.md R76) and with a command it refuses
(60_exceptions.md R130, R131): a fault is raised with the issue, and changes `STATUS` alone.
-/

namespace Sys2Proof.Machine

/-- A fault on an idle block leaves it idle, and all but `STATUS` as it was (R130). -/
theorem raise_of_idle (f : FaultCode) {s : State} (hs : s.seq = .idle) :
    raise f s = { s with status := statusWord f.code false } := by
  rw [raise, ← hs]

/-- An idle block ends a word that is no command at once (R76). -/
theorem step_of_invalid {s : State} {w : CmdWord} {rest : List CmdWord} {e : DecodeError} (hb : s.busy = false)
    (hp : s.program = w :: rest) (hd : decode w = .error e) : step s = .next (invalidCommand (takeCommand rest s)) := by
  simp [step, hb, hp, hd]

/-- Settles O3. -/
theorem illegalOpcodes : Obligations.IllegalOpcodes := by
  refine ⟨rfl, illegalOpcode_eq_false_iff, fun s w rest ⟨hb, hs⟩ hp hw => ⟨decode_of_illegal hw, ?_⟩⟩
  rw [step_of_invalid hb hp (decode_of_illegal hw)]
  exact congrArg _ (raise_of_idle (s := takeCommand rest s) .invalidCommand hs)

/-- A refused command ends with its issue, by the fault that comes first in the order of R131. -/
theorem exec_of_refused {i : Instr} {s : State} (hb : s.busy = false) (h : accepted i s = false) :
    exec i s = .next (raise (if i.wellFormed s.cfg.nctr = false then .invalidArgument
      else if usesClock i = true ∧ s.bound = false then .clockUnbound else .invalidState) s) := by
  rw [exec_of_idle i s hb, entry_refused i s h, runSteps_of_idle _ _ _ rfl]
  rfl

/-- Settles O20. -/
theorem faultsInOrderOfPriority : Obligations.FaultsInOrderOfPriority := fun i s ⟨hb, hs⟩ h => by
  rw [exec_of_refused hb h, raise_of_idle _ hs]
  congr 2
  split_ifs <;> rfl

end Sys2Proof.Machine
end

section
/-!
PROOFS. The gain codes (30_encoding.md R70, R71), the sample a frame's three bytes spell (R69), and the pin events of the
frame (R67).
-/

namespace Sys2Proof.Machine

/-! ## Gain codes -/

theorem selectorOfGain_eq_some_iff (g : Word) (x : Selector) : selectorOfGain g = some x ↔
    (g = 128 ∧ x = .a128) ∨ (g = 64 ∧ x = .a64) ∨ (g = 32 ∧ x = .b32) := by
  constructor
  · simp only [selectorOfGain]
    split_ifs with h128 h64 h32 <;> simp_all [eq_comm]
  · rintro (⟨rfl, rfl⟩ | ⟨rfl, rfl⟩ | ⟨rfl, rfl⟩) <;> rfl

/-- Settles O42. -/
theorem gainCodesAndPulses : Obligations.GainCodesAndPulses := by
  refine ⟨selectorOfGain_eq_some_iff, fun g _ => legalGain_eq g, ⟨rfl, rfl, rfl⟩, fun x => ⟨rfl, ?_⟩⟩
  cases x <;> decide

/-! ## The sample -/

/-- Three bytes stored in the order shifted in leave nothing of the word before (R51, R69). -/
theorem storeByte_three (b2 b1 b0 : Byte) (x : SampleWord) :
    storeByte 2 b0 (storeByte 1 b1 (storeByte 0 b2 x)) = b2 ++ b1 ++ b0 := by
  apply BitVec.eq_of_getLsbD_eq
  intro k hk
  rw [storeByte_getLsbD _ _ _ _ hk, storeByte_getLsbD _ _ _ _ hk, storeByte_getLsbD _ _ _ _ hk, BitVec.getLsbD_append,
    BitVec.getLsbD_append]
  by_cases h0 : k < 8
  · simp [h0]
  · by_cases h1 : k < 16
    · simp [h0, h1, show 8 ≤ k by omega, show k - 8 < 8 by omega]
    · simp [h0, h1, show 16 ≤ k by omega, show ¬ k - 8 < 8 by omega, hk, Nat.sub_sub]

theorem toNat_three_bytes (b2 b1 b0 : Byte) :
    (b2 ++ b1 ++ b0).toNat = b2.toNat <<< 16 ||| b1.toNat <<< 8 ||| b0.toNat := by
  rw [BitVec.toNat_append, BitVec.toNat_append, Nat.shiftLeft_or_distrib, ← Nat.shiftLeft_add]

/-- `sext_XW(SHR)` is the sign extension of bit vectors (R10, R69). -/
theorem sampleOf_eq_signExtend (p : Params) (shr : SampleWord) : sampleOf p shr = (shr.signExtend p.xw).toNat := by
  rw [sampleOf, sext, signedValue_toInt, signedPattern, BitVec.signExtend, BitVec.toNat_ofInt]

theorem sampleOf_testBit {p : Params} (hp : 24 ≤ p.xw) (shr : SampleWord) (k : Nat) :
    (sampleOf p shr).testBit k = if k < p.xw then shr.getLsbD (min k 23) else false := by
  rw [sampleOf_eq_signExtend, ← BitVec.getLsbD, BitVec.getLsbD_signExtend, BitVec.msb_eq_getLsbD_last]
  by_cases hk : k < 24
  · simp [hk, show k < p.xw by omega, show min k 23 = k by omega]
  · simp [hk, show min k 23 = 23 by omega]

/-- Settles O37. -/
theorem sampleAssembly : Obligations.SampleAssembly := by
  refine ⟨fun b2 b1 b0 x => ⟨storeByte_three b2 b1 b0 x, ?_⟩, fun p shr hp => ⟨?_, sampleOf_testBit hp shr, ?_⟩⟩
  · rw [storeByte_three, toNat_three_bytes]
  · rw [sampleOf_value p hp, ← signedValue_toInt]
    rfl
  · rw [sampleOf_value p hp]
    exact toInt24 shr

/-! ## The frame -/

/-- The record of a frame depends on its 24 bits alone. -/
theorem frameEvents_congr {b c : Nat → Bool} (h : ∀ p < 24, b p = c p) (n : Nat) : frameEvents b n = frameEvents c n := by
  rw [frameEvents, frameEvents, List.flatMap_congr fun p hp => by rw [h p (List.mem_range.1 hp)]]

/-- One rising edge for each bit and for each trailing pulse (R67). -/
theorem frameEvents_count_rise (b : Nat → Bool) (n : Nat) : (frameEvents b n).count .rise = 24 + n := by
  simp [frameEvents, List.count_flatMap, List.count_flatten, Function.comp_def]

/-- The record of a `Read`, by the bits of the word the chip delivers to it (R67, R103). -/
theorem ReadDone.wire_of_delivers {s t : State} {w : SampleWord} (h : ReadDone s t) (hw : s.Delivers 0 w) :
    t.wire = (if s.sck then (frameEvents (fun p => w.getLsbD (23 - p)) (pulses s.sel)).tail
      else frameEvents (fun p => w.getLsbD (23 - p)) (pulses s.sel)).reverse ++ .checked false :: s.wire := by
  have hbits : ∀ p < 24, w.getLsbD (23 - p) = (s.drawAt (5 + 7 * p)).dout := by simpa using hw.2
  rw [h.wire, frameEvents_congr hbits]

/-- Settles O39: the issue of `READ` writes neither a pin nor the record, and neither does the return of its sample. -/
theorem readDrivesTheFrame : Obligations.ReadDrivesTheFrame := by
  intro s w ⟨hs, _⟩ hb hf hw
  obtain ⟨u, hu, hexec⟩ := exec_read_of_ready hs hb hf hw.1
  have hwire := hu.wire_of_delivers (w := w) hw
  refine ⟨_, hexec, ⟨returnValue_busy _ u, rfl⟩, hwire, fun hsck hempty => ?_⟩
  simp [hwire, hsck, hempty, frameEvents_count_rise]

end Sys2Proof.Machine
end

section
/-!
PROOFS. The Microsecond Clock (40_clock.md R86 to R92): the counter as time moves it, the poll that ends a `Delay` or a
`Sleep`, the elapsed time of `WAIT_READY_TIMEOUT` across a wrap, and the four commands of the clock.
-/

namespace Sys2Proof.Machine

/-! ## The bound counter -/

/-- The bound counter moves as every counter does (R12, R30). -/
theorem cntRead_elapse {s : State} (h : s.csel < s.ctrs.length) (m : Nat) :
    (elapse m s).cntRead = addMod s.cfg.cw s.cntRead m := by
  simp [State.cntRead, List.getD_eq_getElem?_getD, h]

/-- The counter keeps to its width, also where `CSEL` names none (R30). -/
theorem cntRead_lt_of_counters {s : State} (h : ∀ c ∈ s.ctrs, c < 2 ^ s.cfg.cw) : s.cntRead < 2 ^ s.cfg.cw := by
  rw [State.cntRead, List.getD_eq_getElem?_getD]
  cases hc : s.ctrs[s.csel]? with
  | none => exact Nat.two_pow_pos _
  | some c => exact h c (List.mem_of_getElem? hc)

/-- One tick after the top of its range a counter is 0 (R30). -/
theorem addMod_top (w : Nat) : addMod w (2 ^ w - 1) 1 = 0 := by
  rw [addMod, Nat.sub_add_cancel (Nat.two_pow_pos w), Nat.mod_self]

/-- A difference that borrows once (R11). -/
theorem subMod_of_lt {w a b : Nat} (hb : b < 2 ^ w) (h : a < b) : subMod w a b = 2 ^ w - b + a := by
  rw [subMod, Nat.mod_eq_of_lt hb, Nat.mod_eq_of_lt (by omega), Nat.add_comm]

/-! ## `Delay` -/

/-- The threshold of a count that fits the counter (R86 (a)). -/
theorem delayThreshold_of_pos {p : Params} {n : Nat} (h1 : 1 ≤ n) (hn : n < 2 ^ p.cw) :
    delayThreshold p n = n - 1 := by
  have hadd : addMod p.cw 1 (n - 1) = n := by
    rw [addMod, Nat.add_sub_cancel' h1, Nat.mod_eq_of_lt hn]
  calc delayThreshold p n = subMod p.cw n 1 := if_neg (by omega)
    _ = subMod p.cw (addMod p.cw 1 (n - 1)) 1 := by rw [hadd]
    _ = (n - 1) % 2 ^ p.cw := subMod_addMod _ _ _
    _ = n - 1 := Nat.mod_eq_of_lt (by omega)

theorem delayStep_poll_done_iff (n : Nat) (s : State) :
    (delayStep n .poll s).2 = .done ↔ delayThreshold s.cfg n ≤ subMod s.cfg.cw s.cntRead s.t0 := by
  rcases delayStep_poll_cases n s with ⟨h, e⟩ | ⟨h, e⟩ <;> rw [e]
  · exact iff_of_true rfl h
  · exact iff_of_false nofun (by omega)

/-- A poll sees the ticks since the `T0` step, modulo the counter's range (R86 (c)). -/
theorem delay_ends_iff {n m : Nat} {s : State} (hcsel : s.csel < s.ctrs.length) (ht0 : s.t0 = s.cntRead) :
    (delayStep n .poll (elapse m s)).2 = .done ↔ delayThreshold s.cfg n ≤ m % 2 ^ s.cfg.cw := by
  have hticks : subMod s.cfg.cw (elapse m s).cntRead s.t0 = m % 2 ^ s.cfg.cw := by
    rw [cntRead_elapse hcsel, ht0, subMod_addMod]
  rw [← hticks]
  exact delayStep_poll_done_iff n (elapse m s)

/-- Settles O17: what the counter has advanced by is at most the ticks that have passed. -/
theorem delayIsNeverShort : Obligations.DelayIsNeverShort := by
  refine ⟨fun p n => delayThreshold_of_pos, fun p => rfl, fun n m s hcsel ht0 => ⟨delay_ends_iff hcsel ht0, ?_⟩⟩
  intro h1 hn hdone
  have hthreshold := (delay_ends_iff hcsel ht0).1 hdone
  rw [delayThreshold_of_pos h1 hn] at hthreshold
  exact hthreshold.trans (Nat.mod_le _ _)

/-! ## `Sleep` -/

theorem sleepStep_poll_done_iff (d : Word) (s : State) : (sleepStep d .poll s).2 = .done ↔ s.slp = 0 := by
  rcases sleepStep_poll_cases d s with ⟨h, e⟩ | ⟨h, e⟩ <;> rw [e]
  · exact iff_of_true rfl h
  · exact iff_of_false nofun h

/-- `SLP` is wide enough for every sleep (R46). -/
theorem toNat_sleepTicks (d : Word) : (BitVec.ofNat 42 (1000 * d.toNat)).toNat = 1000 * d.toNat := by
  have := d.isLt
  rw [BitVec.toNat_ofNat]
  omega

/-- Settles O18: `SLP` counts down from `1000 d`, and stays at 0. -/
theorem sleepIsNeverShort : Obligations.SleepIsNeverShort := by
  intro d m s
  have hd := d.isLt
  have hslp : (elapse m (sleepStep d .load s).1).slp = BitVec.ofNat 42 (1000 * d.toNat - m) :=
    congrArg (fun n => BitVec.ofNat 42 (n - m)) (toNat_sleepTicks d)
  rw [sleepStep_poll_done_iff, hslp, ← BitVec.toNat_inj, BitVec.toNat_ofNat]
  show (1000 * d.toNat - m) % 2 ^ 42 = 0 ↔ _
  omega

/-! ## The elapsed time -/

/-- Settles O19: the difference of the two readings borrows. -/
theorem timeoutAcrossCounterWrap : Obligations.TimeoutAcrossCounterWrap := by
  intro timeout s hts hwrap
  rw [State.beforeTimeout, subMod_of_lt hts hwrap, decide_eq_true_iff, counterOperand]

/-! ## Commands of one step -/

/-- A command whose entry passes its tests and leaves it at its one step: time passes, the step is performed (R14). -/
theorem exec_of_oneStep {i : Instr} {f : State → State} {s : State} (hb : s.busy = false)
    (hentry : entryOf i (hostIssue i s) = hostIssue i s) (hsteps : stepsOf i = oneStep f) (hbudget : stepBudget i = 200)
    (hend : ∀ u, (f u).seq = .idle) : exec i s = .next (f (passTime (hostIssue i s))) := by
  rw [exec_of_idle i s hb, hentry, hsteps, hbudget, runSteps_of_moves _ 199 _ _ i .act rfl rfl,
    runSteps_of_idle _ _ _ (hend _)]

/-- A command that uses the clock, issued on an idle block that has none (R85). -/
theorem exec_of_unbound {i : Instr} {s : State} (hs : s.AtRest) (hw : i.wellFormed s.cfg.nctr = true)
    (hc : usesClock i = true) (hb : s.bound = false) : exec i s = .next { s with status := statusWord 3 false } := by
  have ha : accepted i s = false := by simp [accepted, hc, hb]
  rw [exec_of_refused hs.1 ha, raise_of_idle _ hs.2, if_neg (by simp [hw]), if_pos ⟨hc, hb⟩]
  rfl

/-! ## `CLK_INIT` -/

/-- An index that is no counter is refused (R88). -/
theorem exec_clkInit_of_ge {a : Word} {s : State} (hs : s.AtRest) (ha : s.cfg.nctr ≤ a.toNat) :
    exec (.clkInit a) s = .next { s with status := statusWord 1 false } := by
  have hw : (Instr.clkInit a).wellFormed s.cfg.nctr = false := decide_eq_false (Nat.not_lt.2 ha)
  rw [exec_of_refused hs.1 (by simp [accepted, hw]), raise_of_idle _ hs.2, if_pos hw]
  rfl

/-- A counter's index binds it (R88). -/
theorem exec_clkInit_of_lt {a : Word} {s : State} (hs : s.AtRest) (ha : a.toNat < s.cfg.nctr) :
    exec (.clkInit a) s = .next { passTime s with csel := a.toNat, bound := true, status := 0, seq := .idle } :=
  exec_of_oneStep (i := .clkInit a) hs.1 (if_pos (decide_eq_true ha)) rfl rfl fun _ => rfl

/-- Settles O23. -/
theorem clkInitBindsTheCounter : Obligations.ClkInitBindsTheCounter :=
  ⟨fun a b => (unusedOperandsIgnored.2 0x01 (by decide) a b 0).trans (decode_encode (.clkInit a)),
    fun _ _ => exec_clkInit_of_ge, fun _ _ => exec_clkInit_of_lt,
    fun _ _ _ hi h => ⟨exec_bound h hi, exec_csel h hi⟩⟩

/-! ## `DELAY_US` -/

/-- A poll of `DELAY_US` is the last thing a step of the model does: it ends the command, or fails (R86, R89, log 3). -/
theorem runSteps_delayUs_poll {n : Word} {s : State} (k : Nat) (hs : s.seq = .run (.delayUs n) (.delay .poll)) :
    runSteps (stepsOf (.delayUs n)) (k + 1) s =
      if delayThreshold s.cfg (counterOperand s.cfg n) ≤ subMod s.cfg.cw (passTime s).cntRead s.t0 then
        finish (passTime s) else passTime s := by
  have hstep (u : State) : stepsOf (.delayUs n) (.delay .poll) u =
      calling (.delayUs n) .delay finish (delayStep (counterOperand u.cfg n) .poll u) := rfl
  split
  · rename_i hover
    have hpoll : delayStep (counterOperand s.cfg n) .poll (passTime s) = (passTime s, .done) := if_pos hover
    exact (runSteps_of_moves _ k s _ _ _ hs ((hstep _).trans (congrArg _ hpoll))).trans (runSteps_of_idle _ _ _ rfl)
  · rename_i hearly
    have hpoll : delayStep (counterOperand s.cfg n) .poll (passTime s) = (passTime s, .waiting .poll) := if_neg hearly
    have hgoto : goto (.delayUs n) (.delay .poll) (passTime s) = passTime s := by rw [goto, ← hs]; rfl
    exact (runSteps_of_waits _ k s _ _ _ hs ((hstep _).trans (congrArg _ hpoll))).trans hgoto

/-- `DELAY_US` issued on an idle block whose clock is bound: its `T0` step, then its first poll. -/
theorem exec_delayUs_of_idle {n : Word} {s : State} (hb : s.busy = false) (hbound : s.bound = true) :
    exec (.delayUs n) s = .next (runSteps (stepsOf (.delayUs n)) 199 { passTime s with
      t0 := (passTime s).cntRead, status := 1, seq := .run (.delayUs n) (.delay .poll) }) := by
  have hentry : entryOf (.delayUs n) (hostIssue (.delayUs n) s) =
      goto (.delayUs n) (.delay .latch) (hostIssue (.delayUs n) s) := if_pos hbound
  rw [exec_of_idle _ s hb, hentry]
  exact congrArg _ (runSteps_of_moves _ 199 _ _ _ _ rfl rfl)

/-- Settles O24. -/
theorem delayUsLatchesAndPolls : Obligations.DelayUsLatchesAndPolls := by
  refine ⟨fun n s ⟨hb, _⟩ hbound => ?_, fun n s ⟨hb, hs⟩ => ?_⟩
  · rw [exec_delayUs_of_idle hb hbound, runSteps_delayUs_poll 198 rfl]
    rfl
  · rw [exec_of_running _ _ s hb hs rfl]
    exact congrArg _ (runSteps_delayUs_poll 199 hs)

/-! ## `NOW_US` and `NOW_MS` -/

/-- Settles O25. -/
theorem nowUsReturnsTheCounter : Obligations.NowUsReturnsTheCounter :=
  ⟨fun a b => (unusedOperandsIgnored.1 0x03 (by decide) a 0 b 0).trans (decode_encode .nowUs),
    fun _ hs hb => exec_of_unbound hs rfl rfl hb,
    fun _ hs hb => exec_of_oneStep (i := .nowUs) hs.1 (if_pos hb) rfl rfl fun _ => rfl,
    fun m _ h => cntRead_elapse h m⟩

/-- The millisecond view keeps to that of the counter's range (R91, R92). -/
theorem nowMs_le {s : State} (h : ∀ c ∈ s.ctrs, c < 2 ^ s.cfg.cw) : s.nowMs ≤ (2 ^ s.cfg.cw - 1) / 1000 :=
  Nat.div_le_div_right (Nat.le_sub_one_of_lt (cntRead_lt_of_counters h))

/-- It falls to 0 where the counter does (R92). -/
theorem nowMs_at_top {s : State} (hcsel : s.csel < s.ctrs.length) (htop : s.cntRead = 2 ^ s.cfg.cw - 1) :
    s.nowMs = (2 ^ s.cfg.cw - 1) / 1000 ∧ (elapse 1 s).nowMs = 0 := by
  rw [State.nowMs, State.nowMs, cntRead_elapse hcsel, htop, addMod_top]
  exact ⟨rfl, rfl⟩

/-- Settles O26. -/
theorem nowMsReturnsMilliseconds : Obligations.NowMsReturnsMilliseconds :=
  ⟨fun a b => (unusedOperandsIgnored.1 0x04 (by decide) a 0 b 0).trans (decode_encode .nowMs),
    fun _ hs hb => exec_of_unbound hs rfl rfl hb,
    fun _ hs hb => exec_of_oneStep (i := .nowMs) hs.1 (if_pos hb) rfl rfl fun _ => rfl,
    fun _ => nowMs_le, fun _ => nowMs_at_top⟩

end Sys2Proof.Machine
end

section
/-!
PROOFS. The sleep after a check that failed (40_clock.md R87, 42_reader.md R99 to R103, 43_calibration.md R113): it is
loaded, and polled at once. That the step of the model which loads it ends where the step that polls it ends needs that
neither comes to its budget of steps: a run that pauses within some number of steps is the same with any more.
-/

namespace Sys2Proof.Machine

/-! ## Runs that pause -/

/-- The run from `s` ends its command, or fails a test it waits on, within `k` steps of `SEQ`: more steps add
nothing. -/
def PausesWithin (steps : CommandSteps) (k : Nat) (s : State) : Prop :=
  ∀ m, k ≤ m → runSteps steps m s = runSteps steps k s

section
variable {steps : CommandSteps} {s t : State} {i : Instr} {p : Pos} {k n : Nat}

theorem PausesWithin.mono (h : PausesWithin steps k s) (hk : k ≤ n) : PausesWithin steps n s := fun m hm =>
  (h m (hk.trans hm)).trans (h n hk).symm

theorem pausesWithin_of_idle (k : Nat) (hs : s.seq = .idle) : PausesWithin steps k s := fun m _ => by
  rw [runSteps_of_idle steps m s hs, runSteps_of_idle steps k s hs]

/-- Some steps, and then a run that pauses. -/
theorem PausesWithin.after (h : PausesWithin steps k t) (hrun : ∀ m, runSteps steps (m + n) s = runSteps steps m t) :
    PausesWithin steps (k + n) s := fun m hm => by
  obtain ⟨j, rfl⟩ := Nat.exists_eq_add_of_le' (show n ≤ m by omega)
  rw [hrun, hrun]
  exact h j (by omega)

theorem pausesWithin_of_moves (hs : s.seq = .run i p) (hstep : steps p (passTime s) = (t, .moves))
    (h : PausesWithin steps k t) : PausesWithin steps (k + 1) s :=
  h.after fun m => runSteps_of_moves steps m s t i p hs hstep

/-- A step that fails the test it waits on. -/
theorem pausesWithin_of_waits (hs : s.seq = .run i p) (hstep : steps p (passTime s) = (t, .waits)) :
    PausesWithin steps 1 s := fun m hm => by
  obtain ⟨j, rfl⟩ := Nat.exists_eq_add_of_le' hm
  rw [runSteps_of_waits steps j s t i p hs hstep, runSteps_of_waits steps 0 s t i p hs hstep]

end

/-! ## The waits -/

/-- `inside` are the positions of a wait of the command `i`, which sleeps `d` milliseconds after a check that failed:
one of the three waiting commands, or the wait inside a `Read` (R99, R101, R102, R103). -/
def WaitsAt (i : Instr) (d : Word) (inside : WaitPos → Pos) (p : Params) : Prop :=
  (inside = .wait ∧ (i = .waitReady d ∨ (∃ a, i = .waitReadyRetry a d) ∨ ∃ a, i = .waitReadyTimeout a d)) ∨
    (inside = (fun w => .read (.wait w)) ∧ d = p.readPollDelay ∧ readsFrames i = true)

/-- What a command performs with the poll that ends its sleep (R99, R101, R102). -/
def afterSleep : Instr → State → State
  | .waitReady d, s => goto (.waitReady d) (.wait .check) s
  | .waitReadyRetry a d, s => retryTest a d { s with ctr := s.ctr + 1 }
  | .waitReadyTimeout a d, s => goto (.waitReadyTimeout a d) .timeTest s
  | i, s => goto i (.read readStart) s

section
variable {i : Instr} {d : Word} {inside : WaitPos → Pos}

theorem WaitsAt.posOf {p : Params} (h : WaitsAt i d inside p) (w : WaitPos) : posOf i (inside w) = true := by
  rcases h with ⟨rfl, rfl | ⟨a, rfl⟩ | ⟨a, rfl⟩⟩ | ⟨rfl, -, hr⟩
  · rfl
  · rfl
  · rfl
  · exact (posOf_read_eq i _).trans hr

theorem afterSleep_of_readsFrames (hr : readsFrames i = true) (s : State) :
    afterSleep i s = goto i (.read readStart) s := by
  cases i <;> first | rfl | cases hr

/-- Every wait calls `Sleep` in the same way. -/
theorem WaitsAt.stepsOf_sleep {s : State} (h : WaitsAt i d inside s.cfg) (p : SleepPos) :
    stepsOf i (inside (.sleep p)) s =
      calling i (fun p => inside (.sleep p)) (afterSleep i) (sleepStep d p s) := by
  rcases h with ⟨rfl, rfl | ⟨a, rfl⟩ | ⟨a, rfl⟩⟩ | ⟨rfl, rfl, hr⟩
  · simp only [stepsOf, waitReadySteps, waitReadyStep]
    rcases sleepStep d p s with ⟨u, _ | _ | _⟩ <;> rfl
  · rfl
  · rfl
  · rw [stepsOf_read hr]
    simp only [readStep, waitReadyStep]
    rcases sleepStep s.cfg.readPollDelay p s with ⟨u, _ | _ | _⟩
    · rfl
    · rfl
    · exact congrArg (·, Progress.moves) (afterSleep_of_readsFrames hr u).symm

/-- The step that loads the sleep (R87). -/
theorem WaitsAt.runSteps_load {s : State} (h : WaitsAt i d inside s.cfg) (k : Nat)
    (hs : s.seq = .run i (inside (.sleep .load))) :
    runSteps (stepsOf i) (k + 1) s = runSteps (stepsOf i) k { passTime s with
      slp := BitVec.ofNat 42 (1000 * d.toNat), seq := .run i (inside (.sleep .poll)) } :=
  runSteps_of_moves _ k s _ i _ hs (WaitsAt.stepsOf_sleep (s := passTime s) h .load)

/-- A poll of the sleep fails, or what follows the sleep follows it (R87). -/
theorem WaitsAt.poll_pauses {s : State} {k : Nat} (h : WaitsAt i d inside s.cfg)
    (hs : s.seq = .run i (inside (.sleep .poll))) (hafter : PausesWithin (stepsOf i) k (afterSleep i (passTime s))) :
    PausesWithin (stepsOf i) (k + 1) s := by
  have hstep := WaitsAt.stepsOf_sleep (s := passTime s) h .poll
  rcases sleepStep_poll_cases d (passTime s) with ⟨-, hpoll⟩ | ⟨-, hpoll⟩ <;> rw [hpoll] at hstep
  · exact pausesWithin_of_moves hs hstep hafter
  · exact (pausesWithin_of_waits hs hstep).mono (by omega)

end

/-! ## After the sleep of a waiting command -/

/-- The check of a waiting command fails, or ends the command (R99, R101, R102). -/
theorem stepsOf_check_cases {i : Instr} (hi : posOf i (.wait .check) = true) (s : State) :
    ∃ t, stepsOf i (.wait .check) s = (t, .waits) ∨ (stepsOf i (.wait .check) s = (t, .moves) ∧ t.seq = .idle) := by
  cases i with
  | waitReady d =>
    simp only [stepsOf, waitReadySteps]
    rcases waitReadyStep_check_cases d s with ⟨-, e⟩ | ⟨-, e⟩ <;> rw [e]
    · exact ⟨_, .inr ⟨rfl, rfl⟩⟩
    · exact ⟨_, .inl rfl⟩
  | waitReadyRetry a d =>
    simp only [stepsOf, waitReadyRetrySteps]
    split
    · exact ⟨_, .inr ⟨rfl, rfl⟩⟩
    · exact ⟨_, .inl rfl⟩
  | waitReadyTimeout a d =>
    simp only [stepsOf, waitReadyTimeoutSteps]
    split
    · exact ⟨_, .inr ⟨rfl, rfl⟩⟩
    · exact ⟨_, .inl rfl⟩
  | _ => cases hi

/-- Either way the run pauses there. -/
theorem check_pauses {i : Instr} {s : State} (hi : posOf i (.wait .check) = true) (hs : s.seq = .run i (.wait .check)) :
    PausesWithin (stepsOf i) 1 s := by
  obtain ⟨t, hstep | ⟨hstep, ht⟩⟩ := stepsOf_check_cases hi (passTime s)
  · exact pausesWithin_of_waits hs hstep
  · exact pausesWithin_of_moves hs hstep (pausesWithin_of_idle 0 ht)

/-- The time test of `WAIT_READY_TIMEOUT` leads to a check, or ends the command (R102). -/
theorem timeTest_pauses {a d : Word} {s : State} (hs : s.seq = .run (.waitReadyTimeout a d) .timeTest) :
    PausesWithin (stepsOf (.waitReadyTimeout a d)) 2 s := by
  have hstep : stepsOf (.waitReadyTimeout a d) .timeTest (passTime s) =
      if (passTime s).beforeTimeout a then (goto (.waitReadyTimeout a d) (.wait .check) (passTime s), .moves)
      else (returnValue (boolResult false) (passTime s), .moves) := rfl
  split at hstep
  · exact pausesWithin_of_moves hs hstep (check_pauses rfl rfl)
  · exact pausesWithin_of_moves hs hstep (pausesWithin_of_idle 1 rfl)

/-- What follows the sleep of a waiting command: a test or two, then its end or the next failed check. -/
theorem afterSleep_wait_pauses {i : Instr} (hi : posOf i (.wait .check) = true) (s : State) :
    PausesWithin (stepsOf i) 2 (afterSleep i s) := by
  cases i with
  | waitReady d => exact (check_pauses (s := goto _ _ s) rfl rfl).mono (by omega)
  | waitReadyRetry a d =>
    simp only [afterSleep, retryTest]
    split
    · exact (check_pauses rfl rfl).mono (by omega)
    · exact pausesWithin_of_idle 2 rfl
  | waitReadyTimeout a d => exact timeTest_pauses (s := goto _ _ s) rfl
  | _ => cases hi

/-! ## After the sleep of a `Read` -/

/-- The longest frame leaves room in the 200 steps that are budgeted for a read (log 3). -/
theorem frameSteps_le (sel : Selector) : frameSteps sel ≤ 189 := by
  cases sel <;> decide

/-- A `Read` fails its first check, or takes the steps of its frame (R103). -/
theorem read_pauses {i : Instr} {s : State} {k : Nat} (hr : readsFrames i = true)
    (hs : s.seq = .run i (.read readStart)) (hf : s.frame = .outside)
    (hafter : ∀ t, ReadDone s t → PausesWithin (stepsOf i) k (afterRead i t)) :
    PausesWithin (stepsOf i) (k + 189) s := by
  cases hd : (s.drawAt 0).dout with
  | true =>
    have hfails (m : Nat) := read_check_fails (stepsOf_read hr) m s hs hd
    have hone : PausesWithin (stepsOf i) 1 s := fun m hm => by
      obtain ⟨j, rfl⟩ := Nat.exists_eq_add_of_le' hm
      exact (hfails j).trans (hfails 0).symm
    exact hone.mono (by omega)
  | false =>
    obtain ⟨t, ht, hrun⟩ := read_frame (stepsOf_read hr) s hs hd hf
    have hlen := frameSteps_le s.sel
    exact ((hafter t ht).after hrun).mono (by omega)

/-- The reads an averaging command has still to make (R113). -/
theorem average_pauses {i : Instr} {n : Word} (hi : averagingCount i = some n) :
    ∀ (k : Nat) (s : State), s.seq = .run i (.read readStart) → s.frame = .outside → s.ctr.toNat = k + 1 →
      PausesWithin (stepsOf i) (189 * (k + 1)) s := by
  obtain ⟨-, -, hr⟩ := stepsOf_averaging hi
  intro k
  induction k with
  | zero =>
    intro s hs hf hc
    refine read_pauses (k := 0) hr hs hf fun t ht => ?_
    have hlast : t.ctr - 1 = 0 := by rw [ht.ctr]; bv_omega
    rw [afterRead_of_averaging hi, averageNext, if_pos hlast]
    exact pausesWithin_of_idle 0 (averageEnd_seq hi _)
  | succ k ih =>
    intro s hs hf hc
    refine read_pauses (k := 189 * (k + 1)) hr hs hf fun t ht => ?_
    have hctr : (t.ctr - 1).toNat = k + 1 := by rw [ht.ctr]; bv_omega
    have hmore : t.ctr - 1 ≠ 0 := fun h0 => Nat.succ_ne_zero k (hctr.symm.trans (congrArg BitVec.toNat h0))
    rw [afterRead_of_averaging hi, averageNext, if_neg hmore]
    exact ih _ rfl ht.frame hctr

/-- A command that makes one `Read` ends with it (R104, R106). -/
theorem afterRead_idle {i : Instr} (hr : readsFrames i = true) (hi : averagingCount i = none) (s : State) :
    (afterRead i s).seq = .idle := by
  cases i with
  | read => rfl
  | configure g => rfl
  | _ => first | exact of_true_eq_false hr.symm | cases hi

theorem stepBudget_of_not_averaging {i : Instr} (hi : averagingCount i = none) : stepBudget i = 200 := by
  cases i <;> first | rfl | cases hi

/-- What follows the sleep inside a `Read`: as many frames as the command has still to read, at most. -/
theorem afterSleep_read_pauses {i : Instr} {s : State} (hr : readsFrames i = true) (hf : s.frame = .outside)
    (hctr : ∀ n, averagingCount i = some n → 0 < s.ctr.toNat ∧ s.ctr.toNat ≤ n.toNat) :
    ∃ k, k + 2 ≤ stepBudget i ∧ PausesWithin (stepsOf i) k (afterSleep i s) := by
  rw [afterSleep_of_readsFrames hr]
  cases hi : averagingCount i with
  | none =>
    have hbudget := stepBudget_of_not_averaging hi
    exact ⟨189, by omega, read_pauses (k := 0) (s := goto _ _ s) hr rfl hf fun t _ =>
      pausesWithin_of_idle 0 (afterRead_idle hr hi t)⟩
  | some n =>
    obtain ⟨hpos, hle⟩ := hctr n hi
    obtain ⟨-, hbudget, -⟩ := stepsOf_averaging hi
    obtain ⟨k, hk⟩ := Nat.exists_eq_add_of_le' hpos
    exact ⟨189 * (k + 1), by omega, average_pauses hi k (goto i (.read readStart) s) rfl hf hk⟩

/-! ## The loading step -/

/-- The poll that follows the loading step, and what follows the poll, come to an end short of the budget. -/
theorem WaitsAt.pauses {i : Instr} {d : Word} {inside : WaitPos → Pos} {s : State} (h : WaitsAt i d inside s.cfg)
    (hs : s.seq = .run i (inside (.sleep .poll))) (hf : s.frame = .outside)
    (hctr : ∀ n, averagingCount i = some n → 0 < s.ctr.toNat ∧ s.ctr.toNat ≤ n.toNat) :
    ∃ k, k + 1 ≤ stepBudget i ∧ PausesWithin (stepsOf i) k s := by
  obtain ⟨k, hk, hafter⟩ : ∃ k, k + 2 ≤ stepBudget i ∧ PausesWithin (stepsOf i) k (afterSleep i (passTime s)) := by
    rcases id h with ⟨rfl, hi⟩ | ⟨-, -, hr⟩
    · have hbudget : stepBudget i = 200 := by rcases hi with rfl | ⟨a, rfl⟩ | ⟨a, rfl⟩ <;> rfl
      exact ⟨2, by omega, afterSleep_wait_pauses (h.posOf _) _⟩
    · exact afterSleep_read_pauses hr ((passTime_frame_outside s).2 hf) hctr
  exact ⟨k + 1, hk, h.poll_pauses hs hafter⟩

/-- Settles O30: the step that loads the sleep comes first, and the budget it takes from is not missed. -/
theorem sleepIsLoadedFirst : Obligations.SleepIsLoadedFirst := by
  intro i d inside s hf hwait hctr ⟨hb, hs⟩
  have hw : WaitsAt i d inside s.cfg := hwait
  obtain ⟨u, hu⟩ : ∃ u, u = { passTime s with
      slp := BitVec.ofNat 42 (1000 * d.toNat), seq := .run i (inside (.sleep .poll)) } := ⟨_, rfl⟩
  have hus : u.seq = .run i (inside (.sleep .poll)) := by rw [hu]
  have hub : u.busy = true := by rw [hu]; exact hb
  have huf : u.frame = .outside := by rw [hu]; exact (passTime_frame_outside s).2 hf
  have huw : WaitsAt i d inside u.cfg := by rw [hu]; exact hw
  obtain ⟨k, hk, hpauses⟩ := huw.pauses hus huf (by rw [hu]; exact hctr)
  obtain ⟨j, hj⟩ := Nat.exists_eq_add_of_le' (show 1 ≤ stepBudget i by omega)
  rw [← hu, exec_of_running i _ s hb hs (hw.posOf _), exec_of_running i _ u hub hus (hw.posOf _)]
  congr 1
  calc runSteps (stepsOf i) (stepBudget i) s = runSteps (stepsOf i) j u := by rw [hj, hw.runSteps_load j hs, hu]
    _ = runSteps (stepsOf i) k u := hpauses j (by omega)
    _ = runSteps (stepsOf i) (stepBudget i) u := (hpauses _ (by omega)).symm

end Sys2Proof.Machine
end

section
/-!
PROOFS. `SHIFT_IN` (41_shift.md R94 to R96): after its issue the 56 steps `shift_frame` describes, and the byte returned;
and a byte as the sum of its bits, least significant first and most significant first.
-/

namespace Sys2Proof.Machine

/-! ## `SHIFT_IN` -/

/-- Where a legal `bit_order` operand puts the `k`-th sample (R73, R94). -/
theorem bitOrderOf_of_legal {o : Word} (ho : o = 0 ∨ o = 1) :
    ∃ order, bitOrderOf o = some order ∧ ∀ k : Fin 8, bitIndex order k = if o = 0 then k.val else 7 - k.val := by
  rcases ho with rfl | rfl
  · exact ⟨.lsbFirst, rfl, fun _ => rfl⟩
  · exact ⟨.msbFirst, rfl, fun _ => rfl⟩

/-- `SHIFT_IN` with a legal order makes a shift-in and returns its byte (R94). -/
theorem stepsOf_shiftIn {o : Word} {order : BitOrder} (ho : bitOrderOf o = some order) (p : ShiftPos) (s : State) :
    stepsOf (.shiftIn o) (.shift p) s =
      calling (.shiftIn o) .shift (fun u => returnValue u.byt.toNat u) (shiftInStep order p s) := by
  simp only [stepsOf, shiftInSteps, ho]

/-- Issued on a block whose clock is bound it clears `BYT` and stands before its first rising edge (R85, R94). -/
theorem entry_shiftIn {o : Word} {order : BitOrder} {s : State} (ho : bitOrderOf o = some order)
    (hb : s.bound = true) :
    entryOf (.shiftIn o) (hostIssue (.shiftIn o) s) =
      goto (.shiftIn o) (.shift shiftStart) { hostIssue (.shiftIn o) s with byt := 0 } := by
  simp only [entryOf, shiftInEntry, argumentCheck, clockCheck, ho, Option.isSome_some, hostIssue_fields, hb, if_true]

/-- Settles O27: the budget of one step of the model is enough for the 56 steps, and neither the issue nor the return
writes a pin, `SHR` or the record. -/
theorem shiftInTakesEightSamples : Obligations.ShiftInTakesEightSamples := by
  intro o s ⟨hbusy, _⟩ hbound hlegal
  obtain ⟨order, ho, hindex⟩ := bitOrderOf_of_legal hlegal
  obtain ⟨u, hagree, -, hie, hsck, hshr, hbits, hwire, hchip, -, hrun⟩ := shift_frame (stepsOf_shiftIn ho) 144
    (goto (.shiftIn o) (.shift shiftStart) { hostIssue (.shiftIn o) s with byt := 0 }) rfl rfl
  have hexec : exec (.shiftIn o) s = .next (returnValue u.byt.toNat u) := by
    rw [exec_of_idle _ s hbusy, entry_shiftIn ho hbound]
    exact congrArg _ (hrun.trans (runSteps_of_idle _ _ _ rfl))
  refine ⟨_, hexec, { hagree with res := rfl }, ⟨returnValue_busy _ u, rfl⟩, rfl, fun k hk => ?_, hsck, hie, hshr, hwire,
    hchip⟩
  rw [← hindex ⟨k, hk⟩]
  exact hbits ⟨k, hk⟩

/-! ## The byte as a sum -/

/-- A word is the sum of its bits at their places. -/
theorem toNat_eq_sum_bits {w : Nat} (x : BitVec w) :
    x.toNat = ((List.range w).map fun k => (if x.getLsbD k then 1 else 0) * 2 ^ k).sum := by
  have hlow : ∀ n, x.toNat % 2 ^ n = ((List.range n).map fun k => (if x.getLsbD k then 1 else 0) * 2 ^ k).sum := by
    intro n
    induction n with
    | zero => simp [Nat.mod_one]
    | succ n ih =>
      rw [Nat.mod_pow_succ, ih, List.sum_range_succ, ← Nat.toNat_testBit, Nat.mul_comm, ← BitVec.getLsbD]
      cases x.getLsbD n <;> rfl
  rw [← hlow w, Nat.mod_eq_of_lt x.isLt]

/-- `Finset.sum_range_reflect`, for the sums over lists in which R95 is stated. -/
theorem sum_map_range_reflect (f : Nat → Nat) (n : Nat) :
    ((List.range n).map fun k => f (n - 1 - k)).sum = ((List.range n).map f).sum :=
  Finset.sum_range_reflect f n

/-- Settles O28: both bytes hold the same samples, at reversed places. -/
theorem shiftInRoundTrip : Obligations.ShiftInRoundTrip := by
  intro s hs hbound
  obtain ⟨l, hl, hlagree, -, -, hlbits, -⟩ := shiftInTakesEightSamples 0 s hs hbound (.inl rfl)
  obtain ⟨m, hm, hmagree, -, -, hmbits, -⟩ := shiftInTakesEightSamples 1 s hs hbound (.inr rfl)
  have hlsb : ∀ k < 8, l.byt.getLsbD k = (s.drawAt (3 + 7 * k)).dout := hlbits
  have hmsb : ∀ k < 8, m.byt.getLsbD (7 - k) = (s.drawAt (3 + 7 * k)).dout := hmbits
  refine ⟨l, m, hl, hm, ?_, ?_, fun q hq => (hlsb q hq).trans (hmsb q hq).symm⟩
  · calc l.res = l.byt.toNat := hlagree.res
      _ = ((List.range 8).map fun k => (if l.byt.getLsbD k then 1 else 0) * 2 ^ k).sum := toNat_eq_sum_bits _
      _ = _ := congrArg _ (List.map_congr_left fun k hk => by rw [hlsb k (List.mem_range.1 hk)])
  · calc m.res = m.byt.toNat := hmagree.res
      _ = ((List.range 8).map fun k => (if m.byt.getLsbD k then 1 else 0) * 2 ^ k).sum := toNat_eq_sum_bits _
      _ = ((List.range 8).map fun k => (if m.byt.getLsbD (7 - k) then 1 else 0) * 2 ^ (7 - k)).sum :=
        (sum_map_range_reflect (fun k => (if m.byt.getLsbD k then 1 else 0) * 2 ^ k) 8).symm
      _ = _ := congrArg _ (List.map_congr_left fun k hk => by rw [hmsb k (List.mem_range.1 hk)])

end Sys2Proof.Machine
end

section
/-!
PROOFS. The commands of the reader that are one step of `SEQ`: `IS_READY` (42_reader.md R98), `POWER_DOWN` (R107) and
`POWER_UP` (R108), and the chip's power-down under a clock held high (10_state.md R41).
-/

namespace Sys2Proof.Machine

/-! ## `IS_READY` -/

/-- A choice by readiness is one by the level of the line: the polarity is inverted (R28). -/
theorem ite_ready {α : Type} (s : State) (a b : α) : (if s.ready then a else b) = if s.dout then b else a := by
  cases h : s.dout <;> simp [State.ready, h]

/-- The result of a readiness test, by the level it sees (R98). -/
theorem boolResult_ready (s : State) : boolResult s.ready = if s.dout then 0 else 1 := ite_ready s 1 0

/-- Settles O29. -/
theorem isReadyReadsTheLine : Obligations.IsReadyReadsTheLine := by
  refine ⟨fun a b => (unusedOperandsIgnored.1 0x21 (by decide) a 0 b 0).trans (decode_encode .isReady), fun s hs => ?_⟩
  rw [exec_of_oneStep (i := .isReady) hs.1 rfl rfl rfl fun _ => rfl, boolResult_ready]
  rfl

/-! ## Time and the course of a command -/

/-- Time does not depend on where `SEQ` stands. -/
theorem passTime_goto (i : Instr) (p : Pos) (s : State) : passTime (goto i p s) = goto i p (passTime s) := rfl

/-- Nor on the issue of a command. -/
theorem passTime_hostIssue (i : Instr) (s : State) : passTime (hostIssue i s) = hostIssue i (passTime s) := rfl

/-- The level driven before a step is the next one after the step before it. -/
theorem passTime_drawAt_dout (s : State) (k : Nat) : ((passTime s).drawAt k).dout = (s.drawAt (k + 1)).dout :=
  congrArg Draw.dout (passTime_drawAt s k)

/-! ## The clock line held at a level -/

/-- `POWER_DOWN`: time passes, and `SCK` goes high (R107). -/
theorem exec_powerDown {s : State} (hb : s.busy = false) :
    exec .powerDown s = .next (finish (pinWrite true (passTime (hostIssue .powerDown s)))) :=
  exec_of_oneStep (i := .powerDown) (f := fun u => finish (pinWrite true u)) hb rfl rfl rfl fun _ => rfl

/-- `POWER_UP`: time passes, and `SCK` goes low (R108). -/
theorem exec_powerUp {s : State} (hb : s.busy = false) :
    exec .powerUp s = .next (finish (pinWrite false (passTime (hostIssue .powerUp s)))) :=
  exec_of_oneStep (i := .powerUp) (f := fun u => finish (pinWrite false u)) hb rfl rfl rfl fun _ => rfl

/-- A pin write that ends a command changes no register that outlives the command, no loop register and no result. -/
theorem agree_finish_pinWrite (v : Bool) (i : Instr) (s : State) :
    Agree s (finish (pinWrite v (passTime (hostIssue i s)))) := by
  constructor <;> simp

/-- Ticks with the clock low bring no power-down (R41). -/
theorem passTime_chipPd_of_low {s : State} (h : s.sck = false) : (passTime s).chipPd = s.chipPd := by
  change (s.chipPd || s.trips _) = _
  simp [State.trips, h]

@[simp] theorem iterate_tick_sck (m : Nat) (s : State) : (tick^[m] s).sck = s.sck := by
  induction m with
  | zero => rfl
  | succ m ih => rw [Function.iterate_succ_apply']; exact ih

/-- Each tick with the clock high is counted (R41). -/
theorem iterate_tick_highTicks {s : State} (h : s.sck = true) (m : Nat) :
    (tick^[m] s).highTicks = s.highTicks + m := by
  induction m with
  | zero => rfl
  | succ m ih =>
    rw [Function.iterate_succ_apply', tick_eq_elapse]
    simp [h, ih, Nat.add_assoc]

/-- A clock that has risen just now: the chip is powered down from its limit on, and not before (R41, log 13). -/
theorem iterate_tick_chipPd {s : State} (h : s.sck = true) (h0 : s.highTicks = 0) (m : Nat) :
    (tick^[m] s).chipPd = (s.chipPd || decide (pdTimeout ≤ m)) := by
  induction m with
  | zero => simp [pdTimeout]
  | succ m ih =>
    rw [Function.iterate_succ_apply', tick_eq_elapse]
    have htrips : (tick^[m] s).trips 1 = decide (pdTimeout ≤ m + 1) := by
      rw [trips_of_high (by simp [h]) Nat.one_pos, iterate_tick_highTicks h, h0, Nat.zero_add]
    have hmono : (decide (pdTimeout ≤ m) || decide (pdTimeout ≤ m + 1)) = decide (pdTimeout ≤ m + 1) := by
      rw [← Bool.decide_or]
      exact decide_eq_decide.2 (by omega)
    simp [ih, htrips, hmono, Bool.or_assoc]

/-- Settles O45. -/
theorem powerDownHoldsClockHigh : Obligations.PowerDownHoldsClockHigh := by
  intro s ⟨hb, _⟩
  refine ⟨_, exec_powerDown hb, agree_finish_pinWrite true _ s, ⟨finish_busy _, rfl⟩, rfl, rfl, rfl, rfl, rfl, rfl, ?_,
    fun hsck hf => ?_, fun hsck => ?_⟩
  · cases h : s.sck <;> simp [h]
  · have hrise : (passTime (hostIssue .powerDown s)).strayRise true = true := by
      have hout := (passTime_frame_outside (hostIssue .powerDown s)).2 hf
      simp [State.strayRise, hsck, hout]
    simp [hrise]
  · have hpd := passTime_chipPd_of_low (s := hostIssue .powerDown s) hsck
    have hhigh : (finish (pinWrite true (passTime (hostIssue .powerDown s)))).highTicks = 0 := by simp [hsck]
    have hchip : (finish (pinWrite true (passTime (hostIssue .powerDown s)))).chipPd = s.chipPd := by simp [hpd]
    refine ⟨hhigh, hchip, fun m => ⟨?_, ?_⟩⟩
    · rw [iterate_tick_highTicks rfl, hhigh, Nat.zero_add]
    · rw [iterate_tick_chipPd rfl hhigh, hchip]
      rfl

/-- Settles O46: a falling edge is no rise outside a frame, and a low line no power-down. -/
theorem powerUpHoldsClockLow : Obligations.PowerUpHoldsClockLow := by
  intro s ⟨hb, _⟩
  refine ⟨_, exec_powerUp hb, agree_finish_pinWrite false _ s, ⟨finish_busy _, rfl⟩, rfl, rfl, rfl, rfl, rfl, rfl, rfl,
    ?_, fun hf => ?_⟩
  · cases h : s.sck <;> simp [h]
  · obtain ⟨-, hsel, hgarbage⟩ := passTime_of_outside (hostIssue .powerUp s) hf
    simp [State.strayRise, hsel, hgarbage]

end Sys2Proof.Machine
end

section
/-!
PROOFS. The three waiting commands (42_reader.md R99 to R102): a poll of the sleep, a readiness check and a time test,
each said once of a run, and the commands put together from them.
-/

namespace Sys2Proof.Machine

/-! ## The poll of the sleep -/

/-- A poll that fails ends the step of the model; the one that ends the sleep is followed by what follows the sleep
(R87). -/
theorem WaitsAt.runSteps_poll {i : Instr} {d : Word} {inside : WaitPos → Pos} {s : State}
    (h : WaitsAt i d inside s.cfg) (k : Nat) (hs : s.seq = .run i (inside (.sleep .poll))) :
    runSteps (stepsOf i) (k + 1) s =
      if (passTime s).slp ≠ 0 then passTime s else runSteps (stepsOf i) k (afterSleep i (passTime s)) := by
  have hstep := WaitsAt.stepsOf_sleep (s := passTime s) h .poll
  rcases sleepStep_poll_cases d (passTime s) with ⟨hz, hpoll⟩ | ⟨hz, hpoll⟩ <;> rw [hpoll] at hstep
  · rw [if_neg (not_not.2 hz)]
    exact runSteps_of_moves _ k s _ i _ hs hstep
  · have hgoto : goto i (inside (.sleep .poll)) (passTime s) = passTime s := by rw [goto, ← hs]; rfl
    rw [if_pos hz]
    exact (runSteps_of_waits _ k s _ i _ hs hstep).trans hgoto

/-- A command in its sleep, in one step of the model. -/
theorem WaitsAt.exec_poll {i : Instr} {d : Word} {inside : WaitPos → Pos} {s : State} {k : Nat}
    (h : WaitsAt i d inside s.cfg) (hbudget : stepBudget i = k + 1) (hs : s.Running i (inside (.sleep .poll))) :
    exec i s = .next
      (if (passTime s).slp ≠ 0 then passTime s else runSteps (stepsOf i) k (afterSleep i (passTime s))) := by
  rw [exec_of_running i _ s hs.1 hs.2 (h.posOf _), hbudget, h.runSteps_poll k hs.2]

/-! ## The check -/

/-- What a waiting command performs with a check that succeeds: `WAIT_READY` ends, the other two return 1 (R100 to
R102). -/
def afterCheck : Instr → State → State
  | .waitReady _, s => finish s
  | _, s => returnValue 1 s

/-- Every waiting command checks in the same way. -/
theorem stepsOf_check {i : Instr} (hi : posOf i (.wait .check) = true) (s : State) :
    stepsOf i (.wait .check) s =
      if s.dout then (goto i (.wait (.sleep .load)) (noteCheck s), .waits)
      else (afterCheck i (noteCheck s), .moves) := by
  cases i with
  | waitReady d =>
    simp only [stepsOf, waitReadySteps]
    rcases waitReadyStep_check_cases d s with ⟨hd, e⟩ | ⟨hd, e⟩ <;> rw [e, hd] <;> rfl
  | waitReadyRetry a d => exact ite_ready s _ _
  | waitReadyTimeout a d => exact ite_ready s _ _
  | _ => cases hi

/-- A check leaves the command before a sleep, or ends it (R99, R101, R102). `STATUS`, `CTR` and `SEQ` stand apart from
the rest of the state, `a`, since time does not depend on them. -/
theorem runSteps_check {i : Instr} {a : State} {st : BitVec 5} {c : BitVec 32} {level : Bool} (k : Nat)
    (hi : posOf i (.wait .check) = true) (hd : (a.drawAt 0).dout = level) :
    runSteps (stepsOf i) (k + 1) { a with status := st, ctr := c, seq := .run i (.wait .check) } =
      if level then
        { passTime a with
          status := st, ctr := c, wire := .checked true :: a.wire, seq := .run i (.wait (.sleep .load)) }
      else afterCheck i { passTime a with status := st, ctr := c, wire := .checked false :: a.wire } := by
  have hstep : stepsOf i (.wait .check) { passTime a with status := st, ctr := c, seq := .run i (.wait .check) } =
      if level then
        ({ passTime a with
          status := st, ctr := c, wire := .checked true :: a.wire, seq := .run i (.wait (.sleep .load)) }, .waits)
      else
        (afterCheck i { passTime a with
          status := st, ctr := c, wire := .checked false :: a.wire, seq := .run i (.wait .check) }, .moves) := by
    have hdout : (passTime a).dout = level := hd
    rw [stepsOf_check hi, noteCheck]
    simp only [hdout]
    cases level <;> rfl
  cases level
  · refine (runSteps_of_moves _ k _ _ i _ rfl hstep).trans ((runSteps_of_idle _ _ _ ?_).trans ?_)
    · cases i <;> rfl
    · cases i <;> rfl
  · exact runSteps_of_waits _ k _ _ i _ rfl hstep

/-! ## `WAIT_READY` -/

/-- Settles O31. -/
theorem waitReadyChecksAndSleeps : Obligations.WaitReadyChecksAndSleeps := by
  refine ⟨fun d s ⟨hb, _⟩ => ?_, fun d s hs => ?_⟩
  · rw [exec_of_idle _ s hb]
    exact congrArg _ (runSteps_check (a := s) (st := 1) (c := s.ctr) 199 rfl rfl)
  · rw [WaitsAt.exec_poll (.inl ⟨rfl, .inl rfl⟩) rfl hs]
    dsimp only
    congr 2
    exact runSteps_check (a := passTime s) (st := s.status) (c := s.ctr) 198 rfl (passTime_drawAt_dout s 0)

/-! ## `WAIT_READY_RETRY` -/

/-- With no attempt left `WAIT_READY_RETRY` returns 0 (R101). -/
theorem retryTest_of_le {a d : Word} {s : State} (h : a.toNat ≤ s.ctr.toNat) : retryTest a d s = returnValue 0 s :=
  if_neg (Nat.not_lt.2 h)

/-- With one left it stands before a check (R101). -/
theorem retryTest_of_lt {a d : Word} {s : State} (h : s.ctr.toNat < a.toNat) :
    retryTest a d s = goto (.waitReadyRetry a d) (.wait .check) s :=
  if_pos h

/-- Settles O32. -/
theorem waitReadyRetryStarts : Obligations.WaitReadyRetryStarts := by
  refine ⟨fun d s ⟨hb, hs⟩ => ?_, fun a d s ⟨hb, _⟩ ha => ?_⟩
  · have hentry : entryOf (.waitReadyRetry 0 d) (hostIssue (.waitReadyRetry 0 d) s) =
        returnValue 0 { hostIssue (.waitReadyRetry 0 d) s with ctr := 0 } :=
      retryTest_of_le (a := 0) (d := d) (s := { hostIssue (.waitReadyRetry 0 d) s with ctr := 0 }) (Nat.le_refl 0)
    rw [exec_of_idle _ s hb, hentry, runSteps_of_idle _ _ _ rfl, returnValue, ← hs]
    rfl
  · have hentry : entryOf (.waitReadyRetry a d) (hostIssue (.waitReadyRetry a d) s) =
        goto (.waitReadyRetry a d) (.wait .check) { hostIssue (.waitReadyRetry a d) s with ctr := 0 } :=
      retryTest_of_lt ha
    rw [exec_of_idle _ s hb, hentry]
    exact congrArg _ (runSteps_check (a := s) (st := 1) (c := 0) 199 rfl rfl)

/-- Settles O33. -/
theorem waitReadyRetryCounts : Obligations.WaitReadyRetryCounts := by
  intro a d s hs
  rw [WaitsAt.exec_poll (.inl ⟨rfl, .inr (.inl ⟨a, rfl⟩)⟩) rfl hs]
  dsimp only
  congr 2
  split
  · rename_i hlast
    rw [afterSleep, retryTest_of_le hlast, runSteps_of_idle _ _ _ rfl]
    rfl
  · rename_i hmore
    rw [afterSleep, retryTest_of_lt (Nat.not_le.1 hmore)]
    exact runSteps_check (a := passTime s) (st := s.status) (c := s.ctr + 1) 198 rfl (passTime_drawAt_dout s 0)

/-! ## `WAIT_READY_TIMEOUT` -/

/-- The time test returns 0, or leads to a check, which leaves the command before a sleep or returns 1 (R102). Time does
not depend on `STATUS` and `SEQ`, which stand apart from the rest of the state, `a`. -/
theorem runSteps_timeTest {t d : Word} {a : State} {st : BitVec 5} {level : Bool} (k : Nat)
    (hd : (a.drawAt 1).dout = level) :
    runSteps (stepsOf (.waitReadyTimeout t d)) (k + 2)
        { a with status := st, seq := .run (.waitReadyTimeout t d) .timeTest } =
      if counterOperand a.cfg t ≤ subMod a.cfg.cw ((passTime a).cntRead / 1000) a.ts then
        { passTime a with res := 0, status := 0, seq := .idle }
      else if level then
        { passTime (passTime a) with
          wire := .checked true :: a.wire, status := st, seq := .run (.waitReadyTimeout t d) (.wait (.sleep .load)) }
      else
        { passTime (passTime a) with res := 1, wire := .checked false :: a.wire, status := 0, seq := .idle } := by
  have hstep : stepsOf (.waitReadyTimeout t d) .timeTest
        { passTime a with status := st, seq := .run (.waitReadyTimeout t d) .timeTest } =
      if decide (subMod a.cfg.cw ((passTime a).cntRead / 1000) a.ts < counterOperand a.cfg t) then
        ({ passTime a with status := st, seq := .run (.waitReadyTimeout t d) (.wait .check) }, .moves)
      else ({ passTime a with res := 0, status := 0, seq := .idle }, .moves) := rfl
  split
  · rename_i hover
    rw [decide_eq_false (Nat.not_lt.2 hover)] at hstep
    exact (runSteps_of_moves _ (k + 1) _ _ _ _ rfl hstep).trans (runSteps_of_idle _ _ _ rfl)
  · rename_i hbefore
    rw [decide_eq_true (Nat.not_le.1 hbefore)] at hstep
    have hdraw : ((passTime a).drawAt 0).dout = level := (passTime_drawAt_dout a 0).trans hd
    exact (runSteps_of_moves _ (k + 1) _ _ _ _ rfl hstep).trans
      (runSteps_check (a := passTime a) (st := st) (c := a.ctr) k rfl hdraw)

/-- Settles O34. -/
theorem waitReadyTimeoutStarts : Obligations.WaitReadyTimeoutStarts := by
  intro t d s ⟨hb, _⟩ hbound
  have hentry : entryOf (.waitReadyTimeout t d) (hostIssue (.waitReadyTimeout t d) s) =
      hostIssue (.waitReadyTimeout t d) s := if_pos hbound
  rw [exec_of_idle _ s hb, hentry]
  dsimp only
  obtain ⟨a, ha⟩ : ∃ a, a = { passTime s with ts := (passTime s).cntRead / 1000 } := ⟨_, rfl⟩
  have hlatch : runSteps (stepsOf (.waitReadyTimeout t d)) 200 (hostIssue (.waitReadyTimeout t d) s) =
      runSteps (stepsOf (.waitReadyTimeout t d)) 199
        { a with status := 1, seq := .run (.waitReadyTimeout t d) .timeTest } := by
    rw [ha]
    exact runSteps_of_moves _ 199 _ _ _ _ rfl rfl
  have hdraw : (a.drawAt 1).dout = (s.drawAt 2).dout := by
    rw [ha]
    exact passTime_drawAt_dout s 1
  have hcfg : a.cfg = s.cfg := by rw [ha]; rfl
  have hwire : a.wire = s.wire := by rw [ha]; rfl
  have hrun := hlatch.trans (runSteps_timeTest 197 hdraw)
  rw [hcfg, hwire] at hrun
  subst ha
  exact congrArg _ hrun

/-- Settles O35. -/
theorem waitReadyTimeoutGoesOn : Obligations.WaitReadyTimeoutGoesOn := by
  intro t d s hs
  rw [WaitsAt.exec_poll (.inl ⟨rfl, .inr (.inr ⟨t, rfl⟩)⟩) rfl hs]
  dsimp only
  have hrun := runSteps_timeTest (t := t) (d := d) (a := passTime s) (st := (passTime s).status) 197
    (passTime_drawAt_dout s 1)
  have hcfg : (passTime s).cfg = s.cfg := rfl
  have hts : (passTime s).ts = s.ts := rfl
  have hwire : (passTime s).wire = s.wire := rfl
  rw [hcfg, hts, hwire] at hrun
  exact congrArg (fun u => Host.Outcome.next (if (passTime s).slp ≠ 0 then passTime s else u)) hrun

end Sys2Proof.Machine
end

section
/-!
PROOFS. The waits that nothing bounds (42_reader.md R99, R110; 70_reset_and_hazards.md R156): `WAIT_READY` and the wait
inside a `Read`, on a chip that never turns ready. A step of the model takes at most three steps of `SEQ` there: the
sleep is loaded, polled, and the check after it fails.
-/

namespace Sys2Proof.Machine

/-! ## The steps of the wait -/

/-- `inside` are the positions of a wait of the command `i` that has no bound, `d` milliseconds between its checks. -/
def WaitsForever (i : Instr) (d : Word) (inside : WaitPos → Pos) (p : Params) : Prop :=
  (inside = .wait ∧ i = .waitReady d) ∨
    (inside = (fun w => .read (.wait w)) ∧ d = p.readPollDelay ∧ readsFrames i = true)

theorem WaitsForever.waitsAt {i : Instr} {d : Word} {inside : WaitPos → Pos} {p : Params}
    (h : WaitsForever i d inside p) : WaitsAt i d inside p :=
  h.imp (fun ⟨hin, hi⟩ => ⟨hin, .inl hi⟩) id

/-- Both waits make their steps by `WaitReady` (R99, R100, R103). -/
theorem WaitsForever.stepsOf_wait {i : Instr} {d : Word} {inside : WaitPos → Pos} {s : State}
    (h : WaitsForever i d inside s.cfg) (w : WaitPos) :
    ∃ after, stepsOf i (inside w) s = calling i inside after (waitReadyStep d w s) := by
  rcases h with ⟨rfl, rfl⟩ | ⟨rfl, rfl, hr⟩
  · exact ⟨finish, rfl⟩
  · refine ⟨goto i (.read .mask), ?_⟩
    rw [stepsOf_read hr, readStep]
    rcases waitReadyStep s.cfg.readPollDelay w s with ⟨u, _ | _ | _⟩ <;> rfl

/-- How many steps of `SEQ` lead from a position of the wait to its next failed test, at most. -/
def stepsToFailure : WaitPos → Nat
  | .check => 1
  | .sleep .poll => 2
  | .sleep .load => 3

theorem stepsToFailure_pos (w : WaitPos) : 0 < stepsToFailure w := by
  rcases w with _ | _ | _ <;> decide

theorem stepsToFailure_le (w : WaitPos) : stepsToFailure w ≤ 3 := by
  rcases w with _ | _ | _ <;> decide

/-- With `DOUT` high a step of `WaitReady` fails its test or comes nearer to the check that will (R87, R99). -/
theorem waitReadyStep_of_high (d : Word) (w : WaitPos) {s : State} (hd : s.dout = true) :
    ∃ w', (waitReadyStep d w s).2 = .waiting w' ∨
      ((waitReadyStep d w s).2 = .at_ w' ∧ stepsToFailure w' < stepsToFailure w) := by
  rcases w with _ | _ | _
  · exact ⟨.sleep .load, .inl (by simp [waitReadyStep, State.ready, hd])⟩
  · exact ⟨.sleep .poll, .inr ⟨rfl, by decide⟩⟩
  · rcases sleepStep_poll_cases d s with ⟨-, e⟩ | ⟨-, e⟩
    · exact ⟨.check, .inr ⟨by rw [waitReadyStep, e]; rfl, by decide⟩⟩
    · exact ⟨.sleep .poll, .inl (by rw [waitReadyStep, e]; rfl)⟩

/-- No step of `WaitReady` makes an edge (R99). -/
theorem waitReadyStep_count_rise (d : Word) (w : WaitPos) (s : State) :
    (waitReadyStep d w s).1.wire.count .rise = s.wire.count .rise := by
  cases w with
  | check => simp [waitReadyStep]
  | sleep p =>
    obtain ⟨v, hv⟩ := sleepStep_state d p s
    simp [waitReadyStep, hv]

/-! ## What a wait leaves alone -/

/-- `n` steps of `SEQ` inside a wait lead from `s` to `t`: no result, no pin driven, the environment `n` draws on. -/
structure Waited (n : Nat) (s t : State) : Prop where
  cfg : t.cfg = s.cfg
  busy : t.busy = s.busy
  res : t.res = s.res
  offset : t.offset = s.offset
  sck : t.sck = s.sck
  ie : t.ie = s.ie
  acc : t.acc = s.acc
  ctr : t.ctr = s.ctr
  rises : t.wire.count .rise = s.wire.count .rise
  draws : ∀ k, t.drawAt k = s.drawAt (k + n)

theorem Waited.refl (s : State) : Waited 0 s s :=
  ⟨rfl, rfl, rfl, rfl, rfl, rfl, rfl, rfl, rfl, fun _ => rfl⟩

theorem Waited.trans {n m : Nat} {s t u : State} (h : Waited n s t) (h' : Waited m t u) : Waited (n + m) s u where
  cfg := h'.cfg.trans h.cfg
  busy := h'.busy.trans h.busy
  res := h'.res.trans h.res
  offset := h'.offset.trans h.offset
  sck := h'.sck.trans h.sck
  ie := h'.ie.trans h.ie
  acc := h'.acc.trans h.acc
  ctr := h'.ctr.trans h.ctr
  rises := h'.rises.trans h.rises
  draws := fun k => by rw [h'.draws, h.draws, Nat.add_assoc, Nat.add_comm m n]

/-- One step of `SEQ` inside a wait. -/
theorem waited_step (i : Instr) (p : Pos) (d : Word) (w : WaitPos) (s : State) :
    Waited 1 s (goto i p (waitReadyStep d w (passTime s)).1) := by
  have hrises := waitReadyStep_count_rise d w (passTime s)
  obtain ⟨v, x, hstate, -⟩ := waitReadyStep_state d w (passTime s)
  rw [hstate] at hrises ⊢
  exact ⟨rfl, rfl, rfl, rfl, rfl, rfl, rfl, rfl, hrises, passTime_drawAt s⟩

/-! ## The wait -/

/-- A run in such a wait, the line high for as long as it takes to fail a test: it stays in the wait. -/
theorem WaitsForever.runSteps_stays {i : Instr} {d : Word} {inside : WaitPos → Pos} {p : Params}
    (h : WaitsForever i d inside p) :
    ∀ (m : Nat) (w : WaitPos) (s : State), s.cfg = p → s.seq = .run i (inside w) →
      (∀ j < stepsToFailure w, (s.drawAt j).dout = true) →
      ∃ n w', n ≤ stepsToFailure w ∧ Waited n s (runSteps (stepsOf i) m s) ∧
        (runSteps (stepsOf i) m s).seq = .run i (inside w') := by
  intro m
  induction m with
  | zero => exact fun w s _ hs _ => ⟨0, w, Nat.zero_le _, Waited.refl s, hs⟩
  | succ m ih =>
    intro w s hp hs hd
    obtain ⟨after, hstep⟩ := WaitsForever.stepsOf_wait (s := passTime s) (hp ▸ h) w
    have hhigh : (passTime s).dout = true := hd 0 (stepsToFailure_pos w)
    obtain ⟨w', hout | ⟨hout, hnear⟩⟩ := waitReadyStep_of_high d w hhigh
    · rw [calling, hout] at hstep
      rw [runSteps_of_waits _ m s _ i _ hs hstep]
      exact ⟨1, w', stepsToFailure_pos w, waited_step i _ d w s, rfl⟩
    · rw [calling, hout] at hstep
      have hone := waited_step i (inside w') d w s
      obtain ⟨n, v, hn, hmany, hv⟩ := ih w' _ (hone.cfg.trans hp) rfl fun j hj => by
        rw [hone.draws]
        exact hd (j + 1) (by omega)
      rw [runSteps_of_moves _ m s _ i _ hs hstep]
      exact ⟨1 + n, v, by omega, hone.trans hmany, hv⟩

/-- A step of the model in such a wait takes at most three draws, and stays in the wait while they are high. -/
theorem WaitsForever.step_stays {i : Instr} {d : Word} {inside : WaitPos → Pos} {s : State} {w : WaitPos}
    (h : WaitsForever i d inside s.cfg) (hs : s.Running i (inside w)) (hd : ∀ j < 3, (s.drawAt j).dout = true) :
    ∃ t n w', step s = .next t ∧ n ≤ 3 ∧ Waited n s t ∧ t.seq = .run i (inside w') := by
  have hle := stepsToFailure_le w
  obtain ⟨n, w', hn, hwaited, hseq⟩ := h.runSteps_stays (stepBudget i) w s rfl hs.2 fun j hj => hd j (by omega)
  refine ⟨_, n, w', ?_, hn.trans hle, hwaited, hseq⟩
  rw [step_of_running s i _ hs, exec_of_running i _ s hs.1 hs.2 (h.waitsAt.posOf w)]

/-- A run of the machine goes on from the next state. -/
theorem run_succ_of_next {s t : State} (k : Nat) (h : step s = .next t) :
    Sys2Proof.core.run (k + 1) s = Sys2Proof.core.run k t := by
  have hcore : Sys2Proof.core.step s = .next t := h
  simp only [Host.Core.run, hcore]

/-- A wait that has no bound does not end on a chip that is never ready (R110, R156). -/
theorem WaitsForever.run_stays {i : Instr} {d : Word} {inside : WaitPos → Pos} {p : Params}
    (h : WaitsForever i d inside p) :
    ∀ (k : Nat) (w : WaitPos) (s : State), s.cfg = p → s.Running i (inside w) →
      (∀ j < 3 * k, (s.drawAt j).dout = true) →
      ∃ t n w', Sys2Proof.core.run k s = .next t ∧ Waited n s t ∧ t.seq = .run i (inside w') := by
  intro k
  induction k with
  | zero => exact fun w s _ hs _ => ⟨s, 0, w, rfl, Waited.refl s, hs.2⟩
  | succ k ih =>
    intro w s hp hs hd
    obtain ⟨t, n, w', hstep, hn, hone, hseq⟩ :=
      WaitsForever.step_stays (s := s) (hp ▸ h) hs fun j hj => hd j (by omega)
    obtain ⟨u, m, v, hrun, hmany, hu⟩ := ih w' t (hone.cfg.trans hp) ⟨hone.busy.trans hs.1, hseq⟩ fun j hj => by
      rw [hone.draws]
      exact hd (j + n) (by omega)
    exact ⟨u, n + m, v, (run_succ_of_next k hstep).trans hrun, hone.trans hmany, hu⟩

/-- Settles O36. -/
theorem unboundedWaitsNeverEnd : Obligations.UnboundedWaitsNeverEnd := by
  intro k i s hwait hd
  rcases hwait with ⟨d, w, rfl, hs⟩ | ⟨w, hr, hs⟩
  · have hw : WaitsForever (.waitReady d) d .wait s.cfg := .inl ⟨rfl, rfl⟩
    obtain ⟨t, _, w', hrun, ht, hseq⟩ := hw.run_stays k w s rfl hs hd
    exact ⟨t, hrun, ht.busy.trans hs.1, ht.res, ht.offset, ht.sck, ht.ie, ht.acc, ht.ctr, ht.rises, .inl ⟨w', hseq⟩⟩
  · have hw : WaitsForever i s.cfg.readPollDelay (fun w => .read (.wait w)) s.cfg := .inr ⟨rfl, rfl, hr⟩
    obtain ⟨t, _, w', hrun, ht, hseq⟩ := hw.run_stays k w s rfl hs hd
    exact ⟨t, hrun, ht.busy.trans hs.1, ht.res, ht.offset, ht.sck, ht.ie, ht.acc, ht.ctr, ht.rises, .inr ⟨w', hseq⟩⟩

end Sys2Proof.Machine
end

section
/-!
PROOFS. `READ` and `CONFIGURE` (42_reader.md R103 to R106): issued on a chip that is ready or is not, resumed after a
sleep, and the selection the chip converts under (10_state.md R40).
-/

namespace Sys2Proof.Machine

/-! ## A read and what follows it -/

/-- A `Read` changes no register that outlives a command, no loop register and no result (R103). -/
theorem ReadDone.agree {s t : State} (h : ReadDone s t) : Agree s t :=
  ⟨h.cfg, h.program, h.res, h.acc, h.ctr, h.ts, h.bound, h.csel, h.sel, h.offset, h.scale⟩

theorem Agree.trans {s t u : State} (h : Agree s t) (h' : Agree t u) : Agree s u where
  cfg := h'.cfg.trans h.cfg
  program := h'.program.trans h.program
  res := h'.res.trans h.res
  acc := h'.acc.trans h.acc
  ctr := h'.ctr.trans h.ctr
  ts := h'.ts.trans h.ts
  bound := h'.bound.trans h.bound
  csel := h'.csel.trans h.csel
  sel := h'.sel.trans h.sel
  offset := h'.offset.trans h.offset
  scale := h'.scale.trans h.scale

/-- The state in which a command that made one `Read` of the word `w` leaves the block. -/
structure EndsAfterFrame (w : SampleWord) (t : State) : Prop where
  rest : t.AtRest
  status : t.status = 0
  shr : t.shr = w
  sck : t.sck = false
  ie : t.ie = true

/-- `READ` returns the sample of its frame (R104). -/
theorem ReadDone.returned {s v u : State} {w : SampleWord} (h : ReadDone v u) (hs : Agree s v) (hx : 24 ≤ s.cfg.xw)
    (hw : v.Delivers 0 w) :
    Agree { s with res := signedPattern s.cfg.rw w.toInt } (afterRead .read u) ∧
      EndsAfterFrame w (afterRead .read u) := by
  have hu := hs.trans h.agree
  have hres : (afterRead .read u).res = signedPattern s.cfg.rw w.toInt := by
    rw [← sampleResult_sample s.cfg hx, ← hu.cfg, ← h.shr hw]
    rfl
  exact ⟨{ hu with res := hres }, ⟨returnValue_busy _ u, rfl⟩, rfl, h.shr hw, h.sck, h.ie⟩

/-- `CONFIGURE` drops it (R106). -/
theorem ReadDone.dropped {s v u : State} {w : SampleWord} (g : Word) (h : ReadDone v u) (hs : Agree s v)
    (hw : v.Delivers 0 w) : Agree s (afterRead (.configure g) u) ∧ EndsAfterFrame w (afterRead (.configure g) u) :=
  ⟨{ hs.trans h.agree with }, ⟨finish_busy u, rfl⟩, rfl, h.shr hw, h.sck, h.ie⟩

/-- A read entered with `SCK` low makes a rising edge for each bit and for each trailing pulse (R67). -/
theorem ReadDone.count_rise {s t : State} (h : ReadDone s t) (hsck : s.sck = false) :
    t.wire.count .rise = s.wire.count .rise + (24 + pulses s.sel) := by
  simp [h.wire, hsck, frameEvents_count_rise, Nat.add_comm]

/-- A command that makes one `Read`, at a check that succeeds: the frame, and its end, within the budget of a step. -/
theorem runSteps_of_ready {i : Instr} {s : State} {n : Nat} (hr : readsFrames i = true) (hi : averagingCount i = none)
    (hn : 189 ≤ n) (hs : s.seq = .run i (.read readStart)) (hf : s.frame = .outside) (hd : (s.drawAt 0).dout = false) :
    ∃ u, ReadDone s u ∧ runSteps (stepsOf i) n s = afterRead i u := by
  obtain ⟨u, hu, hrun⟩ := read_frame (stepsOf_read hr) s hs hd hf
  have hle := frameSteps_le s.sel
  obtain ⟨k, rfl⟩ := Nat.exists_eq_add_of_le' (show frameSteps s.sel ≤ n by omega)
  exact ⟨u, hu, (hrun k).trans (runSteps_of_idle _ _ _ (afterRead_idle hr hi u))⟩

/-- The issue of a command writes nothing but `STATUS` and `SEQ` (R14). -/
theorem goto_hostIssue_agree (i : Instr) (p : Pos) (s : State) : Agree s (goto i p (hostIssue i s)) := by
  constructor <;> rfl

/-- Settles O38. -/
theorem readReturnsTheSample : Obligations.ReadReturnsTheSample := by
  intro s w ⟨_, hx, _⟩ ⟨hs, _⟩ hb hf hw
  obtain ⟨u, hu, hexec⟩ := exec_read_of_ready hs hb hf hw.1
  obtain ⟨hagree, hend⟩ := hu.returned (goto_hostIssue_agree _ _ s) hx hw
  exact ⟨_, hexec, hagree, hend.rest, hend.status, hend.shr, hend.sck, hend.ie⟩

/-! ## `CONFIGURE` before its frame -/

/-- The state in which `CONFIGURE`, its gain code that of `x`, stands before its first check: `SEL` is written and `SCK`
is low (R106, log 20). -/
def configured (g : Word) (x : Selector) (s : State) : State :=
  { pinWrite false { passTime s with sel := x } with status := 1, seq := .run (.configure g) (.read readStart) }

section
variable (g : Word) (x : Selector) (s : State)

theorem configured_agree : Agree { s with sel := x } (configured g x s) := by
  constructor <;> rfl

theorem configured_drawAt (k : Nat) : (configured g x s).drawAt k = s.drawAt (k + 1) := passTime_drawAt s k

/-- `SCK` falls if it was high (R106). -/
theorem configured_wire : (configured g x s).wire = if s.sck then .fall :: s.wire else s.wire := by
  cases h : s.sck <;> simp [configured, h]

variable {s}

theorem configured_frame (hf : s.frame = .outside) : (configured g x s).frame = .outside := (passTime_of_outside s hf).1

/-- A low clock arms nothing (R40). -/
theorem configured_chipSel (hf : s.frame = .outside) : (configured g x s).chipSel = s.chipSel :=
  (passTime_of_outside s hf).2.1

end

/-- `CONFIGURE` issued on an idle block whose clock is bound: its first step leads to its first check (R106). -/
theorem exec_configure {g : Word} {x : Selector} {s : State} (hg : selectorOfGain g = some x) (hs : s.busy = false)
    (hb : s.bound = true) :
    exec (.configure g) s = .next (runSteps (stepsOf (.configure g)) 199 (configured g x s)) := by
  have hentry : entryOf (.configure g) (hostIssue (.configure g) s) = { hostIssue (.configure g) s with sel := x } := by
    simp only [entryOf, configureEntry, argumentCheck, clockCheck, selectGain, hg, Option.isSome_some, hostIssue_fields,
      hb, if_true, Option.getD_some]
  rw [exec_of_idle _ s hs, hentry]
  exact congrArg _ (runSteps_of_moves _ 199 _ _ _ _ rfl rfl)

/-- `CONFIGURE` on a chip that is ready at its first check. -/
theorem exec_configure_of_ready {g : Word} {x : Selector} {s : State} (hg : selectorOfGain g = some x)
    (hs : s.busy = false) (hb : s.bound = true) (hf : s.frame = .outside) (hready : (s.drawAt 1).dout = false) :
    ∃ u, ReadDone (configured g x s) u ∧ exec (.configure g) s = .next (afterRead (.configure g) u) := by
  have hd : ((configured g x s).drawAt 0).dout = false := (congrArg Draw.dout (configured_drawAt g x s 0)).trans hready
  obtain ⟨u, hu, hrun⟩ := runSteps_of_ready (i := .configure g) (n := 199) rfl rfl (by omega) rfl
    (configured_frame g x hf) hd
  exact ⟨u, hu, (exec_configure hg hs hb).trans (congrArg _ hrun)⟩

/-- Settles O43. -/
theorem configureReadsOneFrame : Obligations.ConfigureReadsOneFrame := by
  intro g x s w hg ⟨hs, _⟩ hb hf hw
  obtain ⟨u, hu, hexec⟩ := exec_configure_of_ready hg hs hb hf hw.1
  have hwc : (configured g x s).Delivers 0 w := delivers_shift (configured_drawAt g x s) 0 hw
  obtain ⟨hagree, hend⟩ := hu.dropped g (configured_agree g x s) hwc
  refine ⟨_, hexec, hagree, hend.rest, hend.status, hend.shr, hend.sck, hend.ie, ?_, hu.whole rfl⟩
  rw [← configured_wire g x s]
  exact hu.wire_of_delivers hwc

/-- Settles O44: the frame of `CONFIGURE` is converted under what was armed before, and arms what that of `READ` is. -/
theorem selectionTakesEffectAfterOneRead : Obligations.SelectionTakesEffectAfterOneRead := by
  intro g x s v w hg ⟨_, hx, _⟩ ⟨hs, _⟩ hb hf hmax hv hw
  obtain ⟨u, hu, hexec⟩ := exec_configure_of_ready hg hs hb hf hv.1
  have hagree := (configured_agree g x s).trans hu.agree
  have hdraws : ∀ k, u.drawAt k = s.drawAt (k + (1 + frameSteps x)) := fun k => by
    rw [hu.draws, configured_drawAt, Nat.add_assoc, Nat.add_comm 1]
    rfl
  have hwu : u.Delivers 0 w := delivers_shift hdraws 0 (by rwa [Nat.zero_add])
  obtain ⟨y, hy, hread⟩ := exec_read_of_ready (s := finish u) (finish_busy u) (hagree.bound.trans hb) hu.frame hwu.1
  obtain ⟨hreturn, hend⟩ := hy.returned (goto_hostIssue_agree _ _ (finish u))
    (hx.trans_eq (congrArg Params.xw hagree.cfg.symm)) hwu
  obtain ⟨harmed, -⟩ := hu.whole rfl hmax
  obtain ⟨hkept, htrusted⟩ := hy.whole hu.sck (by rw [← hagree.cfg] at hmax; exact hmax)
  have hsel : u.sel = x := hagree.sel
  refine ⟨_, _, hexec, hread, hend.rest, ?_, hu.sampleSel.trans (configured_chipSel g x hf), hy.sampleSel.trans harmed,
    hkept.trans (congrArg _ hsel), htrusted, ?_⟩
  · exact hreturn.res.trans (congrArg (fun p : Params => signedPattern p.rw w.toInt) hagree.cfg)
  · have hfirst : u.wire.count .rise = s.wire.count .rise + (24 + pulses x) := by
      rw [hu.count_rise rfl, configured_wire, (configured_agree g x s).sel]
      cases s.sck <;> simp
    calc y.wire.count .rise = u.wire.count .rise + (24 + pulses u.sel) := hy.count_rise hu.sck
      _ = s.wire.count .rise + (24 + pulses x) + (24 + pulses x) := by rw [hfirst, hsel]

/-! ## The wait inside a `Read` -/

/-- One step of the model may take 200 steps of `SEQ`, but in an averaging command that is to make no read. -/
theorem two_hundred_le_stepBudget {i : Instr} (hi : averagingCount i ≠ some 0) : 200 ≤ stepBudget i := by
  cases h : averagingCount i with
  | none => exact (stepBudget_of_not_averaging h).ge
  | some n =>
    obtain ⟨-, hbudget, -⟩ := stepsOf_averaging h
    have hn : n ≠ 0 := fun h0 => hi (h.trans (congrArg some h0))
    have hpos : n.toNat ≠ 0 := fun h0 => hn (BitVec.eq_of_toNat_eq h0)
    omega

/-- A command asleep inside a `Read`: a poll, and once the sleep is over the next check (R87, R99). -/
theorem exec_of_asleep {i : Instr} {s : State} (hr : readsFrames i = true) (hi : averagingCount i ≠ some 0)
    (hs : s.Running i (.read (.wait (.sleep .poll)))) :
    ∃ k, exec i s = .next (if (passTime s).slp ≠ 0 then passTime s
      else runSteps (stepsOf i) (k + 199) (goto i (.read readStart) (passTime s))) := by
  obtain ⟨k, hk⟩ := Nat.exists_eq_add_of_le' (two_hundred_le_stepBudget hi)
  rw [← afterSleep_of_readsFrames hr]
  exact ⟨k, WaitsAt.exec_poll (.inr ⟨rfl, rfl, hr⟩) hk hs⟩

/-- A command that makes one `Read`, its sleep over and the chip ready at the check after it. -/
theorem exec_after_sleep_of_ready {i : Instr} {s : State} (hr : readsFrames i = true) (hi : averagingCount i = none)
    (hs : s.Running i (.read (.wait (.sleep .poll)))) (hf : s.frame = .outside) (hz : (passTime s).slp = 0)
    (hready : (s.drawAt 1).dout = false) :
    ∃ u, ReadDone (goto i (.read readStart) (passTime s)) u ∧ exec i s = .next (afterRead i u) := by
  obtain ⟨k, hexec⟩ := exec_of_asleep hr (by rw [hi]; nofun) hs
  rw [if_neg (not_not.2 hz)] at hexec
  have hd : ((passTime s).drawAt 0).dout = false := (passTime_drawAt_dout s 0).trans hready
  obtain ⟨u, hu, hrun⟩ := runSteps_of_ready (s := goto i (.read readStart) (passTime s)) (n := k + 199) hr hi (by omega)
    rfl ((passTime_frame_outside s).2 hf) hd
  exact ⟨u, hu, hexec.trans (congrArg _ hrun)⟩

/-- `READ` issued on a chip that is not ready (R99, R104). -/
theorem exec_read_of_not_ready {s : State} (hs : s.busy = false) (hb : s.bound = true) (hd : (s.drawAt 0).dout = true) :
    exec .read s = .next { passTime s with
      wire := .checked true :: s.wire, status := 1, seq := .run .read (.read (.wait (.sleep .load))) } := by
  have hfails := read_check_fails (stepsOf_read (i := .read) rfl) 199 (goto .read (.read readStart) (hostIssue .read s))
    rfl hd
  rw [passTime_goto, passTime_hostIssue] at hfails
  rw [exec_of_idle _ s hs, entry_read hb]
  exact congrArg _ hfails

/-- `CONFIGURE` issued on a chip that is not ready (R99, R106). -/
theorem exec_configure_of_not_ready {g : Word} {x : Selector} {s : State} (hg : selectorOfGain g = some x)
    (hs : s.busy = false) (hb : s.bound = true) (hd : (s.drawAt 1).dout = true) :
    exec (.configure g) s = .next { passTime (pinWrite false { passTime s with sel := x }) with
      wire := .checked true :: (if s.sck then .fall :: s.wire else s.wire), status := 1,
      seq := .run (.configure g) (.read (.wait (.sleep .load))) } := by
  have hlevel : ((configured g x s).drawAt 0).dout = true := (congrArg Draw.dout (configured_drawAt g x s 0)).trans hd
  have hfails := read_check_fails (stepsOf_read (i := .configure g) rfl) 198 _ rfl hlevel
  rw [exec_configure hg hs hb, hfails, configured_wire]
  rfl

/-- A check after a sleep that fails is followed by the next sleep (R99). -/
theorem exec_after_sleep_of_not_ready {i : Instr} {s : State} (hr : readsFrames i = true)
    (hi : averagingCount i ≠ some 0)
    (hs : s.Running i (.read (.wait (.sleep .poll)))) (hz : (passTime s).slp = 0) (hd : (s.drawAt 1).dout = true) :
    exec i s = .next { passTime (passTime s) with
      wire := .checked true :: s.wire, seq := .run i (.read (.wait (.sleep .load))) } := by
  obtain ⟨k, hexec⟩ := exec_of_asleep hr hi hs
  have hlevel : ((passTime s).drawAt 0).dout = true := (passTime_drawAt_dout s 0).trans hd
  have hfails := read_check_fails (stepsOf_read hr) (k + 198) (goto i (.read readStart) (passTime s)) rfl hlevel
  rw [passTime_goto] at hfails
  rw [hexec, if_neg (not_not.2 hz)]
  exact congrArg _ hfails

/-- A frame delivered after the poll that ends the sleep. -/
theorem delivers_after_poll {i : Instr} {s : State} {w : SampleWord} (hw : s.Delivers 1 w) :
    (goto i (.read readStart) (passTime s)).Delivers 0 w :=
  delivers_shift (s := s) (passTime_drawAt s) 0 hw

theorem goto_passTime_agree (i : Instr) (p : Pos) (s : State) : Agree s (goto i p (passTime s)) := by
  constructor <;> rfl

/-- Settles O41. -/
theorem readWaitsForReady : Obligations.ReadWaitsForReady := by
  refine ⟨fun s ⟨hs, _⟩ hb hd => exec_read_of_not_ready hs hb hd,
    fun g x s hg ⟨hs, _⟩ hb hd => exec_configure_of_not_ready hg hs hb hd,
    fun i s hr hi hs hz => ?_,
    fun i s hr hi hs hz hd => exec_after_sleep_of_not_ready hr hi hs hz hd,
    fun s w ⟨_, hx, _⟩ hs hf hz hw => ?_, fun g s w hs hf hz hw => ?_⟩
  · obtain ⟨k, hexec⟩ := exec_of_asleep hr hi hs
    rw [hexec, if_pos hz]
  · obtain ⟨u, hu, hexec⟩ := exec_after_sleep_of_ready rfl rfl hs hf hz hw.1
    obtain ⟨hagree, hend⟩ := hu.returned (goto_passTime_agree _ _ s) hx (delivers_after_poll hw)
    exact ⟨_, hexec, hagree, hend.rest, hend.status, hend.shr, hend.sck, hend.ie⟩
  · obtain ⟨u, hu, hexec⟩ := exec_after_sleep_of_ready rfl rfl hs hf hz hw.1
    obtain ⟨hagree, hend⟩ := hu.dropped g (goto_passTime_agree _ _ s) (delivers_after_poll hw)
    exact ⟨_, hexec, hagree, hend.rest, hend.status, hend.shr, hend.sck, hend.ie⟩

end Sys2Proof.Machine
end

section
/-!
PROOFS. The accessors of `SCALE` and of `OFFSET` (43_calibration.md R122 to R125): their effect on an idle block, in
one step or with their issue.
-/

namespace Sys2Proof.Machine

/-- A command that ends with its issue, on an idle block: its entry is all it does (R12, log 6). -/
theorem exec_of_entry_idle {i : Instr} {s : State} (hb : s.busy = false)
    (hentry : (entryOf i (hostIssue i s)).seq = .idle) : exec i s = .next (entryOf i (hostIssue i s)) := by
  rw [exec_of_idle i s hb, runSteps_of_idle _ _ _ hentry]

/-- A value returned where `SEQ` is idle already (R12). -/
theorem returnValue_of_idle (v : Nat) {s : State} (hs : s.seq = .idle) :
    returnValue v s = { s with res := v, status := 0 } := by
  rw [returnValue, ← hs]
  rfl

/-- `GET_SCALE` on an idle block (R123). -/
theorem exec_getScale {s : State} (hs : s.AtRest) :
    exec .getScale s = .next { s with res := s.scale, status := 0 } :=
  (exec_of_entry_idle hs.1 rfl).trans (congrArg _ (returnValue_of_idle s.scale hs.2))

/-- `GET_OFFSET` on an idle block (R125). -/
theorem exec_getOffset {s : State} (hs : s.AtRest) :
    exec .getOffset s = .next { s with res := signedPattern s.cfg.rw s.offset.toInt, status := 0 } := by
  have hres : offsetResult s.cfg s.offset = signedPattern s.cfg.rw s.offset.toInt := by
    rw [offsetResult, sext, signedValue_toInt]
  rw [← hres]
  exact (exec_of_entry_idle hs.1 rfl).trans (congrArg _ (returnValue_of_idle _ hs.2))

/-- `SET_SCALE` on an idle block (R122). -/
theorem exec_setScale (a b : Word) {s : State} (hs : s.AtRest) :
    exec (.setScale a b) s =
      .next { passTime s with scale := scaleOperand s.cfg a b, status := 0, seq := .idle } :=
  exec_of_oneStep (i := .setScale a b) hs.1 rfl rfl rfl fun _ => rfl

/-- The two operands as one number (R122). -/
theorem scaleOperand_eq (p : Params) (a b : Word) :
    scaleOperand p a b = (b.toNat * 2 ^ 32 + a.toNat) % 2 ^ p.fw := by
  rw [scaleOperand, BitVec.toNat_append, ← Nat.shiftLeft_add_eq_or_of_lt a.isLt, Nat.shiftLeft_eq]

theorem scaleOperand_testBit (p : Params) (a b : Word) {k : Nat} (hk : k < p.fw) :
    (scaleOperand p a b).testBit k = (b ++ a : BitVec 64).getLsbD k := by
  rw [scaleOperand, Nat.testBit_mod_two_pow, decide_eq_true hk, Bool.true_and]
  rfl

/-- Settles O54. -/
theorem scaleAccessors : Obligations.ScaleAccessors := by
  refine ⟨fun a b => ⟨decode_encode (.setScale a b), ?_⟩, fun a b s hs => ?_, fun s hs => exec_getScale hs,
    fun _ => rfl, fun a b s hs => ?_⟩
  · exact (unusedOperandsIgnored.1 0x35 (by decide) a 0 b 0).trans (decode_encode .getScale)
  · rw [exec_setScale a b hs, scaleOperand_eq]
  · have hrest : State.AtRest { passTime s with scale := scaleOperand s.cfg a b, status := 0, seq := .idle } :=
      ⟨statusWord_busy 0 false, rfl⟩
    exact ⟨_, _, exec_setScale a b hs, exec_getScale hrest, fun k hk => scaleOperand_testBit s.cfg a b hk⟩

/-- Settles O55. -/
theorem offsetAccessors : Obligations.OffsetAccessors := by
  refine ⟨fun a b => ⟨?_, ?_⟩, fun a s hs => ?_, fun s hs => exec_getOffset hs, fun _ => rfl⟩
  · exact (unusedOperandsIgnored.2 0x36 (by decide) a b 0).trans (decode_encode (.setOffset a))
  · exact (unusedOperandsIgnored.1 0x37 (by decide) a 0 b 0).trans (decode_encode .getOffset)
  · exact exec_of_oneStep (i := .setOffset a) hs.1 rfl rfl rfl fun _ => rfl

end Sys2Proof.Machine
end

section
/-!
PROOFS. Integers in binary32 (43_calibration.md R116, log 10): one of at most 24 bits is shifted up to a significand and
packed, nothing is rounded off, and the pattern is read back as the integer it was.
-/

namespace Sys2Proof.Machine

/-- A significand of 24 bits with an exponent in range, packed with its sign, is read back (log 10). -/
theorem f32Unpack_pack (neg : Bool) {x q : Nat} (hx : x ≤ 253) (h1 : 2 ^ 23 ≤ q) (h2 : q < 2 ^ 24) :
    f32Unpack (f32Sign neg + (x * 2 ^ 23 + q)) = .num neg q ((x : Int) - 149) := by
  obtain ⟨v, hv⟩ : ∃ v, v = f32Sign neg + (x * 2 ^ 23 + q) := ⟨_, rfl⟩
  have hsign : f32Sign neg = neg.toNat * 2 ^ 31 := by cases neg <;> rfl
  have hneg : v.testBit 31 = neg := by
    rw [Nat.testBit_eq_decide_div_mod_eq, show v / 2 ^ 31 = neg.toNat by omega]
    cases neg <;> rfl
  have hexp : v / 2 ^ 23 % 2 ^ 8 = x + 1 := by omega
  have hfrac : v % 2 ^ 23 = q - 2 ^ 23 := by omega
  rw [← hv, f32Unpack]
  simp only [hneg, hexp, hfrac]
  rw [if_neg (by omega), if_neg (by omega), Nat.sub_add_cancel h1]
  congr 1
  omega

/-- A number of at most 24 bits, shifted up until its highest bit is bit 23. -/
theorem normalized_mem {m : Nat} (h0 : m ≠ 0) (h1 : m < 2 ^ 24) :
    2 ^ 23 ≤ m * 2 ^ (23 - m.log2) ∧ m * 2 ^ (23 - m.log2) < 2 ^ 24 := by
  have hlog : m.log2 < 24 := (Nat.log2_lt h0).2 h1
  constructor
  · calc 2 ^ 23 = 2 ^ m.log2 * 2 ^ (23 - m.log2) := by rw [← Nat.pow_add]; congr 1; omega
      _ ≤ m * 2 ^ (23 - m.log2) := Nat.mul_le_mul_right _ (Nat.log2_self_le h0)
  · calc m * 2 ^ (23 - m.log2) < 2 ^ (m.log2 + 1) * 2 ^ (23 - m.log2) :=
          Nat.mul_lt_mul_of_pos_right Nat.lt_log2_self (Nat.two_pow_pos _)
      _ = 2 ^ 24 := by rw [← Nat.pow_add]; congr 1; omega

/-- A number below `2^24` is shifted up to 24 bits, and nothing is rounded off. -/
theorem f32Round_of_lt (neg : Bool) {m : Nat} (h0 : m ≠ 0) (h1 : m < 2 ^ 24) :
    f32Round neg m 0 = f32Sign neg + ((126 + m.log2) * 2 ^ 23 + m * 2 ^ (23 - m.log2)) := by
  have hlog : m.log2 < 24 := (Nat.log2_lt h0).2 h1
  obtain ⟨-, hq⟩ := normalized_mem h0 h1
  have hunit : max ((0 : Int) + (m.log2 : Int) - 23) (-149) = (m.log2 : Int) - 23 := by omega
  have hexp : ((m.log2 : Int) - 23 + 149).toNat = 126 + m.log2 := by omega
  have hshift : ((0 : Int) - ((m.log2 : Int) - 23)).toNat = 23 - m.log2 := by omega
  have hexact : (m.log2 : Int) - 23 ≤ 0 := by omega
  simp only [f32Round, if_neg h0, hunit, hexp, hshift, if_pos hexact]
  rw [if_neg (by omega)]

/-- The pattern of an integer up to `2^24` in magnitude stands for it (R116, log 10). -/
theorem f32Unpack_ofInt {v : Int} (hv : v.natAbs ≤ 2 ^ 24) :
    ∃ m e, f32Unpack (f32OfInt v) = .num (decide (v < 0)) m e ∧ 0 ≤ e + 149 ∧
      m * 2 ^ (e + 149).toNat = v.natAbs * 2 ^ 149 := by
  rw [f32OfInt]
  generalize hneg : decide (v < 0) = neg
  rcases Nat.eq_zero_or_pos v.natAbs with h0 | hpos
  · obtain rfl : neg = false := by rw [← hneg]; exact decide_eq_false (by omega)
    rw [h0]
    exact ⟨0, -149, rfl, by norm_num, by norm_num⟩
  rcases hv.eq_or_lt with htop | hlt
  · have hround : f32Round neg (2 ^ 24) 0 = f32Sign neg + (150 * 2 ^ 23 + 2 ^ 23) := by cases neg <;> decide
    rw [htop, hround, f32Unpack_pack neg (by omega) (by omega) (by omega)]
    exact ⟨_, _, rfl, by decide, by decide⟩
  · obtain ⟨hlow, hhigh⟩ := normalized_mem hpos.ne' hlt
    have hlog : v.natAbs.log2 < 24 := (Nat.log2_lt hpos.ne').2 hlt
    rw [f32Round_of_lt neg hpos.ne' hlt, f32Unpack_pack neg (by omega) hlow hhigh]
    refine ⟨_, _, rfl, by omega, ?_⟩
    rw [show (((126 + v.natAbs.log2 : Nat) : Int) - 149 + 149).toNat = 126 + v.natAbs.log2 by omega, Nat.mul_assoc,
      ← Nat.pow_add]
    congr 2
    omega

/-- Settles O53. -/
theorem binary32IntegersAreExact : Obligations.Binary32IntegersAreExact := fun _ hv => f32Unpack_ofInt hv

/-- A number less itself is the zero pattern (log 10). -/
theorem f32Sub_self {a m : Nat} {neg : Bool} {e : Int} (h : f32Unpack a = .num neg m e) : f32Sub a a = 0 := by
  simp [f32Sub, h, f32Sign]

/-- So the difference of two equal samples is 0: they are integers that binary32 holds (R119). -/
theorem f32Sub_ofInt_self {v : Int} (hv : v.natAbs ≤ 2 ^ 24) : f32Sub (f32OfInt v) (f32OfInt v) = 0 := by
  obtain ⟨m, e, hunpack, -⟩ := f32Unpack_ofInt hv
  exact f32Sub_self hunpack

end Sys2Proof.Machine
end

section
/-!
PROOFS. The averaging commands (43_calibration.md R113 to R121): where such a command stands before a read, what the
frames delivered there lead to, and what it makes of the mean of its samples. Issued or resumed after a sleep, a command
goes on in the same way, so that both share these lemmas.
-/

namespace Sys2Proof.Machine

/-! ## The mean -/

/-- Settles O51. -/
theorem meanTruncatesTowardZero : Obligations.MeanTruncatesTowardZero := by
  refine ⟨fun p n words ⟨_, hx, _⟩ hn => mean_value p hx words n hn, fun n words lo hi hn h => ?_, fun n sum _ => ?_⟩
  · obtain ⟨hlo, hhi⟩ := sampleSum_between words lo hi n.toNat h
    have hpos : 0 < n.toNat := Nat.pos_of_ne_zero fun h0 => hn (BitVec.eq_of_toNat_eq h0)
    exact tdiv_between n.toNat _ lo hi hpos hlo hhi
  · refine ⟨fun hsum => Int.tdiv_eq_ediv_of_nonneg hsum, fun hsum => ?_⟩
    rw [← Int.tdiv_eq_ediv_of_nonneg (by omega), Int.neg_tdiv, neg_neg]

/-- The mean of `n` samples, truncated toward zero (R113, R114). -/
def meanOf (words : Nat → SampleWord) (n : Word) : Int := (sampleSum words n.toNat).tdiv n.toNat

/-- The mean of samples is in the range of a sample (R114). -/
theorem meanOf_range (words : Nat → SampleWord) {n : Word} (hn : n ≠ 0) :
    -8388608 ≤ meanOf words n ∧ meanOf words n ≤ 8388607 :=
  meanTruncatesTowardZero.2.1 n words _ _ hn fun f _ => toInt24 (words f)

/-- The mean as `RES` holds it (R75, R115). -/
theorem sampleResult_mean {p : Params} (hx : 24 ≤ p.xw) (words : Nat → SampleWord) {n : Word} (hn : n ≠ 0) :
    sampleResult p (mean p (BitVec.ofInt 64 (sampleSum words n.toNat)) n) = signedPattern p.rw (meanOf words n) := by
  rw [sampleResult, sext, mean_value p hx words n hn, meanOf]

/-- A number in the range of a sample is the value of its pattern of 24 bits or more. -/
theorem toInt_ofInt_sample {w : Nat} (hw : 24 ≤ w) {v : Int} (h : -8388608 ≤ v ∧ v ≤ 8388607) :
    (BitVec.ofInt w v).toInt = v := by
  have hpow : 2 ^ 24 ≤ 2 ^ w := Nat.pow_le_pow_right (by norm_num) hw
  rw [BitVec.toInt_ofInt]
  exact Int.bmod_eq_of_le (by omega) (by omega)

/-- A number in the range of a sample, stored in `OFFSET` by way of an `XW`-bit pattern (R121). -/
theorem offsetOfMean_signedPattern {xw : Nat} (hx : 24 ≤ xw) {v : Int} (h : -8388608 ≤ v ∧ v ≤ 8388607) :
    offsetOfMean (signedPattern xw v) = BitVec.ofInt 32 v := by
  have hlow : BitVec.ofNat 24 (signedPattern xw v) = BitVec.ofInt 24 v := by
    have hdvd : ((2 ^ 24 : Nat) : Int) ∣ (2 ^ xw : Nat) := Int.natCast_dvd_natCast.2 (pow_dvd_pow 2 hx)
    have hmod := Int.emod_emod_of_dvd v hdvd
    have hpos := Int.emod_nonneg v (Int.natCast_ne_zero.2 (Nat.two_pow_pos xw).ne')
    apply BitVec.eq_of_toNat_eq
    rw [BitVec.toNat_ofNat, BitVec.toNat_ofInt, signedPattern]
    omega
  rw [offsetOfMean, hlow, BitVec.signExtend, toInt_ofInt_sample (by norm_num) h]

/-- The mean as `TARE` stores it (R121). -/
theorem offsetOfMean_mean {p : Params} (hx : 24 ≤ p.xw) (words : Nat → SampleWord) {n : Word} (hn : n ≠ 0) :
    offsetOfMean (mean p (BitVec.ofInt 64 (sampleSum words n.toNat)) n) = BitVec.ofInt 32 (meanOf words n) := by
  rw [mean, toInt_sampleSum _ _ n.isLt]
  exact offsetOfMean_signedPattern hx (meanOf_range words hn)

/-! ## The end of the command -/

theorem Agree.refl (s : State) : Agree s s := by
  constructor <;> rfl

/-- What a command makes of a mean rests on registers two states agree on. -/
theorem Agree.averageResult {s t : State} (h : Agree s t) (i : Instr) (v : Int) :
    Agree (averageResult i v s) (averageResult i v t) := by
  cases i with
  | readAverage n => exact { h with res := by simp only [Machine.averageResult, h.cfg] }
  | getValue n => exact { h with res := by simp only [Machine.averageResult, h.cfg, h.offset] }
  | getUnits n => exact { h with res := by simp only [Machine.averageResult, h.cfg, h.offset, h.scale] }
  | tare n => exact { h with offset := rfl }
  | _ => exact h

/-- With the sum of its `n` samples in `ACC`, an averaging command makes of it what the spec does of their mean (R115,
R117, R118, R121). -/
theorem averageEnd_agree {i : Instr} {n : Word} {words : Nat → SampleWord} {s : State} (hi : averagingCount i = some n)
    (hn : n ≠ 0) (hx : 24 ≤ s.cfg.xw) (hacc : s.acc = BitVec.ofInt 64 (sampleSum words n.toNat)) :
    Agree (averageResult i (meanOf words n) s) (averageEnd i s) := by
  have hmean : s.average n = mean s.cfg (BitVec.ofInt 64 (sampleSum words n.toNat)) n := by rw [State.average, hacc]
  have hvalue : s.value n =
      floatSub s.cfg.fmt (floatOfInt s.cfg.fmt (meanOf words n)) (floatOfInt s.cfg.fmt s.offset.toInt) := by
    rw [State.value, hmean, mean_value s.cfg hx words n hn, meanOf]
  cases i with
  | readAverage m =>
    cases hi
    exact { Agree.refl s with res := (congrArg (sampleResult s.cfg) hmean).trans (sampleResult_mean hx words hn) }
  | getValue m =>
    cases hi
    exact { Agree.refl s with res := hvalue }
  | getUnits m =>
    cases hi
    exact { Agree.refl s with res := congrArg (floatDiv s.cfg.fmt · s.scale) hvalue }
  | tare m =>
    cases hi
    exact { Agree.refl s with offset := (congrArg offsetOfMean hmean).trans (offsetOfMean_mean hx words hn) }
  | _ => cases hi

/-- An averaging command ends with success, and leaves the rest of the state as its last read did. -/
theorem averageEnd_ends {i : Instr} {n : Word} {s : State} (hi : averagingCount i = some n) (hsck : s.sck = false)
    (hie : s.ie = true) : EndsAfterFrame s.shr (averageEnd i s) := by
  cases i <;> first | exact ⟨⟨statusWord_busy 0 false, rfl⟩, rfl, rfl, hsck, hie⟩ | cases hi

theorem averageEnd_frame (i : Instr) (s : State) : (averageEnd i s).frame = s.frame := by
  cases i <;> rfl

theorem averageEnd_drawAt (i : Instr) (s : State) (k : Nat) : (averageEnd i s).drawAt k = s.drawAt k := by
  cases i <;> rfl

/-! ## Between two reads -/

theorem sampleSum_add (words : Nat → SampleWord) (j k : Nat) :
    sampleSum words (j + k) = sampleSum words j + sampleSum (fun f => words (j + f)) k := by
  induction k with
  | zero => simp
  | succ k ih => rw [← Nat.add_assoc, sampleSum_succ, sampleSum_succ, ih, Int.add_assoc]

/-- Reads change no register but `ACC` and `CTR` that two states are asked to agree on (R113). -/
theorem AveragePart.agree {i : Instr} {k : Nat} {words : Nat → SampleWord} {s t : State}
    (h : AveragePart i k words s t) : Agree { s with acc := t.acc, ctr := t.ctr } t :=
  ⟨h.cfg, h.program, h.res, rfl, rfl, h.ts, h.bound, h.csel, h.sel, h.offset, h.scale⟩

theorem AverageDone.agree {n : Nat} {words : Nat → SampleWord} {s t : State} (h : AverageDone n words s t) :
    Agree { s with acc := t.acc, ctr := t.ctr } t :=
  ⟨h.cfg, h.program, h.res, rfl, rfl, h.ts, h.bound, h.csel, h.sel, h.offset, h.scale⟩

/-- Of a sum and a count written twice the later ones stand. -/
theorem Agree.counted {s v t : State} {a a' : BitVec 64} {c c' : BitVec 32} (h : Agree { s with acc := a, ctr := c } v)
    (h' : Agree { v with acc := a', ctr := c' } t) : Agree { s with acc := a', ctr := c' } t :=
  have hwritten : Agree { s with acc := a', ctr := c' } { v with acc := a', ctr := c' } :=
    { h with acc := rfl, ctr := rfl }
  hwritten.trans h'

/-- In `v` the command `i`, of `n` reads, has read `j` samples of `words` and stands before the next read; the registers
of `Agree` but `ACC` and `CTR` are as in `s` (R113). -/
structure Averaging (i : Instr) (n : Word) (words : Nat → SampleWord) (j : Nat) (s v : State) : Prop where
  seq : v.seq = .run i (.read readStart)
  frame : v.frame = .outside
  agree : Agree { s with acc := BitVec.ofInt 64 (sampleSum words j), ctr := BitVec.ofNat 32 (n.toNat - j) } v

/-- From `v`, `k` frames on and with `m` samples read in all, the command has failed a check and stands before a sleep
(R99, R113). -/
structure AverageWaits (i : Instr) (n : Word) (words : Nat → SampleWord) (m k : Nat) (s v t : State) : Prop where
  seq : t.seq = .run i (.read (.wait (.sleep .load)))
  status : t.status = v.status
  frame : t.frame = .outside
  agree : Agree { s with acc := BitVec.ofInt 64 (sampleSum words m), ctr := BitVec.ofNat 32 (n.toNat - m) } t
  first : k = 0 → t.sck = v.sck ∧ t.ie = v.ie ∧ t.shr = v.shr ∧ t.wire = .checked true :: v.wire
  later : 0 < k → t.sck = false ∧ t.ie = true ∧ t.shr = words (m - 1)
  draws : ∀ l, t.drawAt l = v.drawAt (l + k * frameSteps s.sel + 1)

/-- From `v`, `k` frames on, the command has ended with the result of all its samples (R113 to R121). -/
structure AverageEnds (i : Instr) (n : Word) (words : Nat → SampleWord) (k : Nat) (s v t : State) : Prop where
  ends : EndsAfterFrame (words (n.toNat - 1)) t
  frame : t.frame = .outside
  agree : Agree (averageResult i (meanOf words n)
    { s with acc := BitVec.ofInt 64 (sampleSum words n.toNat), ctr := 0 }) t
  draws : ∀ l, t.drawAt l = v.drawAt (l + k * frameSteps s.sel)

/-- No frame takes more than 189 of the 200 steps that are budgeted for it (log 3). -/
theorem frames_le (k : Nat) (sel : Selector) : k * frameSteps sel ≤ k * 189 := Nat.mul_le_mul_left k (frameSteps_le sel)

section
variable {i : Instr} {n : Word} {words : Nat → SampleWord} {j k m b : Nat} {s v t : State}

theorem Averaging.sel (h : Averaging i n words j s v) : v.sel = s.sel := h.agree.sel

theorem Averaging.toNat_ctr (h : Averaging i n words j s v) : v.ctr.toNat = n.toNat - j := by
  have hctr : v.ctr = BitVec.ofNat 32 (n.toNat - j) := h.agree.ctr
  have hn := n.isLt
  rw [hctr, BitVec.toNat_ofNat]
  omega

/-- The sum after `k` more samples. -/
theorem Averaging.acc_add (h : Averaging i n words j s v) (k : Nat) :
    v.acc + BitVec.ofInt 64 (sampleSum (fun f => words (j + f)) k) = BitVec.ofInt 64 (sampleSum words (j + k)) := by
  have hacc : v.acc = BitVec.ofInt 64 (sampleSum words j) := h.agree.acc
  rw [hacc, sampleSum_add, BitVec.ofInt_add]

/-- `k` frames delivered, and more to come: the command stands before the next read. -/
theorem Averaging.reads (h : Averaging i n words j s v) (hi : averagingCount i = some n) (hx : 24 ≤ s.cfg.xw)
    (hjk : j + k < n.toNat) (hw : ∀ f < k, v.Delivers (f * frameSteps s.sel) (words (j + f))) :
    ∃ u, AveragePart i k (fun f => words (j + f)) v u ∧ Averaging i n words (j + k) s u ∧
      ∀ b, runSteps (stepsOf i) (b + k * frameSteps s.sel) v = runSteps (stepsOf i) b u := by
  obtain ⟨hsteps, -⟩ := stepsOf_averaging hi
  have hctr := h.toNat_ctr
  have hxv : 24 ≤ v.cfg.xw := h.agree.cfg ▸ hx
  rw [← h.sel] at hw ⊢
  rw [hsteps]
  obtain ⟨u, hu, hrun⟩ :=
    average_part (after := averageEnd i) (fun f => words (j + f)) k v h.seq h.frame hxv (by omega) hw
  have hleft : u.ctr = BitVec.ofNat 32 (n.toNat - (j + k)) := by
    have hn := n.isLt
    apply BitVec.eq_of_toNat_eq
    rw [hu.ctr, BitVec.toNat_ofNat]
    omega
  have hagree : Agree { s with
      acc := BitVec.ofInt 64 (sampleSum words (j + k)), ctr := BitVec.ofNat 32 (n.toNat - (j + k)) } u :=
    { h.agree.counted hu.agree with acc := hu.acc.trans (h.acc_add k), ctr := hleft }
  exact ⟨u, hu, ⟨hu.seq, hu.frame, hagree⟩, hrun⟩

/-- `k` frames delivered and the check after them high: the command stands before a sleep (R99). -/
theorem Averaging.waits (h : Averaging i n words j s v) (hi : averagingCount i = some n) (hx : 24 ≤ s.cfg.xw)
    (hjk : j + k = m) (hm : m < n.toNat) (hw : ∀ f < k, v.Delivers (f * frameSteps s.sel) (words (j + f)))
    (hd : (v.drawAt (k * frameSteps s.sel)).dout = true) (hb : k * 189 < b) :
    AverageWaits i n words m k s v (runSteps (stepsOf i) b v) := by
  subst hjk
  obtain ⟨-, -, hr⟩ := stepsOf_averaging hi
  obtain ⟨u, hu, hread, hrun⟩ := h.reads hi hx hm hw
  have hlen := frames_le k s.sel
  obtain ⟨c, rfl⟩ := Nat.exists_eq_add_of_le' (show k * frameSteps s.sel + 1 ≤ b by omega)
  have hdraws : ∀ l, u.drawAt l = v.drawAt (l + k * frameSteps s.sel) := h.sel ▸ hu.draws
  have hhigh : (u.drawAt 0).dout = true := by rw [hdraws, Nat.zero_add]; exact hd
  rw [show c + (k * frameSteps s.sel + 1) = c + 1 + k * frameSteps s.sel by omega, hrun,
    read_check_fails (stepsOf_read hr) c u hread.seq hhigh]
  refine ⟨rfl, hu.status, (passTime_frame_outside u).2 hu.frame, ?_, fun hk => ?_, fun hk => ?_, fun l => ?_⟩
  · exact hread.agree.trans (by constructor <;> rfl)
  · rw [hu.none hk]
    exact ⟨rfl, rfl, rfl, rfl⟩
  · obtain ⟨hie, hsck, hshr⟩ := hu.last hk
    exact ⟨hsck, hie, hshr.trans (congrArg words (by omega))⟩
  · exact (passTime_drawAt u l).trans ((hdraws _).trans (congrArg _ (by omega)))

theorem AverageWaits.busy (h : AverageWaits i n words m k s v t) : t.busy = v.busy := congrArg (·.getLsbD 0) h.status

theorem AverageWaits.faultField (h : AverageWaits i n words m k s v t) : t.faultField = v.faultField :=
  congrArg (·.extractLsb' 1 4) h.status

/-- All the frames that were left are delivered: the command ends (R113). -/
theorem Averaging.ends (h : Averaging i n words j s v) (hi : averagingCount i = some n) (hx : 24 ≤ s.cfg.xw)
    (hk : 0 < k) (hjk : j + k = n.toNat) (hw : ∀ f < k, v.Delivers (f * frameSteps s.sel) (words (j + f)))
    (hb : k * 189 ≤ b) : AverageEnds i n words k s v (runSteps (stepsOf i) b v) := by
  obtain ⟨hsteps, -⟩ := stepsOf_averaging hi
  have hctr := h.toNat_ctr
  have hxv : 24 ≤ v.cfg.xw := h.agree.cfg ▸ hx
  have hpos : n.toNat ≠ 0 := by omega
  have hn : n ≠ 0 := fun h0 => hpos (congrArg BitVec.toNat h0)
  have hlen := frames_le k s.sel
  obtain ⟨c, rfl⟩ := Nat.exists_eq_add_of_le' (show k * frameSteps s.sel ≤ b by omega)
  obtain ⟨m, rfl⟩ := Nat.exists_eq_add_of_le' hk
  rw [← h.sel] at hw ⊢
  obtain ⟨u, hu, hrun⟩ :=
    average_frames (after := averageEnd i) m v (fun f => words (j + f)) h.seq h.frame hxv (by omega) hw
  have hacc : u.acc = BitVec.ofInt 64 (sampleSum words n.toNat) := by rw [hu.acc, h.acc_add, hjk]
  have hshr : u.shr = words (n.toNat - 1) := hu.shr.trans (congrArg words (by omega))
  have hagree : Agree { s with acc := BitVec.ofInt 64 (sampleSum words n.toNat), ctr := 0 } u :=
    { h.agree.counted hu.agree with acc := hacc, ctr := hu.ctr }
  rw [hsteps, hrun, runSteps_of_idle _ _ _ (averageEnd_seq hi u)]
  exact ⟨hshr ▸ averageEnd_ends hi hu.sck hu.ie, (averageEnd_frame i u).trans hu.frame,
    (hagree.averageResult i _).trans (averageEnd_agree hi hn (hagree.cfg ▸ hx) hacc),
    fun l => (averageEnd_drawAt i u l).trans (h.sel ▸ hu.draws l)⟩

/-- The end of the command, as the statements list it. -/
theorem AverageEnds.outcome (h : AverageEnds i n words k s v t) :
    t.AtRest ∧ t.status = 0 ∧ t.sck = false ∧ t.ie = true ∧ t.shr = words (n.toNat - 1) ∧
      Agree (averageResult i (meanOf words n)
        { s with acc := BitVec.ofInt 64 (sampleSum words n.toNat), ctr := 0 }) t :=
  ⟨h.ends.rest, h.ends.status, h.ends.sck, h.ends.ie, h.ends.shr, h.agree⟩

end

/-! ## Issued, and resumed after a sleep -/

section
variable {i : Instr} {n : Word} {words : Nat → SampleWord} {s : State}

/-- An accepted averaging command begins before its first read (R113). -/
theorem averaging_issued (hf : s.frame = .outside) : Averaging i n words 0 s (averageStart i n (hostIssue i s)) :=
  have hctr : n = BitVec.ofNat 32 (n.toNat - 0) := by simp
  ⟨rfl, hf, { goto_hostIssue_agree i (.read readStart) s with acc := rfl, ctr := hctr }⟩

/-- Frames delivered to a command as it is issued. -/
theorem delivers_after_issue {f l : Nat} (hw : s.Delivers l (words f)) :
    (averageStart i n (hostIssue i s)).Delivers l (words (0 + f)) :=
  (Nat.zero_add f).symm ▸ hw

theorem exec_averaging_issued (hi : averagingCount i = some n) (hs : s.AtRest) (ha : accepted i s = true) :
    exec i s = .next (runSteps (stepsOf i) (200 * n.toNat) (averageStart i n (hostIssue i s))) := by
  obtain ⟨-, hbudget, -⟩ := stepsOf_averaging hi
  rw [exec_of_idle i s hs.1, entry_averaging hi ha, hbudget]

/-- Its sleep over, the command stands before the next read (R87, R99). -/
theorem averaging_resumed {j : Nat} (hf : s.frame = .outside) (hacc : s.acc = BitVec.ofInt 64 (sampleSum words j))
    (hctr : s.ctr.toNat = n.toNat - j) : Averaging i n words j s (goto i (.read readStart) (passTime s)) := by
  have hleft : s.ctr = BitVec.ofNat 32 (n.toNat - j) := by rw [← hctr]; simp
  exact ⟨rfl, (passTime_frame_outside s).2 hf,
    { goto_passTime_agree i (.read readStart) s with acc := hacc, ctr := hleft }⟩

theorem exec_averaging_resumed (hi : averagingCount i = some n) (hn : 0 < n.toNat)
    (hs : s.Running i (.read (.wait (.sleep .poll)))) (hz : (passTime s).slp = 0) :
    exec i s = .next (runSteps (stepsOf i) (200 * n.toNat - 1) (goto i (.read readStart) (passTime s))) := by
  obtain ⟨-, hbudget, hr⟩ := stepsOf_averaging hi
  rw [WaitsAt.exec_poll (k := 200 * n.toNat - 1) (.inr ⟨rfl, rfl, hr⟩) (by omega) hs, if_neg (not_not.2 hz),
    afterSleep_of_readsFrames hr]

/-- Frames delivered after the poll that ends the sleep, by their place after it. -/
theorem delivers_after_resume {w : SampleWord} {l : Nat} (hw : s.Delivers (1 + l) w) :
    (goto i (.read readStart) (passTime s)).Delivers l w :=
  delivers_shift (s := s) (passTime_drawAt s) l (Nat.add_comm 1 l ▸ hw)

/-- Settles O60. -/
theorem averagingWaitsForReady : Obligations.AveragingWaitsForReady := by
  intro i n words s hi ⟨_, hx, _⟩ hf
  refine ⟨fun k hk hs ha hw hd => ?_, fun j k hj hs hz hctr hacc hw => ?_⟩
  · have h := (averaging_issued hf).waits (b := 200 * n.toNat) hi hx (Nat.zero_add k) hk
      (fun f hlt => delivers_after_issue (hw f hlt)) hd (by omega)
    exact ⟨_, exec_averaging_issued hi hs ha, ⟨h.busy.trans (hostIssue_busy i s), h.seq⟩,
      h.faultField.trans (hostIssue_faultField i s), h.frame, h.agree, h.first, h.later, h.draws⟩
  · have hexec := exec_averaging_resumed hi (by omega) hs hz
    have h := averaging_resumed (i := i) hf hacc hctr
    have hwp : ∀ f < k, (goto i (.read readStart) (passTime s)).Delivers (f * frameSteps s.sel) (words (j + f)) :=
      fun f hlt => delivers_after_resume (hw f hlt)
    refine ⟨fun hjk hd => ?_, fun hjk => ?_⟩
    · have hhigh : ((passTime s).drawAt (k * frameSteps s.sel)).dout = true :=
        (passTime_drawAt_dout s _).trans (Nat.add_comm 1 _ ▸ hd)
      have hwaits := h.waits (b := 200 * n.toNat - 1) hi hx rfl hjk hwp hhigh (by omega)
      exact ⟨_, hexec, ⟨hwaits.busy.trans hs.1, hwaits.seq⟩, hwaits.status, hwaits.frame, hwaits.agree, hwaits.later,
        fun l => (hwaits.draws l).trans (passTime_drawAt s _)⟩
    · have hends := h.ends (b := 200 * n.toNat - 1) hi hx (by omega) hjk hwp (by omega)
      exact ⟨_, hexec, hends.outcome⟩

/-- An averaging command is accepted where its count is not 0, the clock is bound and `SCALE` does not refuse it (R77,
R85, R118). -/
theorem accepted_averaging (hi : averagingCount i = some n) (hn : n ≠ 0) (hb : s.bound = true)
    (hscale : scaleOk i s = true) : accepted i s = true := by
  have hw : i.wellFormed s.cfg.nctr = true := by
    cases i <;> first | (cases hi; exact bne_iff_ne.2 hn) | cases hi
  exact accepted_of_tests hw (.inr hb) hscale

/-- Issued on a chip that is ready for each of its frames, the command ends in one step of the model (R113). -/
theorem exec_averaging_ends (hi : averagingCount i = some n) (hn : n ≠ 0) (hv : s.cfg.Valid) (hs : s.AtRest)
    (hb : s.bound = true) (hscale : scaleOk i s = true) (hf : s.frame = .outside)
    (hw : ∀ f < n.toNat, s.Delivers (f * frameSteps s.sel) (words f)) :
    ∃ t, exec i s = .next t ∧ AverageEnds i n words n.toNat s s t := by
  obtain ⟨-, hx, -⟩ := hv
  have hpos : 0 < n.toNat := Nat.pos_of_ne_zero fun h0 => hn (BitVec.eq_of_toNat_eq h0)
  have h := (averaging_issued hf).ends (b := 200 * n.toNat) hi hx hpos (Nat.zero_add _)
    (fun f hlt => delivers_after_issue (hw f hlt)) (by omega)
  exact ⟨_, exec_averaging_issued hi hs (accepted_averaging hi hn hb hscale), h.ends, h.frame, h.agree, h.draws⟩

end

/-! ## The four commands -/

/-- Settles O47. -/
theorem readAverageReturnsTheMean : Obligations.ReadAverageReturnsTheMean := by
  intro n s words hn hv hs hb hf hw
  obtain ⟨t, hexec, h⟩ := exec_averaging_ends (i := .readAverage n) rfl hn hv hs hb rfl hf hw
  exact ⟨t, hexec, h.outcome⟩

/-- Settles O48. -/
theorem getValueSubtractsTheOffset : Obligations.GetValueSubtractsTheOffset := by
  intro n s words hn hv hs hb hf hw
  obtain ⟨t, hexec, h⟩ := exec_averaging_ends (i := .getValue n) rfl hn hv hs hb rfl hf hw
  exact ⟨t, hexec, h.outcome⟩

/-- Settles O49. -/
theorem getUnitsDividesByTheScale : Obligations.GetUnitsDividesByTheScale := by
  intro n s words hn hv hs hb hf hz hw
  have hscale : scaleOk (.getUnits n) s = true := by simp [scaleOk, hz]
  obtain ⟨t, hexec, h⟩ := exec_averaging_ends rfl hn hv hs hb hscale hf hw
  exact ⟨t, hexec, h.outcome⟩

/-- Settles O50. -/
theorem tareStoresTheMean : Obligations.TareStoresTheMean := by
  intro n s words hn hv hs hb hf hw
  obtain ⟨t, hexec, h⟩ := exec_averaging_ends (i := .tare n) rfl hn hv hs hb rfl hf hw
  exact ⟨t, hexec, h.outcome⟩

/-- The mean of one sample is that sample. -/
theorem meanOf_one (words : Nat → SampleWord) : meanOf words 1 = (words 0).toInt := by
  simp [meanOf, sampleSum]

/-- Settles O52: both operands of the difference are the tared mean, an integer that binary32 holds. -/
theorem tareLaw : Obligations.TareLaw := by
  intro n s words w hn hv hfmt hs hb hf hw hlast hmean
  obtain ⟨t, htare, ht⟩ := exec_averaging_ends (i := .tare n) rfl hn hv hs hb rfl hf hw
  have hcfg : t.cfg = s.cfg := ht.agree.cfg
  have hoffset : t.offset.toInt = w.toInt := by
    have hstored : t.offset = BitVec.ofInt 32 (meanOf words n) := ht.agree.offset
    rw [hstored, toInt_ofInt_sample (by norm_num) (meanOf_range words hn), hmean, meanOf]
  have hwt : ∀ f < (1 : Word).toNat, t.Delivers (f * frameSteps t.sel) w := fun f hf1 => by
    obtain rfl : f = 0 := Nat.lt_one_iff.1 hf1
    rw [Nat.zero_mul]
    exact delivers_shift ht.draws 0 (by rwa [Nat.zero_add])
  obtain ⟨u, hget, hu⟩ := exec_averaging_ends (i := .getValue 1) (words := fun _ => w) rfl (by decide) (hcfg ▸ hv)
    ht.ends.rest (ht.agree.bound.trans hb) rfl ht.frame hwt
  have hres : u.res = floatSub t.cfg.fmt (floatOfInt t.cfg.fmt (meanOf (fun _ => w) 1))
      (floatOfInt t.cfg.fmt t.offset.toInt) := hu.agree.res
  have hsample := toInt24 w
  rw [meanOf_one, hoffset, hcfg, hfmt] at hres
  exact ⟨t, u, htare, hget, hu.ends.rest, hu.ends.status, hres.trans (f32Sub_ofInt_self (by omega))⟩

end Sys2Proof.Machine
end

section
/-!
PROOFS. Faults, and the course of a command around them (60_exceptions.md R130, R135, R136): an accepted command reports
none from its issue to its end, a step always answers a next state, and an issue clears what an earlier command left.
-/

namespace Sys2Proof.Machine

/-! ## The issue -/

/-- A command is issued over whatever `STATUS` held (R14, R29). -/
theorem exec_of_status {i : Instr} {s : State} {v : BitVec 5} (hv : v.getLsbD 0 = false) :
    exec i { s with status := v } = .next (runSteps (stepsOf i) (stepBudget i) (entryOf i (hostIssue i s))) :=
  exec_of_idle i _ hv

/-- Settles O22: `host_issue` writes `STATUS` before the command's entry and steps, which never see the code. -/
theorem earlierFaultLeavesNoTrace : Obligations.EarlierFaultLeavesNoTrace := fun _ _ f g _ =>
  (exec_of_status (statusWord_busy f false)).trans (exec_of_status (statusWord_busy g false)).symm

/-! ## No fault while a command runs, and none when it ends -/

theorem busy_of_status {s : State} {f : BitVec 4} {b : Bool} (h : s.status = statusWord f b) : s.busy = b := by
  rw [State.busy, h, statusWord_busy]

theorem faultField_of_status {s : State} {f : BitVec 4} {b : Bool} (h : s.status = statusWord f b) :
    s.faultField = f := by
  rw [State.faultField, h, statusWord_fault]

/-- The command `i` is in progress or has ended, and no fault has been reported (R29, R130). -/
def Faultless (i : Instr) (s : State) : Prop := s.faultField = 0 ∧ (s.AtRest ∨ ∃ p, s.Running i p)

section
variable {i : Instr} {s t : State}

theorem Faultless.of_running {p : Pos} (hs : s.seq = .run i p) (hstatus : s.status = statusWord 0 true) :
    Faultless i s :=
  ⟨faultField_of_status hstatus, .inr ⟨p, busy_of_status hstatus, hs⟩⟩

theorem Faultless.of_ended (hs : s.seq = .idle) (hstatus : s.status = statusWord 0 false) : Faultless i s :=
  ⟨faultField_of_status hstatus, .inl ⟨busy_of_status hstatus, hs⟩⟩

theorem Faultless.seq (h : Faultless i s) : s.seq = .idle ∨ ∃ p, s.seq = .run i p := by
  obtain ⟨-, ⟨-, hs⟩ | ⟨p, -, hs⟩⟩ := h
  · exact .inl hs
  · exact .inr ⟨p, hs⟩

/-- A step goes on with the `STATUS` it found, or ends the command with `FAULT` 0. -/
theorem Faultless.course {p : Pos} (h : Faultless i s) (hs : s.seq = .run i p) (hc : Course i s t) : Faultless i t := by
  rcases hc with ⟨⟨q, hq⟩, hstatus⟩ | ⟨hq, hstatus⟩
  · obtain ⟨hfault, ⟨-, hidle⟩ | ⟨-, hbusy, -⟩⟩ := h
    · exact Seq.noConfusion (hidle.symm.trans hs)
    · exact ⟨by rwa [State.faultField, hstatus], .inr ⟨q, by rwa [State.busy, hstatus], hq⟩⟩
  · exact .of_ended hq hstatus

/-- However many atomic steps are made, none reports a fault. -/
theorem Faultless.runSteps (h : Faultless i s) (k : Nat) : Faultless i (runSteps (stepsOf i) k s) :=
  (runSteps_of_course i (fun _ hu => hu) (fun u p hp hu => hu.course hp (stepsOf_course i p u hp)) k s h h.seq).1

/-- The tests of an accepted command raise nothing (R77, R85, R118). -/
theorem faultless_of_accepted (ha : accepted i s = true) : Faultless i (entryOf i (hostIssue i s)) := by
  rcases entry_accepted i s ha with ⟨q, -, hq, hstatus⟩ | ⟨hq, hstatus⟩
  · exact .of_running hq hstatus
  · exact .of_ended hq hstatus

/-- A command in progress goes on, whatever its position. -/
theorem exec_of_inv {p : Pos} (h : s.Inv) (hr : s.Running i p) :
    exec i s = .next (runSteps (stepsOf i) (stepBudget i) s) := by
  obtain ⟨hb, hs⟩ := hr
  obtain ⟨-, hp, -⟩ := (inv_iff_of_running hs).1 h
  exact exec_of_running i p s hb hs hp

/-- The invariant holds `FAULT` at 0 while a command is in progress. -/
theorem faultless_of_inv {p : Pos} (h : s.Inv) (hr : s.Running i p) : Faultless i s := by
  obtain ⟨⟨-, -, hfault, -⟩, -⟩ := (inv_iff_of_running hr.2).1 h
  exact ⟨hfault, .inr ⟨p, hr⟩⟩

end

/-- Settles O21: the entry of an accepted command raises no fault, and no atomic step does. -/
theorem acceptedCommandsReportNoFault : Obligations.AcceptedCommandsReportNoFault :=
  ⟨fun i s ⟨hb, _⟩ ha => ⟨_, exec_of_idle i s hb, (faultless_of_accepted ha).runSteps _⟩,
    fun _ _ _ h hr => ⟨_, exec_of_inv h hr, (faultless_of_inv h hr).runSteps _⟩⟩

/-! ## Every step answers a next state -/

/-- With no command to issue, time passes (R147). -/
theorem step_of_no_command {s : State} (hb : s.busy = false) (hp : s.program = []) : step s = .next (passTime s) := by
  simp [step, hb, hp]

/-- Settles O11: on an idle block a queue that is empty, a command and a word that is none each answer a next state; on
a busy one the invariant gives the command in progress and its position. -/
theorem stepAlwaysGoesOn : Obligations.StepAlwaysGoesOn := by
  intro s h
  cases hs : s.seq with
  | run i p =>
    obtain ⟨⟨-, hb, -⟩, -⟩ := (inv_iff_of_running hs).1 h
    exact ⟨_, (step_of_running s i p ⟨hb, hs⟩).trans (exec_of_inv h ⟨hb, hs⟩)⟩
  | idle =>
    obtain ⟨-, hb, -⟩ := (inv_iff_of_idle hs).1 h
    cases hp : s.program with
    | nil => exact ⟨_, step_of_no_command hb hp⟩
    | cons w rest =>
      cases hd : decode w with
      | ok i => exact ⟨_, (step_of_command s w rest i hb hp hd).trans (exec_of_idle i (takeCommand rest s) hb)⟩
      | error e => exact ⟨_, step_of_invalid hb hp hd⟩

end Sys2Proof.Machine
end

section
/-!
PROOFS. The idle block (70_reset_and_hazards.md R147): with no command to issue every step is time passing, so a run is
`passTime` repeated, and what time leaves alone the run leaves alone.
-/

namespace Sys2Proof.Machine

/-- A field that time leaves alone, it leaves alone however often it passes. -/
theorem iterate_passTime_keeps {α : Type} (f : State → α) (hf : ∀ u, f (passTime u) = f u) (k : Nat) (s : State) :
    f (passTime^[k] s) = f s :=
  congrFun (Function.iterate_invariant (funext hf) k) s

theorem iterate_passTime_agree (k : Nat) (s : State) : Agree s (passTime^[k] s) := by
  induction k with
  | zero => exact .refl s
  | succ k ih =>
    rw [Function.iterate_succ_apply']
    exact ih.trans (passTime_agree _)

/-- With no command to issue, a run of `k` steps is time passing `k` times: time neither makes the block busy nor puts a
command in the host's queue (R14, R147). -/
theorem run_of_no_command (k : Nat) {s : State} (hb : s.busy = false) (hp : s.program = []) :
    Sys2Proof.core.run k s = .next (passTime^[k] s) := by
  induction k generalizing s with
  | zero => rfl
  | succ k ih =>
    calc Sys2Proof.core.run (k + 1) s
      _ = Sys2Proof.core.run k (passTime s) := run_succ_of_next k (step_of_no_command hb hp)
      _ = .next (passTime^[k] (passTime s)) := ih (by rw [passTime_busy, hb]) (by rw [(passTime_agree s).program, hp])

/-- Settles O6: the run is time alone, which leaves every register and pin the statement names alone. -/
theorem idleBlockDoesNothing : Obligations.IdleBlockDoesNothing := by
  intro k s ⟨hbusy, hseq⟩ hp
  have keeps {α : Type} (f : State → α) (hf : ∀ u, f (passTime u) = f u) : f (passTime^[k] s) = f s :=
    iterate_passTime_keeps f hf k s
  have hrest : (passTime^[k] s).AtRest :=
    ⟨(keeps State.busy passTime_busy).trans hbusy, (keeps State.seq fun _ => rfl).trans hseq⟩
  exact ⟨passTime^[k] s, run_of_no_command k hbusy hp, iterate_passTime_agree k s, hrest,
    keeps State.status fun _ => rfl, keeps State.shr fun _ => rfl, keeps State.byt fun _ => rfl,
    keeps State.t0 fun _ => rfl, keeps State.ie fun _ => rfl, keeps State.sck fun _ => rfl,
    keeps State.wire fun _ => rfl⟩

end Sys2Proof.Machine
end
